-- ==== Sys2Proof/Word.lean ====
section
/-! DEFINITION. The machine's word types: a byte (u8), a wire word of one device (u16, R56) and a command or
operand word (u32 or i32, R10, R90). -/

namespace Sys2Proof

/-- u8: a row pattern, a data byte, an opcode byte (R10). -/
abbrev Byte := BitVec 8

/-- u16: the word `W(e) = opcode ++ data` one device holds (R56, R71). -/
abbrev Half := BitVec 16

/-- u32 or, read by `toInt`, i32 (R10): one of the four words of a command (R90). -/
abbrev Word := BitVec 32

end Sys2Proof
end

