-- ==== Sys2Proof/Config.lean ====
section
/-! DEFINITION. What is fixed when a block is put into service (R9, R31), and the values the spec leaves open
("any value", "draw"), each an opaque constant with no body. -/

namespace Sys2Proof

/-- GUARD_MODE (R9, R156): whether SCANLIMIT and INTENSITY keep the source's always-true range guard. -/
inductive GuardMode where
  | source
  | enforced
deriving DecidableEq, Repr, Inhabited

/-- CHAR_LOOKUP_ORDER (R9, R200): whether SETCHAR remaps an out-of-range character before the table lookup. -/
inductive LookupOrder where
  | remapFirst
  | sourceOrder
deriving DecidableEq, Repr, Inhabited

/-- OPCODES (R9, R62): the chips' register addresses, 4 bits each (R8). -/
structure Opcodes where
  noop        : BitVec 4
  digit0      : BitVec 4
  decodeMode  : BitVec 4
  intensity   : BitVec 4
  scanLimit   : BitVec 4
  shutdown    : BitVec 4
  displayTest : BitVec 4
deriving DecidableEq, Repr

/-- The default of OPCODES. Only NOOP = 0 is the source's own; the rest is the spec's general-knowledge
default (R62, D17, G1; log 15). -/
def Opcodes.standard : Opcodes where
  noop        := 0x0
  digit0      := 0x1
  decodeMode  := 0x9
  intensity   := 0xA
  scanLimit   := 0xB
  shutdown    := 0xC
  displayTest := 0xF

/-- One physical line, "identified by a (port, pin-number) pair" (R32). -/
structure PinId where
  port : Nat
  pin  : Nat
deriving DecidableEq, Repr

/-- PINS (R9, R32): which physical lines are DIN, CLK and CS. -/
structure PinMap where
  din : PinId
  clk : PinId
  cs  : PinId
deriving DecidableEq, Repr

/-- The configuration record of R31. No command writes any field of it. `bitDelay` is read by no rule
(R31, R220). `opcodes.noop` is read by none either: XFER zeroes the other devices' slots itself (R124) and
the chips know NOOP as address 0x0 (R74). -/
structure Config where
  pins        : PinMap
  guardMode   : GuardMode
  lookupOrder : LookupOrder
  charTable   : Vector Byte 128
  opcodes     : Opcodes
  bitDelay    : Option Nat
deriving DecidableEq, Repr

/-- CHAR_TABLE is OPEN: its entries are in no source (R33, D16, U5; log 5). A free value. -/
opaque Config.openChar : Nat → Byte

/-- `draw u8` of R200 (D13, U3; log 14): the byte read past the table, a free value for each draw. -/
opaque Config.openDraw : Nat → Byte

/-- A chip's shift register at power-up: "any value" (R71, U13; log 11). A free value for each device. -/
opaque Config.openShiftRegister : Nat → Half

/-- What register `adr` of chip `d` holds at power-up: "any value" (R71, U13; log 11). -/
opaque Config.openRegister : Nat → Nat → Byte

/-- A frame buffer byte before the first XFER: "any value, unobservable" (R25, U7; log 11). -/
opaque Config.openFrame : Nat → Byte

/-- Whether the platform left CLK high at power-up: "any value" (R26, U8; log 8). -/
opaque Config.openClkHigh : Bool

/-- Whether the platform left CS high at power-up: "any value" (R26, U8; log 8). -/
opaque Config.openCsHigh : Bool

/-- The open character table as data. -/
def Config.openTable : Vector Byte 128 :=
  ⟨((List.range 128).map Config.openChar).toArray, by simp⟩

/-- The spec's default configuration (R9): GUARD_MODE = source, CHAR_LOOKUP_ORDER = remap_first, the default
OPCODES, no BIT_DELAY; CHAR_TABLE open. DESIGN CHOICE (log 4): PINS is platform wiring with no default; three
distinct lines of one port. -/
def Config.standard : Config where
  pins        := { din := ⟨0, 0⟩, clk := ⟨0, 1⟩, cs := ⟨0, 2⟩ }
  guardMode   := .source
  lookupOrder := .remapFirst
  charTable   := Config.openTable
  opcodes     := Opcodes.standard
  bitDelay    := none

end Sys2Proof
end

