-- ==== Sys2Proof/Syntax.lean ====
section
/-! DEFINITION. The instructions: one constructor per row of spec/opcode_table.json. -/

namespace Sys2Proof

/-- A host command: four 32-bit words presented together (R90). -/
structure CommandWord where
  w0 : Word
  w1 : Word
  w2 : Word
  w3 : Word
deriving DecidableEq, Repr

/-- The operand formats of R94. -/
inductive Format where
  | f0
  | fx
  | fxb
  | fxy
  | fxyzb
  | fxyz8
  | fxyz8b
deriving DecidableEq, Repr

/-- An instruction. Integer operands are words read as i32 (R92), so a negative device, row or column can be
written and reaches the range checks. The eleven host commands come first (R93), then the two rows of illegal
codes, which keep the four words they were read from (R96), the two micro-operations, which no command word
spells (R2, R121, R123), and the wire words of one device (R102), whose device is the word's place in the
frame (R56, R101). -/
inductive Instr where
  | init (n : Word)
  | getcount
  | shutdown (a : Word) (enable : Bool)
  | scanlimit (a limit : Word)
  | intensity (a level : Word)
  | clear (a : Word)
  | setled (a r c : Word) (on : Bool)
  | setrow (a r : Word) (v : Byte)
  | setcol (a c : Word) (v : Byte)
  | setdigit (a dg : Word) (v : Byte) (dp : Bool)
  | setchar (a dg : Word) (ch : Byte) (dp : Bool)
  | illegalZero (w : CommandWord)
  | illegalHigh (w : CommandWord)
  | shiftout (msbFirst : Bool) (v : Byte)
  | xfer (a : Word) (op d : Byte)
  | wireNoop (e : Nat)
  | wireDigit0 (e : Nat) (d : Byte)
  | wireDigit1 (e : Nat) (d : Byte)
  | wireDigit2 (e : Nat) (d : Byte)
  | wireDigit3 (e : Nat) (d : Byte)
  | wireDigit4 (e : Nat) (d : Byte)
  | wireDigit5 (e : Nat) (d : Byte)
  | wireDigit6 (e : Nat) (d : Byte)
  | wireDigit7 (e : Nat) (d : Byte)
  | wireDecodemode (e : Nat) (d : Byte)
  | wireIntensityReg (e : Nat) (d : Byte)
  | wireScanlimitReg (e : Nat) (d : Byte)
  | wireShutdownReg (e : Nat) (d : Byte)
  | wireDisplaytest (e : Nat) (d : Byte)
deriving DecidableEq, Repr

end Sys2Proof
end

