-- ==== Sys2Proof/Machine/State.lean ====
section
/-! DEFINITION. The machine's state as plain data: the block's record of R20, the observation (R36), the
environment the block drives (R70 to R79, R252) and the host's pending commands (R90). -/

namespace Sys2Proof.Machine

/-- A byte space (SH, FB, or one chip's registers; R50): a list of (address, byte) pairs, addresses strictly
rising. An address that is not listed holds no value: outside the space, or a slot of SH that is "unwritten"
(R23, R38, D9; log 7). -/
abbrev Memory := List Host.Cell

/-- The three output lines (R13). -/
inductive Pin where
  | din
  | clk
  | cs
deriving DecidableEq, Repr

/-- What a line is driven to (R13). -/
inductive Level where
  | low
  | high
deriving DecidableEq, Repr

/-- The level a line was last driven to by the block (R26); `unknown` until the block drives it. -/
inductive PinLevel where
  | unknown
  | low
  | high
deriving DecidableEq, Repr

/-- `pin` of R26. -/
structure Pins where
  din : PinLevel
  clk : PinLevel
  cs  : PinLevel
deriving DecidableEq, Repr

/-- The electrical level the platform left on CLK and CS before the block first drives them (R252). -/
structure Lines where
  clk : Level
  cs  : Level
deriving DecidableEq, Repr

/-- An event of the block's trace (R13, R36). -/
inductive Event where
  | pinWrite (p : Pin) (l : Level)
  | respond (v : Word)
deriving DecidableEq, Repr

/-- The spec's own fault reasons (R27, R212 to R214). -/
inductive FaultReason where
  | uninitialised
  | reinitialise
  | illegalCommand
  | reservedField
deriving DecidableEq, Repr

/-- What a running command still has to do, in order (R28): the events it emits, and the state writes at the
points the command rules give. -/
inductive Action where
  /-- PinWrite(p, l) (R13). -/
  | pin (p : Pin) (l : Level)
  /-- Respond(v) (R13). -/
  | respond (v : Word)
  /-- `N <- n` (R141). -/
  | setN (n : Fin 9)
  /-- `inited <- true` (R141). -/
  | setInited
  /-- `shadow[a][r] <- v` at the flat slot 8a + r (R12, R50). -/
  | writeShadow (slot : Fin 64) (v : Byte)
  /-- `frame[k] <- bytes[k]` for every k of the list (R124). -/
  | loadFrame (bytes : List Byte)
  /-- One free byte has been drawn (R200). -/
  | drawn
deriving DecidableEq, Repr

/-- The command sequencer (R28). -/
inductive Seq where
  | idle
  | busy (rest : List Action)
deriving DecidableEq, Repr

/-- The two chips the chain may be built of (R1, R73). -/
inductive ChipKind where
  | max7219
  | max7221
deriving DecidableEq, Repr

/-- One chip of the chain (R71): its 16-bit shift register and its registers by address 0x1 to 0xF. -/
structure Chip where
  kind : ChipKind
  sr   : Half
  reg  : Memory
deriving DecidableEq, Repr

/-- R28 gives a command two views: one indivisible big step (normative), or one small step for each event it
emits. Which of them `step` shows (model's own, log 13). -/
inductive View where
  | bigStep
  | smallStep
deriving DecidableEq, Repr

/-- The state. The fields `cfg`, `view`, `host` and `draws` are the model's own (logs 3, 13, 12, 14). -/
structure State where
  /-- The configuration record (R31); no command writes it. -/
  cfg     : Config
  /-- R21. -/
  inited  : Bool
  /-- N (R22): 1..8; 0 stands for "holds no value" before INIT (log 6). -/
  n       : Fin 9
  /-- SH, the shadow buffer, flat index 8a + r (R23, R50). -/
  shadow  : Memory
  /-- FB, the frame buffer: 16 bytes (R25, R50). -/
  frame   : Memory
  /-- R26. -/
  pin     : Pins
  /-- R27; `none` is the spec's own value. -/
  fault   : Option FaultReason
  /-- R28. -/
  seq     : Seq
  /-- The event trace (R36), newest event first (log 24). -/
  emitted : List Event
  /-- The platform's levels, read only while `pin` is unknown (R72, R252). -/
  line    : Lines
  /-- The chips, device 0 first (R70); the length is NPHYS (R9). -/
  chain   : List Chip
  /-- Commands the host has not issued yet, next one first (R90). -/
  host    : List CommandWord
  /-- R28. -/
  view    : View
  /-- How many free bytes SETCHAR has drawn (R200). -/
  draws   : Nat
deriving DecidableEq, Repr

/-- Why the machine has no step. -/
inductive Fault where
  /-- The block has raised a fault and "has no step" any more (R215). Raised by step and by every block
  instruction in a faulted state. Safe: the spec says the same. -/
  | halted (r : FaultReason)
  /-- A command met a running one: "the host has no move while seq = busy" (R29, R231, U19). Raised by every
  block instruction outside `seq = idle`; step never issues one there. Safe: a stuck state. -/
  | busy
  /-- SETLED or SETCOL reads a shadow slot that holds no value (R23, D9). No run reaches it: every reader
  faults first before INIT, and INIT writes all 64 slots. Safe: a stop. -/
  | unwritten
deriving DecidableEq, Repr

/-- Why the model has no meaning for a step. -/
inductive Refusal where
  /-- An instruction without a meaning; exec's arms alone answer with it. Safe: a stop. -/
  | notModelled (mnemonic : String)
  /-- PINS names one line twice: "refused (the model has no meaning for it)" (R32, D8, U11). Raised by every
  block instruction. Safe: a stop. -/
  | pinsCoincide
  /-- XFER with a device outside [0, N): "refuse (unreachable; no command makes the call)" (R123, U17).
  Raised by XFER alone. Safe: a stop. -/
  | xferAddress
deriving DecidableEq, Repr

/-- The registers 0x1 to 0xF of chip d at power-up, each any value (R71, U13; log 11). -/
def Chip.openRegisters (d : Nat) : Memory := (List.range 15).map fun k => (k + 1, Config.openRegister d (k + 1))

/-- A chip at power-up (R71, U13): shift register and registers any value. DESIGN CHOICE (log 10): a
MAX7219. -/
def Chip.powerUp (d : Nat) : Chip := ⟨.max7219, Config.openShiftRegister d, Chip.openRegisters d⟩

/-- The sixteen bytes of FB at power-up, each any value (R25, R38, U7; log 11). -/
def openFrame : Memory := (List.range 16).map fun k => (k, Config.openFrame k)

/-- A level from the free bit that stands for it. -/
def Level.ofHigh (b : Bool) : Level := if b then .high else .low

/-- Power-up of a block with configuration `cfg` on a chain of `nphys` chips (R38, R240). -/
def State.powerUp (cfg : Config) (nphys : Nat) : State where
  cfg     := cfg
  inited  := false
  n       := 0
  shadow  := []
  frame   := openFrame
  pin     := ⟨.unknown, .unknown, .unknown⟩
  fault   := none
  seq     := .idle
  emitted := []
  line    := ⟨Level.ofHigh Config.openClkHigh, Level.ofHigh Config.openCsHigh⟩
  chain   := (List.range nphys).map Chip.powerUp
  host    := []
  view    := .bigStep
  draws   := 0

/-- The machine right after reset, that is after power-up (R240), with the default configuration. DESIGN
CHOICE (log 9): a chain of 8 chips. -/
def State.reset : State := State.powerUp Config.standard 8

end Sys2Proof.Machine
end

