-- ==== Sys2Proof/Machine/Flags.lean ====
section
/-! DEFINITION. The block has no condition flags (R30, R120, R170): what its commands compute instead are the
tests of R140, R142 and R156, which decide between an effect, a no-op and a clamp. Comparisons are signed. -/

namespace Sys2Proof.Machine

/-- `valid_addr(a) = 0 <= a and a < N` (R140). -/
def validAddr (n : Fin 9) (a : Word) : Bool := decide (0 ≤ a.toInt) && decide (a.toInt < (n.val : Int))

/-- `valid_idx(i) = 0 <= i and i <= 7` (R140). -/
def validIdx (i : Word) : Bool := decide (0 ≤ i.toInt) && decide (i.toInt ≤ 7)

/-- The range guard of SCANLIMIT and INTENSITY (R156): under `source` the source's always-true disjunction. -/
def guardOk (mode : GuardMode) (v : Word) (lo hi : Int) : Bool :=
  match mode with
  | .source => decide (lo ≤ v.toInt) || decide (v.toInt ≤ hi)
  | .enforced => decide (lo ≤ v.toInt) && decide (v.toInt ≤ hi)

/-- SETDIGIT's value check, `value > 15` is a no-op (R191). -/
def validHexDigit (v : Byte) : Bool := decide (v.toNat ≤ 15)

/-- `clampN` of R142. -/
def clampN (n : Word) : Fin 9 :=
  if n.toInt ≤ 0 ∨ 8 < n.toInt then 8 else Fin.ofNat 9 n.toNat

/-- The three lines of PINS are distinct (R32). -/
def pinsDistinct (p : PinMap) : Bool :=
  decide (p.din ≠ p.clk) && decide (p.din ≠ p.cs) && decide (p.clk ≠ p.cs)

end Sys2Proof.Machine
end

