-- ==== Sys2Proof/Machine/Operands.lean ====
section
/-! DEFINITION. Operand forms: masks, conversions, table lookups, slot and register numbers, frame bytes. -/

namespace Sys2Proof.Machine

/-- `colmask(c) = 0x80 >> c` (R175). -/
def colMask (c : Word) : Byte := 0x80#8 >>> c.toNat

/-- The row value SETLED writes back (R176): the column's bit set or cleared, the other seven kept. -/
def ledValue (v : Byte) (c : Word) (on : Bool) : Byte :=
  if on then v ||| colMask c else v &&& ~~~(colMask c)

/-- `trunc8` (R11, D12): the low 8 bits (log 17). -/
def trunc8 (v : Word) : Byte := v.setWidth 8

/-- `zext_32(N)` (R97, R145). -/
def countWord (n : Fin 9) : Word := BitVec.ofNat 32 n.val

/-- The decimal point, bit 7, ORed in (R190). -/
def withPoint (p : Byte) (dp : Bool) : Byte := if dp then p ||| 0x80#8 else p

/-- `zext_8(adr)`: a 4-bit register address as the opcode byte of a word (R63, R101). -/
def opcodeByte (adr : BitVec 4) : Byte := adr.setWidth 8

/-- The opcode byte of row r's register, `OPCODES.DIGIT0 + r` (R170). The sum is taken at the width of a
register address, 4 bits, so that the high nibble of every opcode byte is 0 (R63; log 18). -/
def digitByte (o : Opcodes) (r : Nat) : Byte := opcodeByte (o.digit0 + BitVec.ofNat 4 r)

/-- The data byte of SHUTDOWN: 0x00 shuts down, 0x01 runs (R150). -/
def shutdownByte (enable : Bool) : Byte := if enable then 0x00#8 else 0x01#8

/-- The flat index `8a + r` of a shadow slot (R50, D32). -/
def slot (a r : Nat) : Fin 64 := Fin.ofNat 64 (8 * a + r)

/-- `CHAR_TABLE[i]` for an index of the table (R33, R52). -/
def tableAt (cfg : Config) (i : Byte) : Byte := cfg.charTable.get (Fin.ofNat 128 i.toNat)

/-- Whether SETCHAR's lookup draws a free byte (R200). -/
def charDraws (cfg : Config) (ch : Byte) : Bool :=
  decide (127 < ch.toNat) && (cfg.lookupOrder == .sourceOrder)

/-- `charpat` of R200. -/
def charPattern (cfg : Config) (draws : Nat) (ch : Byte) : Byte :=
  if ch.toNat ≤ 127 then tableAt cfg ch
  else
    match cfg.lookupOrder with
    | .remapFirst => tableAt cfg 32
    | .sourceOrder => Config.openDraw draws

/-- XFER, step 1 (R124): 2N zero bytes, then the data slot and the opcode slot of device a. -/
def frameBytes (n a : Nat) (op d : Byte) : List Byte :=
  ((List.replicate (2 * n) 0x00#8).set (2 * a) d).set (2 * a + 1) op

/-- The level a bit drives DIN to (R121, D15). -/
def Level.ofBit (b : Bool) : Level := if b then .high else .low

/-- What PinWrite leaves in `pin` (R13). -/
def Level.toPin : Level → PinLevel
  | .low => .low
  | .high => .high

end Sys2Proof.Machine
end

