-- ==== Sys2Proof/Machine/Ops.lean ====
section
/-! DEFINITION. The named operations over memory, lines, chips and the command sequencer, and the one
operation that raises a fault. -/

namespace Sys2Proof.Machine

/-! ### Byte spaces (R50) -/

/-- The byte at an address, or none where it holds no value. -/
def Memory.read : Memory → Nat → Option Byte
  | [], _ => none
  | (k, v) :: m, a => if a = k then some v else Memory.read m a

/-- Write one byte, keeping the addresses strictly rising. -/
def Memory.write : Memory → Nat → Byte → Memory
  | [], a, v => [(a, v)]
  | (k, x) :: m, a, v =>
    if a < k then (a, v) :: (k, x) :: m
    else if a = k then (a, v) :: m
    else (k, x) :: Memory.write m a v

/-- Write consecutive bytes from an address up. -/
def Memory.writeAll : Memory → Nat → List Byte → Memory
  | m, _, [] => m
  | m, k, b :: bs => Memory.writeAll (Memory.write m k b) (k + 1) bs

/-- The canonical form: addresses strictly rising. -/
def Memory.wf : Memory → Bool
  | [] => true
  | [_] => true
  | (k, _) :: (k', v') :: m => decide (k < k') && Memory.wf ((k', v') :: m)

/-! ### Lines and chips (R70 to R74) -/

/-- The level last driven on a line. -/
def Pins.get (p : Pins) : Pin → PinLevel
  | .din => p.din
  | .clk => p.clk
  | .cs => p.cs

/-- Record a driven level. -/
def Pins.set (p : Pins) (q : Pin) (l : PinLevel) : Pins :=
  match q with
  | .din => { p with din := l }
  | .clk => { p with clk := l }
  | .cs => { p with cs := l }

/-- A line is electrically low: driven low, or not driven yet and left low by the platform. With the
platform's level free this admits both readings of a first high write (R72, R252). -/
def lineLow (driven : PinLevel) (platform : Level) : Bool :=
  match driven with
  | .unknown => platform == .low
  | .low => true
  | .high => false

/-- R73: one bit goes into device 0 and each device's bit 15 into the next one. DESIGN CHOICE (log 26): a
device that does not shift, a MAX7221 while CS is high, also hands on its bit 15, to a MAX7219 behind it; the spec
is silent on such a mixed chain. -/
def shiftChain (shifts : Chip → Bool) : Bool → List Chip → List Chip
  | _, [] => []
  | b, c :: cs =>
    (if shifts c then { c with sr := BitVec.shiftConcat c.sr b } else c) :: shiftChain shifts c.sr.msb cs

/-- R74: a device takes bits 11..8 of its shift register as the address and bits 7..0 as the data; address
0x0 changes nothing; bits 15..12 are ignored. -/
def Chip.latch (c : Chip) : Chip :=
  let adr : BitVec 4 := c.sr.extractLsb' 8 4
  if adr = 0x0#4 then c else { c with reg := c.reg.write adr.toNat (c.sr.extractLsb' 0 8) }

/-- Whether a device shifts at a CLK rising edge: every device while CS is low; a MAX7219 also while CS is
high (R73, G10). -/
def shiftsNow (csLow : Bool) (c : Chip) : Bool := csLow || (c.kind == .max7219)

/-- What writing a level to a line does to the chips: the two rising edges of R72 to R74, judged on the levels
before the write (logs 8, 16 and 19). -/
def chainAfter (p : Pin) (l : Level) (s : State) : List Chip :=
  match p, l with
  | .clk, .high =>
    if lineLow s.pin.clk s.line.clk then
      shiftChain (shiftsNow (lineLow s.pin.cs s.line.cs)) (s.pin.din == .high) s.chain
    else s.chain
  | .cs, .high => if lineLow s.pin.cs s.line.cs then s.chain.map Chip.latch else s.chain
  | _, _ => s.chain

/-- A register write that a device takes from its wire word (R74, R77). A word for a place where no chip is
"falls off the end" (R78). -/
def wireWrite (e : Nat) (adr : BitVec 4) (d : Byte) (s : State) : State :=
  { s with chain := s.chain.modify e (fun c => { c with reg := c.reg.write adr.toNat d }) }

/-! ### Output (R13) and the actions of a running command (R28) -/

/-- `PinWrite(p, l)`: the event, the driven level, and what the chips make of the edge. -/
def pinWrite (p : Pin) (l : Level) (s : State) : State :=
  { s with
    chain := chainAfter p l s
    pin := s.pin.set p l.toPin
    emitted := .pinWrite p l :: s.emitted }

/-- `Respond(v)`. -/
def respond (v : Word) (s : State) : State := { s with emitted := .respond v :: s.emitted }

/-- One action of a running command. FB has 16 bytes (R25). -/
def act : Action → State → State
  | .pin p l, s => pinWrite p l s
  | .respond v, s => respond v s
  | .setN n, s => { s with n := n }
  | .setInited, s => { s with inited := true }
  | .writeShadow k v, s => { s with shadow := s.shadow.write k.val v }
  | .loadFrame bytes, s => { s with frame := s.frame.writeAll 0 (bytes.take 16) }
  | .drawn, s => { s with draws := s.draws + 1 }

/-- A command's actions from first to last: the big step "from idle to idle" (R28). -/
def runActs : List Action → State → State
  | [], s => s
  | a :: rest, s => runActs rest (act a s)

/-- A state write between two events; the others emit the event a small step shows (R28). -/
def silent : Action → Bool
  | .pin _ _ => false
  | .respond _ => false
  | .setN _ => true
  | .setInited => true
  | .writeShadow _ _ => true
  | .loadFrame _ => true
  | .drawn => true

/-- The state writes up to the next event take effect, and the sequencer holds the rest, or nothing: "when rest
is empty seq returns to idle" (R28; log 13). -/
def settle : List Action → State → State
  | [], s => { s with seq := .idle }
  | a :: rest, s => if silent a then settle rest (act a s) else { s with seq := .busy (a :: rest) }

/-- A command starts. In the big-step view it runs to completion; in the small-step view the sequencer holds
what is still to be done (R28). A command with nothing to do leaves `seq` idle. -/
def issue (acts : List Action) (s : State) : State :=
  match s.view with
  | .bigStep => runActs acts s
  | .smallStep => settle acts s

/-- One small step: it "emits the head of rest" (R28), then the state writes before the next event take
effect. -/
def resume : List Action → State → State
  | [], s => { s with seq := .idle }
  | a :: rest, s => settle rest (act a s)

/-! ### Faults and the common prologue (R212 to R216) -/

/-- `raise Fault(reason)` (R14, R215): the reason is recorded and the sequencer goes idle; nothing else
changes and nothing is emitted (log 1). -/
def raise (r : FaultReason) (s : State) : State := { s with fault := some r, seq := .idle }

/-- What stands before every block instruction: the configuration has a meaning (R32), the block is not
faulted (R215) and no command is running (R29; logs 20 and 21). -/
def whenLive (s : State) (k : Host.Outcome State Fault Refusal) : Host.Outcome State Fault Refusal :=
  if pinsDistinct s.cfg.pins then
    match s.fault with
    | some r => .fault (.halted r)
    | none =>
      match s.seq with
      | .busy _ => .fault .busy
      | .idle => k
  else .refused .pinsCoincide

/-- The prologue of every command but INIT (R212, R216). -/
def whenInited (s : State) (k : Host.Outcome State Fault Refusal) : Host.Outcome State Fault Refusal :=
  whenLive s (if s.inited then k else .next (raise .uninitialised s))

/-- The prologue of INIT (R212, R216). -/
def whenNotInited (s : State) (k : Host.Outcome State Fault Refusal) : Host.Outcome State Fault Refusal :=
  whenLive s (if s.inited then .next (raise .reinitialise s) else k)

/-- A command body whose actions are known, or which met a shadow slot that holds no value (log 7). -/
def issueRead (acts : Option (List Action)) (s : State) : Host.Outcome State Fault Refusal :=
  match acts with
  | some l => .next (issue l s)
  | none => .fault .unwritten

/-! ### The transport's actions (R121 to R125) -/

/-- One bit of SHIFTOUT (R121). -/
def bitActs (b : Bool) : List Action :=
  [.pin .din (Level.ofBit b), .pin .clk .high, .pin .clk .low]

/-- The bits of a byte in the order SHIFTOUT sends them (R121). -/
def bitOrder (msbFirst : Bool) (v : Byte) : List Bool :=
  (List.range 8).map (fun j => v.getLsbD (if msbFirst then 7 - j else j))

/-- SHIFTOUT(msbFirst, v) (R121). -/
def shiftOutActs (msbFirst : Bool) (v : Byte) : List Action := (bitOrder msbFirst v).flatMap bitActs

/-- XFER(a, op, d) on a chain of length n (R124, R125): build the frame, CS low, bytes 2N-1 down to 0, CS
high. The bytes sent are the frame bytes just written (R25). -/
def xferActs (n a : Nat) (op d : Byte) : List Action :=
  .loadFrame (frameBytes n a op d) :: .pin .cs .low ::
    ((frameBytes n a op d).reverse.flatMap (shiftOutActs true) ++ [.pin .cs .high])

/-- Write one shadow row, then transmit it (R170). -/
def rowActs (o : Opcodes) (n a r : Nat) (v : Byte) : List Action :=
  .writeShadow (slot a r) v :: xferActs n a (digitByte o r) v

/-- Eight rows 0x00, each written and transmitted before the next (R171). -/
def clearActs (o : Opcodes) (n a : Nat) : List Action :=
  (List.range 8).flatMap (fun r => rowActs o n a r 0x00)

end Sys2Proof.Machine
end

