-- ==== Sys2Proof/Machine/Configuration.lean ====
section
/-! DEFINITION. Chain and device configuration commands: INIT, GETCOUNT, SHUTDOWN, SCANLIMIT, INTENSITY (R140 to
R160). -/

namespace Sys2Proof.Machine

/-- INIT's register writes to one device (R141): display test off, scan limit 7, raw segment mode, clear, shut
down. -/
def initDeviceActs (o : Opcodes) (n a : Nat) : List Action :=
  xferActs n a (opcodeByte o.displayTest) 0x00
    ++ xferActs n a (opcodeByte o.scanLimit) 0x07
    ++ xferActs n a (opcodeByte o.decodeMode) 0x00
    ++ clearActs o n a
    ++ xferActs n a (opcodeByte o.shutdown) 0x00

/-- "zeroes the entire shadow buffer" (R141): all 64 slots. -/
def zeroShadowActs : List Action := (List.finRange 64).map (fun k => .writeShadow k 0x00)

/-- INIT's actions once the chain length is clamped (R141). -/
def initActs (o : Opcodes) (n : Fin 9) : List Action :=
  .setN n :: .pin .cs .high ::
    (zeroShadowActs ++ (List.range n.val).flatMap (initDeviceActs o n.val) ++ [.setInited])

/-- INIT(n) (R141, R142). -/
def execInit (n : Word) (s : State) : Host.Outcome State Fault Refusal :=
  whenNotInited s (.next (issue (initActs s.cfg.opcodes (clampN n)) s))

/-- GETCOUNT (R145). -/
def execGetcount (s : State) : Host.Outcome State Fault Refusal :=
  whenInited s (.next (issue [.respond (countWord s.n)] s))

/-- One register write to a device, or the silent no-op (R210). -/
def registerActs (n : Fin 9) (a : Word) (ok : Bool) (adr : BitVec 4) (d : Byte) : List Action :=
  if validAddr n a && ok then xferActs n.val a.toNat (opcodeByte adr) d else []

/-- SHUTDOWN(a, enable) (R150). -/
def execShutdown (a : Word) (enable : Bool) (s : State) : Host.Outcome State Fault Refusal :=
  whenInited s (.next (issue (registerActs s.n a true s.cfg.opcodes.shutdown (shutdownByte enable)) s))

/-- SCANLIMIT(a, limit) (R155, R156). -/
def execScanlimit (a limit : Word) (s : State) : Host.Outcome State Fault Refusal :=
  whenInited s
    (.next (issue
      (registerActs s.n a (guardOk s.cfg.guardMode limit 0 7) s.cfg.opcodes.scanLimit (trunc8 limit)) s))

/-- INTENSITY(a, intensity) (R160, R156). -/
def execIntensity (a level : Word) (s : State) : Host.Outcome State Fault Refusal :=
  whenInited s
    (.next (issue
      (registerActs s.n a (guardOk s.cfg.guardMode level 0 15) s.cfg.opcodes.intensity (trunc8 level)) s))

end Sys2Proof.Machine
end

