-- ==== Sys2Proof/Machine/Display.lean ====
section
/-! DEFINITION. Display commands: CLEAR, SETLED, SETROW, SETCOL, SETDIGIT, SETCHAR (R170 to R202). -/

namespace Sys2Proof.Machine

/-- CLEAR(a) (R171). -/
def execClear (a : Word) (s : State) : Host.Outcome State Fault Refusal :=
  whenInited s
    (.next (issue (if validAddr s.n a then clearActs s.cfg.opcodes s.n.val a.toNat else []) s))

/-- The body of SETLED, checks included (R176): read the row, modify one bit, write it back, transmit it. None
where the row holds no value. -/
def ledActs (s : State) (a r c : Word) (on : Bool) : Option (List Action) :=
  if validAddr s.n a && validIdx r && validIdx c then
    match s.shadow.read (slot a.toNat r.toNat).val with
    | some v => some (rowActs s.cfg.opcodes s.n.val a.toNat r.toNat (ledValue v c on))
    | none => none
  else some []

/-- SETLED(a, r, c, on) (R176). -/
def execSetled (a r c : Word) (on : Bool) (s : State) : Host.Outcome State Fault Refusal :=
  whenInited s (issueRead (ledActs s a r c on) s)

/-- SETROW(a, r, value) (R181). -/
def execSetrow (a r : Word) (v : Byte) (s : State) : Host.Outcome State Fault Refusal :=
  whenInited s
    (.next (issue
      (if validAddr s.n a && validIdx r then rowActs s.cfg.opcodes s.n.val a.toNat r.toNat v else []) s))

/-- Bodies one after the other; none as soon as one is none. -/
def joinActs : List (Option (List Action)) → Option (List Action)
  | [] => some []
  | none :: _ => none
  | some l :: rest =>
    match joinActs rest with
    | some m => some (l ++ m)
    | none => none

/-- The eight SETLED bodies of SETCOL, rows 0 to 7, bit 7 - r of the value for row r (R185). Each body reads
its own row only, so what the earlier bodies write does not change what it reads (log 22). -/
def columnActs (s : State) (a c : Word) (v : Byte) : Option (List Action) :=
  joinActs ((List.range 8).map (fun r => ledActs s a (BitVec.ofNat 32 r) c (v.getLsbD (7 - r))))

/-- SETCOL(a, c, value) (R185). -/
def execSetcol (a c : Word) (v : Byte) (s : State) : Host.Outcome State Fault Refusal :=
  whenInited s
    (issueRead (if validAddr s.n a && validIdx c then columnActs s a c v else some []) s)

/-- SETDIGIT(a, dg, value, dp) (R191). -/
def execSetdigit (a dg : Word) (v : Byte) (dp : Bool) (s : State) : Host.Outcome State Fault Refusal :=
  whenInited s
    (.next (issue
      (if validAddr s.n a && validIdx dg && validHexDigit v then
        rowActs s.cfg.opcodes s.n.val a.toNat dg.toNat (withPoint (tableAt s.cfg v) dp)
      else []) s))

/-- The draw of R200, recorded where SETCHAR makes one. -/
def drawActs (cfg : Config) (ch : Byte) : List Action := if charDraws cfg ch then [.drawn] else []

/-- SETCHAR(a, dg, ch, dp) (R201). -/
def execSetchar (a dg : Word) (ch : Byte) (dp : Bool) (s : State) : Host.Outcome State Fault Refusal :=
  whenInited s
    (.next (issue
      (if validAddr s.n a && validIdx dg then
        drawActs s.cfg ch
          ++ rowActs s.cfg.opcodes s.n.val a.toNat dg.toNat (withPoint (charPattern s.cfg s.draws ch) dp)
      else []) s))

end Sys2Proof.Machine
end

