-- ==== Sys2Proof/Machine/Illegal.lean ====
section
/-! DEFINITION. The illegal command codes (R96, R213) and the reserved encodings (R96, R214): each takes the fault
the spec names, which is the block's next state (R215). -/

namespace Sys2Proof.Machine

/-- CODE 0x0: `Fault(IllegalCommand)`, before the initialisation check (R213, R216). -/
def execIllegalZero (_w : CommandWord) (s : State) : Host.Outcome State Fault Refusal :=
  whenLive s (.next (raise .illegalCommand s))

/-- CODE 0xC to 0xF: `Fault(IllegalCommand)`, before the initialisation check (R213, R216). -/
def execIllegalHigh (_w : CommandWord) (s : State) : Host.Outcome State Fault Refusal :=
  whenLive s (.next (raise .illegalCommand s))

/-- A command word the decoder rejects: `Fault(ReservedField)`, before the initialisation check (R214, R216). -/
def takeReserved (s : State) : Host.Outcome State Fault Refusal :=
  whenLive s (.next (raise .reservedField s))

end Sys2Proof.Machine
end

