-- ==== Sys2Proof/Machine/Transport.lean ====
section
/-! DEFINITION. The bit-serial transport: SHIFTOUT and XFER as instructions of their own (R120 to R129). Inside
a command they are the action lists of Ops.lean; no host command names them (R2, D2). -/

namespace Sys2Proof.Machine

/-- SHIFTOUT(msbFirst, v) (R121): it reads nothing but its operands (R120). -/
def execShiftout (msbFirst : Bool) (v : Byte) (s : State) : Host.Outcome State Fault Refusal :=
  whenLive s (.next (issue (shiftOutActs msbFirst v) s))

/-- XFER(a, op, d) (R123 to R125). A device outside [0, N) is a call no command makes, which the spec has the
model refuse (R123, U17; log 20). -/
def execXfer (a : Word) (op d : Byte) (s : State) : Host.Outcome State Fault Refusal :=
  whenLive s
    (if validAddr s.n a then .next (issue (xferActs s.n.val a.toNat op d) s) else .refused .xferAddress)

end Sys2Proof.Machine
end

