-- ==== Sys2Proof/Machine/Wire.lean ====
section
/-! DEFINITION. The wire words of one device (R101, R102): the register write a chip takes from its word when
chip-select latches (R74, R77). The chip decodes the address of the word itself, so these addresses do not
depend on the block's OPCODES. A chip needs no initialised block and takes its word whatever the block's fault
or sequencer holds (log 2). -/

namespace Sys2Proof.Machine

/-- The NOOP word: "latches together but does not alter their state" (R61, R74). -/
def execWireNoop (_e : Nat) (s : State) : Host.Outcome State Fault Refusal := .next s

/-- Row 0's register, DIGIT0, address 0x1 (R62, R102). -/
def execWireDigit0 (e : Nat) (d : Byte) (s : State) : Host.Outcome State Fault Refusal :=
  .next (wireWrite e 0x1 d s)

/-- Row 1's register, DIGIT1, address 0x2 (R62, R102). -/
def execWireDigit1 (e : Nat) (d : Byte) (s : State) : Host.Outcome State Fault Refusal :=
  .next (wireWrite e 0x2 d s)

/-- Row 2's register, DIGIT2, address 0x3 (R62, R102). -/
def execWireDigit2 (e : Nat) (d : Byte) (s : State) : Host.Outcome State Fault Refusal :=
  .next (wireWrite e 0x3 d s)

/-- Row 3's register, DIGIT3, address 0x4 (R62, R102). -/
def execWireDigit3 (e : Nat) (d : Byte) (s : State) : Host.Outcome State Fault Refusal :=
  .next (wireWrite e 0x4 d s)

/-- Row 4's register, DIGIT4, address 0x5 (R62, R102). -/
def execWireDigit4 (e : Nat) (d : Byte) (s : State) : Host.Outcome State Fault Refusal :=
  .next (wireWrite e 0x5 d s)

/-- Row 5's register, DIGIT5, address 0x6 (R62, R102). -/
def execWireDigit5 (e : Nat) (d : Byte) (s : State) : Host.Outcome State Fault Refusal :=
  .next (wireWrite e 0x6 d s)

/-- Row 6's register, DIGIT6, address 0x7 (R62, R102). -/
def execWireDigit6 (e : Nat) (d : Byte) (s : State) : Host.Outcome State Fault Refusal :=
  .next (wireWrite e 0x7 d s)

/-- Row 7's register, DIGIT7, address 0x8 (R62, R102). -/
def execWireDigit7 (e : Nat) (d : Byte) (s : State) : Host.Outcome State Fault Refusal :=
  .next (wireWrite e 0x8 d s)

/-- DECODEMODE, address 0x9 (R62, R102). -/
def execWireDecodemode (e : Nat) (d : Byte) (s : State) : Host.Outcome State Fault Refusal :=
  .next (wireWrite e 0x9 d s)

/-- INTENSITY, address 0xA (R62, R102). -/
def execWireIntensityReg (e : Nat) (d : Byte) (s : State) : Host.Outcome State Fault Refusal :=
  .next (wireWrite e 0xA d s)

/-- SCANLIMIT, address 0xB (R62, R102). -/
def execWireScanlimitReg (e : Nat) (d : Byte) (s : State) : Host.Outcome State Fault Refusal :=
  .next (wireWrite e 0xB d s)

/-- SHUTDOWN, address 0xC (R62, R102). -/
def execWireShutdownReg (e : Nat) (d : Byte) (s : State) : Host.Outcome State Fault Refusal :=
  .next (wireWrite e 0xC d s)

/-- DISPLAYTEST, address 0xF (R62, R102). -/
def execWireDisplaytest (e : Nat) (d : Byte) (s : State) : Host.Outcome State Fault Refusal :=
  .next (wireWrite e 0xF d s)

end Sys2Proof.Machine
end

