-- ==== Sys2Proof/Machine/Dispatch.lean ====
section
/-! DEFINITION. One arm per instruction. -/

namespace Sys2Proof.Machine

def exec (i : Instr) (s : State) : Host.Outcome State Fault Refusal :=
  match i with
  | .init n => Sys2Proof.Machine.execInit n s
  | .getcount => Sys2Proof.Machine.execGetcount s
  | .shutdown a enable => Sys2Proof.Machine.execShutdown a enable s
  | .scanlimit a limit => Sys2Proof.Machine.execScanlimit a limit s
  | .intensity a level => Sys2Proof.Machine.execIntensity a level s
  | .clear a => Sys2Proof.Machine.execClear a s
  | .setled a r c on => Sys2Proof.Machine.execSetled a r c on s
  | .setrow a r v => Sys2Proof.Machine.execSetrow a r v s
  | .setcol a c v => Sys2Proof.Machine.execSetcol a c v s
  | .setdigit a dg v dp => Sys2Proof.Machine.execSetdigit a dg v dp s
  | .setchar a dg ch dp => Sys2Proof.Machine.execSetchar a dg ch dp s
  | .illegalZero w => Sys2Proof.Machine.execIllegalZero w s
  | .illegalHigh w => Sys2Proof.Machine.execIllegalHigh w s
  | .shiftout m v => Sys2Proof.Machine.execShiftout m v s
  | .xfer a op d => Sys2Proof.Machine.execXfer a op d s
  | .wireNoop e => Sys2Proof.Machine.execWireNoop e s
  | .wireDigit0 e d => Sys2Proof.Machine.execWireDigit0 e d s
  | .wireDigit1 e d => Sys2Proof.Machine.execWireDigit1 e d s
  | .wireDigit2 e d => Sys2Proof.Machine.execWireDigit2 e d s
  | .wireDigit3 e d => Sys2Proof.Machine.execWireDigit3 e d s
  | .wireDigit4 e d => Sys2Proof.Machine.execWireDigit4 e d s
  | .wireDigit5 e d => Sys2Proof.Machine.execWireDigit5 e d s
  | .wireDigit6 e d => Sys2Proof.Machine.execWireDigit6 e d s
  | .wireDigit7 e d => Sys2Proof.Machine.execWireDigit7 e d s
  | .wireDecodemode e d => Sys2Proof.Machine.execWireDecodemode e d s
  | .wireIntensityReg e d => Sys2Proof.Machine.execWireIntensityReg e d s
  | .wireScanlimitReg e d => Sys2Proof.Machine.execWireScanlimitReg e d s
  | .wireShutdownReg e d => Sys2Proof.Machine.execWireShutdownReg e d s
  | .wireDisplaytest e d => Sys2Proof.Machine.execWireDisplaytest e d s

end Sys2Proof.Machine
end

