-- ==== Sys2Proof/WellFormed.lean ====
section
/-! DEFINITION. Which instructions are well formed. The spec calls every operand value of a host command legal
(R96: an out-of-range operand is no illegal encoding), so these checks concern the other rows. -/

namespace Sys2Proof

/-- A wire word stands in one of at most 8 places of a frame (R8, R55). -/
def wireDeviceOk (e : Nat) : Bool := decide (e < 8)

/-- CODE 0x0, the first row of illegal codes (R96). -/
def codeIsZero (w : CommandWord) : Bool := w.w0.extractLsb' 0 4 == 0x0#4

/-- CODE 0xC to 0xF, the second row of illegal codes (R96). -/
def codeIsHigh (w : CommandWord) : Bool := w.w0.extractLsb' 2 2 == 0x3#2

/-- The caller's guarantee on XFER, as far as syntax shows it: a device index of at most 8 devices and a
register address in a byte whose high nibble is 0 (R63, R123). -/
def xferOperandsOk (a : Word) (op : Byte) : Bool :=
  decide (a.toNat < 8) && op.extractLsb' 4 4 == 0x0#4

/-- Well-formedness of an instruction as syntax. -/
def WellFormed : Instr → Bool
  | .init _ => true
  | .getcount => true
  | .shutdown _ _ => true
  | .scanlimit _ _ => true
  | .intensity _ _ => true
  | .clear _ => true
  | .setled _ _ _ _ => true
  | .setrow _ _ _ => true
  | .setcol _ _ _ => true
  | .setdigit _ _ _ _ => true
  | .setchar _ _ _ _ => true
  | .illegalZero w => codeIsZero w
  | .illegalHigh w => codeIsHigh w
  | .shiftout _ _ => true
  | .xfer a op _ => xferOperandsOk a op
  | .wireNoop e => wireDeviceOk e
  | .wireDigit0 e _ => wireDeviceOk e
  | .wireDigit1 e _ => wireDeviceOk e
  | .wireDigit2 e _ => wireDeviceOk e
  | .wireDigit3 e _ => wireDeviceOk e
  | .wireDigit4 e _ => wireDeviceOk e
  | .wireDigit5 e _ => wireDeviceOk e
  | .wireDigit6 e _ => wireDeviceOk e
  | .wireDigit7 e _ => wireDeviceOk e
  | .wireDecodemode e _ => wireDeviceOk e
  | .wireIntensityReg e _ => wireDeviceOk e
  | .wireScanlimitReg e _ => wireDeviceOk e
  | .wireShutdownReg e _ => wireDeviceOk e
  | .wireDisplaytest e _ => wireDeviceOk e

end Sys2Proof
end

