-- ==== Sys2Proof/Decode.lean ====
section
/-! DEFINITION. Decoding of command words (R90 to R96) and of wire words (R101, R102), total and refusing by
name; then the encoder, from the same tables. -/

namespace Sys2Proof

/-- Why four words, or a wire word, spell no instruction. -/
inductive Reject where
  /-- A reserved or unused field of a command word is not zero (R95, R96): the block raises
  `Fault(ReservedField)`. -/
  | reservedField
  /-- A 16-bit word that is none of R102's patterns: the block never sends it (R63). -/
  | notWireWord
deriving DecidableEq, Repr

/-- CODE, `W0[3:0]` (R91). -/
def codeField (w0 : Word) : BitVec 4 := w0.extractLsb' 0 4

/-- B, `W0[4]` (R91). -/
def boolField (w0 : Word) : Bool := w0.getLsbD 4

/-- The reserved field `W0[31:5]` (R91). -/
def reservedField0 (w0 : Word) : BitVec 27 := w0.extractLsb' 5 27

/-- Z as a u8, `W3[7:0]` (R92). -/
def byteField (w3 : Word) : Byte := w3.extractLsb' 0 8

/-- The reserved field `W3[31:8]` of a byte operand (R92). -/
def reservedField3 (w3 : Word) : BitVec 24 := w3.extractLsb' 8 24

/-- Formats that use B (R94). -/
def Format.usesB : Format → Bool
  | .fxb | .fxyzb | .fxyz8b => true
  | .f0 | .fx | .fxy | .fxyz8 => false

/-- Formats that use X (R94). -/
def Format.usesX : Format → Bool
  | .f0 => false
  | .fx | .fxb | .fxy | .fxyzb | .fxyz8 | .fxyz8b => true

/-- Formats that use Y (R94). -/
def Format.usesY : Format → Bool
  | .f0 | .fx | .fxb => false
  | .fxy | .fxyzb | .fxyz8 | .fxyz8b => true

/-- The part of W3 a format leaves reserved is zero (R94, R95). -/
def Format.zClear (f : Format) (w3 : Word) : Bool :=
  match f with
  | .f0 | .fx | .fxb | .fxy => w3 == 0#32
  | .fxyzb => true
  | .fxyz8 | .fxyz8b => reservedField3 w3 == 0#24

/-- Every reserved or unused field of the format is zero: the six checks of R95. -/
def reservedClear (f : Format) (w : CommandWord) : Bool :=
  reservedField0 w.w0 == 0#27
    && (f.usesB || !boolField w.w0)
    && (f.usesX || w.w1 == 0#32)
    && (f.usesY || w.w2 == 0#32)
    && f.zClear w.w3

/-- The instruction, if the reserved fields of its format are clear (R95). -/
def checked (f : Format) (w : CommandWord) (i : Instr) : Except Reject Instr :=
  if reservedClear f w then .ok i else .error .reservedField

/-- R95: the decoder of command words, total on any four words. An illegal CODE is found before any reserved
field is looked at (R216). -/
def decode (w : CommandWord) : Except Reject Instr :=
  match (codeField w.w0).toNat with
  | 0 => .ok (.illegalZero w)
  | 1 => checked .fx w (.init w.w1)
  | 2 => checked .f0 w .getcount
  | 3 => checked .fxb w (.shutdown w.w1 (boolField w.w0))
  | 4 => checked .fxy w (.scanlimit w.w1 w.w2)
  | 5 => checked .fxy w (.intensity w.w1 w.w2)
  | 6 => checked .fx w (.clear w.w1)
  | 7 => checked .fxyzb w (.setled w.w1 w.w2 w.w3 (boolField w.w0))
  | 8 => checked .fxyz8 w (.setrow w.w1 w.w2 (byteField w.w3))
  | 9 => checked .fxyz8 w (.setcol w.w1 w.w2 (byteField w.w3))
  | 10 => checked .fxyz8b w (.setdigit w.w1 w.w2 (byteField w.w3) (boolField w.w0))
  | 11 => checked .fxyz8b w (.setchar w.w1 w.w2 (byteField w.w3) (boolField w.w0))
  | _ => .ok (.illegalHigh w)

/-- R102: the wire word at place `e` of a frame, as the register write it is to device `e`. The patterns are
those of the default OPCODES. -/
def decodeWire (e : Nat) (w : Half) : Except Reject Instr :=
  let d : Byte := w.extractLsb' 0 8
  match (w.extractLsb' 8 8).toNat with
  | 0 => if d = 0#8 then .ok (.wireNoop e) else .error .notWireWord
  | 1 => .ok (.wireDigit0 e d)
  | 2 => .ok (.wireDigit1 e d)
  | 3 => .ok (.wireDigit2 e d)
  | 4 => .ok (.wireDigit3 e d)
  | 5 => .ok (.wireDigit4 e d)
  | 6 => .ok (.wireDigit5 e d)
  | 7 => .ok (.wireDigit6 e d)
  | 8 => .ok (.wireDigit7 e d)
  | 9 => .ok (.wireDecodemode e d)
  | 10 => .ok (.wireIntensityReg e d)
  | 11 => .ok (.wireScanlimitReg e d)
  | 12 => .ok (.wireShutdownReg e d)
  | 15 => .ok (.wireDisplaytest e d)
  | _ => .error .notWireWord

/-- What an instruction is written as: a command word, or a wire word at a place of a frame. -/
inductive Code where
  | command (w : CommandWord)
  | wire (e : Nat) (w : Half)
deriving DecidableEq, Repr

/-- Either decoder. -/
def decodeCode : Code → Except Reject Instr
  | .command w => decode w
  | .wire e w => decodeWire e w

/-- W0 of a command: CODE in bits 3..0, B in bit 4, zero above (R91). -/
def commandW0 (code : BitVec 4) (b : Bool) : Word := (0#27 ++ BitVec.ofBool b) ++ code

/-- A byte operand in W3: bits 7..0, zero above (R92). -/
def byteWord (v : Byte) : Word := 0#24 ++ v

/-- A wire word: register address byte, data byte (R101). -/
def wireWord (adr d : Byte) : Half := adr ++ d

/-- R93, R102: how an instruction is written. The micro-operations have no encoding (R121, R123). -/
def encode : Instr → Option Code
  | .init n => some (.command ⟨commandW0 0x1 false, n, 0, 0⟩)
  | .getcount => some (.command ⟨commandW0 0x2 false, 0, 0, 0⟩)
  | .shutdown a enable => some (.command ⟨commandW0 0x3 enable, a, 0, 0⟩)
  | .scanlimit a limit => some (.command ⟨commandW0 0x4 false, a, limit, 0⟩)
  | .intensity a level => some (.command ⟨commandW0 0x5 false, a, level, 0⟩)
  | .clear a => some (.command ⟨commandW0 0x6 false, a, 0, 0⟩)
  | .setled a r c on => some (.command ⟨commandW0 0x7 on, a, r, c⟩)
  | .setrow a r v => some (.command ⟨commandW0 0x8 false, a, r, byteWord v⟩)
  | .setcol a c v => some (.command ⟨commandW0 0x9 false, a, c, byteWord v⟩)
  | .setdigit a dg v dp => some (.command ⟨commandW0 0xA dp, a, dg, byteWord v⟩)
  | .setchar a dg ch dp => some (.command ⟨commandW0 0xB dp, a, dg, byteWord ch⟩)
  | .illegalZero w => some (.command w)
  | .illegalHigh w => some (.command w)
  | .shiftout _ _ => none
  | .xfer _ _ _ => none
  | .wireNoop e => some (.wire e (wireWord 0x00 0x00))
  | .wireDigit0 e d => some (.wire e (wireWord 0x01 d))
  | .wireDigit1 e d => some (.wire e (wireWord 0x02 d))
  | .wireDigit2 e d => some (.wire e (wireWord 0x03 d))
  | .wireDigit3 e d => some (.wire e (wireWord 0x04 d))
  | .wireDigit4 e d => some (.wire e (wireWord 0x05 d))
  | .wireDigit5 e d => some (.wire e (wireWord 0x06 d))
  | .wireDigit6 e d => some (.wire e (wireWord 0x07 d))
  | .wireDigit7 e d => some (.wire e (wireWord 0x08 d))
  | .wireDecodemode e d => some (.wire e (wireWord 0x09 d))
  | .wireIntensityReg e d => some (.wire e (wireWord 0x0A d))
  | .wireScanlimitReg e d => some (.wire e (wireWord 0x0B d))
  | .wireShutdownReg e d => some (.wire e (wireWord 0x0C d))
  | .wireDisplaytest e d => some (.wire e (wireWord 0x0F d))

/-- Four command words out of one number, W0 in its lowest 32 bits (the numbering of the opcode table). -/
def commandOfNat (w : Nat) : CommandWord :=
  ⟨BitVec.ofNat 32 w, BitVec.ofNat 32 (w >>> 32), BitVec.ofNat 32 (w >>> 64), BitVec.ofNat 32 (w >>> 96)⟩

/-- The instruction the decoder reads from a row's word: rows of 16 bits are wire words, here of device 0,
and every longer row is a command word whose operand words are the bits above 31. -/
def decodeTableWord (nbits w : Nat) : Option Instr :=
  match (if nbits ≤ 16 then decodeWire 0 (BitVec.ofNat 16 w) else decode (commandOfNat w)) with
  | .ok i => some i
  | .error _ => none

end Sys2Proof
end

