-- ==== Sys2Proof/Machine/Fetch.lean ====
section
/-! DEFINITION. Where the machine's next instruction stands: a command word at the head of the host's list
(R90), or a wire word in a chip's shift register at the CS rising edge that latches it (R74). -/

namespace Sys2Proof.Machine

/-- The command word the idle block takes next (R90), or none while the host has none to issue. -/
def pendingCommand (s : State) : Option CommandWord := s.host.head?

/-- The host has issued its next command. -/
def takeCommand (s : State) : State := { s with host := s.host.tail }

/-- A command word becomes the host's next one, and the sequencer is idle so that the block takes it. -/
def placeCommand (w : CommandWord) (s : State) : State := { s with seq := .idle, host := w :: s.host }

/-- The wire word is in device 0's shift register and NOOP in every other one. -/
def loadShiftRegisters (w : Half) : List Chip → List Chip
  | [] => []
  | c :: cs => { c with sr := w } :: cs.map (fun c' => { c' with sr := 0x0000#16 })

/-- The point of an XFER where only the CS rising edge is left (R129, CS_RISE): the words stand in the shift
registers, CS is low, and the sequencer's one remaining action is PinWrite(CS, high). The next step latches
the word. -/
def placeWire (w : Half) (s : State) : State :=
  { s with
    chain := loadShiftRegisters w s.chain
    pin := { s.pin with cs := .low }
    seq := .busy [.pin .cs .high] }

end Sys2Proof.Machine
end

