-- ==== Sys2Proof/Machine/Step.lean ====
section
/-! DEFINITION. One step of the machine (R28, R216). -/

namespace Sys2Proof.Machine

/-- A faulted block has no step (R215). A busy sequencer does the head of what is left (R28). An idle block
takes the host's next command: it decodes it and runs it, or takes the decoder's fault (R95, R216). With no
command to take it stays as it is (R221, R240). -/
def step (s : State) : Host.Outcome State Fault Refusal :=
  match s.fault with
  | some r => .fault (.halted r)
  | none =>
    match s.seq with
    | .busy rest => .next (resume rest s)
    | .idle =>
      match pendingCommand s with
      | none => .next s
      | some w =>
        match decode w with
        | .ok i => exec i (takeCommand s)
        | .error _ => takeReserved (takeCommand s)

/-- `s` with the row's instruction where step fetches it next: a 16-bit row is a wire word about to be
latched by device 0, a longer one the host's next command word, with operand words of zeros above `nbits`
(log 12). -/
def State.withFetchWord (s : State) (nbits w : Nat) : State :=
  if nbits ≤ 16 then placeWire (BitVec.ofNat 16 w) s else placeCommand (commandOfNat w) s

end Sys2Proof.Machine
end

