-- ==== Sys2Proof/Machine/Assembler.lean ====
section
/-! DEFINITION. The textual form of R98: a mnemonic and its operands, already read as integers (a quoted
character stands as its code). It names the eleven commands; illegal words, micro-operations and wire words have
no text (log 23). -/

namespace Sys2Proof.Machine

/-- One line of R98. -/
structure AsmLine where
  mnemonic : String
  operands : List Int
deriving DecidableEq, Repr

/-- An integer operand is "written to [its] word as i32" (R98): decimal values are signed, hexadecimal ones may
use all 32 bits. -/
def asmWord (v : Int) : Option Word :=
  if -2147483648 ≤ v ∧ v < 4294967296 then some (BitVec.ofInt 32 v) else none

/-- "byte operands are 0..255" (R98). -/
def asmByte (v : Int) : Option Byte := if 0 ≤ v ∧ v ≤ 255 then some (BitVec.ofInt 8 v) else none

/-- "booleans are 0 or 1" (R98). -/
def asmBool (v : Int) : Option Bool := if v = 0 then some false else if v = 1 then some true else none

/-- The instruction a line stands for (R98), or none where the line is not of that form. -/
def assemble (l : AsmLine) : Option Instr :=
  match l.operands with
  | [] => if l.mnemonic = "GETCOUNT" then some .getcount else none
  | [x] =>
    (asmWord x).bind fun x' =>
      if l.mnemonic = "INIT" then some (.init x')
      else if l.mnemonic = "CLEAR" then some (.clear x')
      else none
  | [x, y] =>
    (asmWord x).bind fun x' =>
      if l.mnemonic = "SHUTDOWN" then (asmBool y).map (.shutdown x')
      else if l.mnemonic = "SCANLIMIT" then (asmWord y).map (.scanlimit x')
      else if l.mnemonic = "INTENSITY" then (asmWord y).map (.intensity x')
      else none
  | [x, y, z] =>
    (asmWord x).bind fun x' => (asmWord y).bind fun y' =>
      if l.mnemonic = "SETROW" then (asmByte z).map (.setrow x' y')
      else if l.mnemonic = "SETCOL" then (asmByte z).map (.setcol x' y')
      else none
  | [x, y, z, b] =>
    (asmWord x).bind fun x' => (asmWord y).bind fun y' => (asmBool b).bind fun b' =>
      if l.mnemonic = "SETLED" then (asmWord z).map (fun z' => .setled x' y' z' b')
      else if l.mnemonic = "SETDIGIT" then (asmByte z).map (fun z' => .setdigit x' y' z' b')
      else if l.mnemonic = "SETCHAR" then (asmByte z).map (fun z' => .setchar x' y' z' b')
      else none
  | _ => none

/-- A line as its four words (R98, R100). -/
def assembleWords (l : AsmLine) : Option CommandWord :=
  match (assemble l).bind encode with
  | some (.command w) => some w
  | some (.wire _ _) => none
  | none => none

end Sys2Proof.Machine
end

