-- ==== Sys2Proof/Safety.lean ====
section
/-! DEFINITION. The terms claims are stated in: when a command can run, what the block sends (written from R54 to
R56 and R126, not from the action lists), what a clean link is, and the invariants. -/

namespace Sys2Proof.Machine

/-! ### When a command can run -/

/-- The block takes commands: PINS has a meaning (R32), no fault (R215), no command running (R29). -/
abbrev Live (s : State) : Prop := pinsDistinct s.cfg.pins = true ∧ s.fault = none ∧ s.seq = .idle

/-- An initialised block in the normative big-step view of R28. -/
abbrev Ready (s : State) : Prop := Live s ∧ s.inited = true ∧ s.view = .bigStep

/-- A block that waits for its INIT, in the big-step view. -/
abbrev Fresh (s : State) : Prop := Live s ∧ s.inited = false ∧ s.view = .bigStep

/-- The eleven host commands (R2, R93). -/
def isCommand : Instr → Bool
  | .init _ | .getcount | .shutdown _ _ | .scanlimit _ _ | .intensity _ _ | .clear _ | .setled _ _ _ _
  | .setrow _ _ _ | .setcol _ _ _ | .setdigit _ _ _ _ | .setchar _ _ _ _ => true
  | .illegalZero _ | .illegalHigh _ | .shiftout _ _ | .xfer _ _ _ | .wireNoop _ | .wireDigit0 _ _
  | .wireDigit1 _ _ | .wireDigit2 _ _ | .wireDigit3 _ _ | .wireDigit4 _ _ | .wireDigit5 _ _
  | .wireDigit6 _ _ | .wireDigit7 _ _ | .wireDecodemode _ _ | .wireIntensityReg _ _
  | .wireScanlimitReg _ _ | .wireShutdownReg _ _ | .wireDisplaytest _ _ => false

/-- INIT itself. -/
def isInit : Instr → Bool
  | .init _ => true
  | .getcount | .shutdown _ _ | .scanlimit _ _ | .intensity _ _ | .clear _ | .setled _ _ _ _
  | .setrow _ _ _ | .setcol _ _ _ | .setdigit _ _ _ _ | .setchar _ _ _ _ | .illegalZero _
  | .illegalHigh _ | .shiftout _ _ | .xfer _ _ _ | .wireNoop _ | .wireDigit0 _ _
  | .wireDigit1 _ _ | .wireDigit2 _ _ | .wireDigit3 _ _ | .wireDigit4 _ _ | .wireDigit5 _ _
  | .wireDigit6 _ _ | .wireDigit7 _ _ | .wireDecodemode _ _ | .wireIntensityReg _ _
  | .wireScanlimitReg _ _ | .wireShutdownReg _ _ | .wireDisplaytest _ _ => false

/-- The rows a chip executes (R102), as device, register address and data; none for the block's own rows. A
NOOP has address 0x0. -/
def wireTarget : Instr → Option (Nat × Nat × Byte)
  | .wireNoop e => some (e, 0x0, 0x00)
  | .wireDigit0 e d => some (e, 0x1, d)
  | .wireDigit1 e d => some (e, 0x2, d)
  | .wireDigit2 e d => some (e, 0x3, d)
  | .wireDigit3 e d => some (e, 0x4, d)
  | .wireDigit4 e d => some (e, 0x5, d)
  | .wireDigit5 e d => some (e, 0x6, d)
  | .wireDigit6 e d => some (e, 0x7, d)
  | .wireDigit7 e d => some (e, 0x8, d)
  | .wireDecodemode e d => some (e, 0x9, d)
  | .wireIntensityReg e d => some (e, 0xA, d)
  | .wireScanlimitReg e d => some (e, 0xB, d)
  | .wireShutdownReg e d => some (e, 0xC, d)
  | .wireDisplaytest e d => some (e, 0xF, d)
  | .init _ | .getcount | .shutdown _ _ | .scanlimit _ _ | .intensity _ _ | .clear _ | .setled _ _ _ _
  | .setrow _ _ _ | .setcol _ _ _ | .setdigit _ _ _ _ | .setchar _ _ _ _ | .illegalZero _
  | .illegalHigh _ | .shiftout _ _ | .xfer _ _ _ => none

/-! ### What the block sends -/

/-- The trace in the order it was emitted (R36). -/
def State.trace (s : State) : List Event := s.emitted.reverse

/-- One bit on the link: DIN, then CLK high, then CLK low (R54). -/
def bitEvents (b : Bool) : List Event :=
  [.pinWrite .din (if b then .high else .low), .pinWrite .clk .high, .pinWrite .clk .low]

/-- A byte, bit 7 first (R54). -/
def byteEvents (v : Byte) : List Event := [7, 6, 5, 4, 3, 2, 1, 0].flatMap (fun i => bitEvents (v.getLsbD i))

/-- What device e is sent in the frame of XFER(a, op, d): its opcode byte, then its data byte, both 0x00 unless
e is the addressed device (R56, R126). -/
def deviceEvents (a : Nat) (op d : Byte) (e : Nat) : List Event :=
  if e = a then byteEvents op ++ byteEvents d else byteEvents 0x00 ++ byteEvents 0x00

/-- The whole of XFER(a, op, d) on a chain of length n: CS low, devices n-1 down to 0, CS high (R125, R126). -/
def xferEvents (n a : Nat) (op d : Byte) : List Event :=
  .pinWrite .cs .low :: ((List.range n).reverse.flatMap (deviceEvents a op d) ++ [.pinWrite .cs .high])

/-- `E(N) = 2 + 48N` (R262). -/
def xferLength (n : Nat) : Nat := 2 + 48 * n

/-! ### The link and the chips -/

/-- "the link is clean" (R76). -/
abbrev CleanLink (s : State) : Prop := s.pin.clk = .low ∧ s.pin.cs = .high

/-- The boot precondition of R252: the platform left CLK low and CS high, and the block has driven no line. -/
abbrev BootReady (s : State) : Prop :=
  s.line.clk = .low ∧ s.line.cs = .high ∧ s.pin = ⟨.unknown, .unknown, .unknown⟩

/-- `W(e)` of the frame of XFER(a, op, d) (R56). -/
def frameWord (a : Nat) (op d : Byte) (e : Nat) : Half := if e = a then op ++ d else 0#16

/-- The chain register `C = sr[NPHYS-1] ++ ... ++ sr[0]` of R73 as a number. -/
def chainValue : List Chip → Nat
  | [] => 0
  | c :: cs => c.sr.toNat + 65536 * chainValue cs

/-- What device d's register at an address holds, none where unknown or where there is no such device. -/
def devReg (s : State) (d adr : Nat) : Option Byte := s.chain[d]?.bind (fun c => c.reg.read adr)

/-! ### Shapes of statements -/

/-- `valid_addr` as R140 writes it. -/
abbrev AddrOk (n : Fin 9) (a : Word) : Prop := 0 ≤ a.toInt ∧ a.toInt < (n.val : Int)

/-- `valid_idx` as R140 writes it. -/
abbrev IdxOk (i : Word) : Prop := 0 ≤ i.toInt ∧ i.toInt ≤ 7

/-- A command's only exception (R212): before INIT it takes Uninitialised and changes nothing else. -/
abbrev NeedsInit (i : Instr) : Prop :=
  ∀ s, Live s → s.inited = false → exec i s = .next { s with fault := some .uninitialised, seq := .idle }

/-- Some field the format of the word's CODE leaves reserved or unused is not zero (R93, R94, R95), for a CODE
that spells a command. -/
abbrev HasReservedBits (w : CommandWord) : Prop :=
  let code := (w.w0.extractLsb' 0 4).toNat
  1 ≤ code ∧ code ≤ 11 ∧
    (w.w0.extractLsb' 5 27 ≠ 0#27
      ∨ (w.w0.getLsbD 4 = true ∧ code ∉ [0x3, 0x7, 0xA, 0xB])
      ∨ (w.w1 ≠ 0#32 ∧ code = 0x2)
      ∨ (w.w2 ≠ 0#32 ∧ code ∈ [0x1, 0x2, 0x3, 0x6])
      ∨ (w.w3 ≠ 0#32 ∧ code ∈ [0x1, 0x2, 0x3, 0x4, 0x5, 0x6])
      ∨ (w.w3.extractLsb' 8 24 ≠ 0#24 ∧ code ∈ [0x8, 0x9, 0xA, 0xB]))

/-- A CODE that spells no command (R96). -/
abbrev HasIllegalCode (w : CommandWord) : Prop :=
  (w.w0.extractLsb' 0 4).toNat = 0x0 ∨ 0xC ≤ (w.w0.extractLsb' 0 4).toNat

/-- A pattern with its decimal point (R190). -/
def pointed (p : Byte) (dp : Bool) : Byte := if dp then p ||| 0x80#8 else p

/-- SETLED's new row value (R175, R176), column c as `0x80 >> c`. -/
def ledRow (v : Byte) (c : Word) (on : Bool) : Byte :=
  if on then v ||| (0x80#8 >>> c.toNat) else v &&& ~~~(0x80#8 >>> c.toNat)

/-- The registers DIGIT0 to DIGIT7 lie in the 4-bit address space of R8, so that `OPCODES.DIGIT0 + r` needs no
rule for a carry (log 18). The default OPCODES have it. -/
abbrev DigitsFit (s : State) : Prop := s.cfg.opcodes.digit0.toNat ≤ 8

/-- The opcode bytes of the rows are `OPCODES.DIGIT0 + r` (R170) wherever those registers exist. Above that the
byte is the model's choice (log 18) and nothing is said of it. -/
abbrev RowOpcodes (s : State) (ops : Nat → Byte) : Prop :=
  DigitsFit s → ∀ r, r < 8 → ops r = BitVec.ofNat 8 (s.cfg.opcodes.digit0.toNat + r)

/-- INIT's events for one device (R141): DISPLAYTEST, SCANLIMIT, DECODEMODE, the eight rows with their opcode
bytes, SHUTDOWN. -/
def initEvents (o : Opcodes) (rowOps : Nat → Byte) (n a : Nat) : List Event :=
  xferEvents n a (o.displayTest.setWidth 8) 0x00 ++ xferEvents n a (o.scanLimit.setWidth 8) 0x07
    ++ xferEvents n a (o.decodeMode.setWidth 8) 0x00
    ++ (List.range 8).flatMap (fun r => xferEvents n a (rowOps r) 0x00)
    ++ xferEvents n a (o.shutdown.setWidth 8) 0x00

/-- Nothing changed but frame, lines, trace and chips: what a register write may touch (R39, R120). -/
abbrev OnlyLink (s t : State) : Prop :=
  t = { s with frame := t.frame, pin := t.pin, emitted := t.emitted, chain := t.chain }

/-- Nothing changed but shadow, frame, lines, trace and chips: what a display command may touch (R39, R170). -/
abbrev OnlyLinkAndShadow (s t : State) : Prop :=
  t = { s with shadow := t.shadow, frame := t.frame, pin := t.pin, emitted := t.emitted, chain := t.chain }

/-- The events emitted in between (R36). -/
abbrev Emits (s t : State) (ev : List Event) : Prop := t.trace = s.trace ++ ev

/-- "Slots 2N..15 are not written" (R124). -/
abbrev FrameKept (s t : State) : Prop := ∀ k, 2 * s.n.val ≤ k → t.frame.read k = s.frame.read k

/-- Device a's register at an address takes a byte, and every other register of every device keeps its own
(R77). Address 0x0 is NOOP and writes nothing (R74). -/
abbrev RegWritten (s t : State) (a adr : Nat) (v : Byte) : Prop :=
  ∀ e k, devReg t e k = if e = a ∧ k = adr ∧ adr ≠ 0 then some v else devReg s e k

/-- The premises of a claim about the chips, next to the block's own (R253): the link is clean and NPHYS = N. -/
abbrev ChipsListen (s : State) : Prop := CleanLink s ∧ s.chain.length = s.n.val

/-- One register write to device a and nothing else (R39, R77, R125). -/
abbrev RegisterSent (s t : State) (a : Nat) (adr : BitVec 4) (v : Byte) : Prop :=
  OnlyLink s t ∧ Emits s t (xferEvents s.n.val a (adr.setWidth 8) v) ∧ CleanLink t ∧ FrameKept s t ∧
    (ChipsListen s → RegWritten s t a adr.toNat v)

/-- No device but a has a changed register (R77). -/
abbrev OthersKept (s t : State) (a : Nat) : Prop := ∀ e k, e ≠ a → devReg t e k = devReg s e k

/-- Row r of device a takes a byte in the shadow and is transmitted; no other slot changes (R170). The clauses
that name the opcode byte or the register DIGIT0 + r, and they alone, assume DigitsFit (log 18). -/
abbrev RowSent (s t : State) (a r : Nat) (v : Byte) : Prop :=
  OnlyLinkAndShadow s t ∧ t.shadow.read (8 * a + r) = some v ∧
    (∀ k, k ≠ 8 * a + r → t.shadow.read k = s.shadow.read k) ∧
    (∃ ops, RowOpcodes s ops ∧ Emits s t (xferEvents s.n.val a (ops r) v)) ∧ CleanLink t ∧ FrameKept s t ∧
    (ChipsListen s → OthersKept s t a ∧ (DigitsFit s → RegWritten s t a (s.cfg.opcodes.digit0.toNat + r) v))

/-- All eight rows of device a take their bytes in the shadow and are transmitted in order, rows 0 to 7; no
other slot changes, and on a listening chain registers DIGIT0 to DIGIT0 + 7 take the bytes and no other register
does, but for address 0x0 (R170, R171, R185). The clauses that name the opcode bytes or the registers, and they
alone, assume DigitsFit (log 18). -/
abbrev RowsSent (s t : State) (a : Nat) (rows : Nat → Byte) : Prop :=
  OnlyLinkAndShadow s t ∧ (∀ r, r < 8 → t.shadow.read (8 * a + r) = some (rows r)) ∧
    (∀ k, (k < 8 * a ∨ 8 * a + 8 ≤ k) → t.shadow.read k = s.shadow.read k) ∧
    (∃ ops, RowOpcodes s ops ∧
      Emits s t ((List.range 8).flatMap (fun r => xferEvents s.n.val a (ops r) (rows r)))) ∧
    CleanLink t ∧ FrameKept s t ∧
    (ChipsListen s → OthersKept s t a ∧
      let d := s.cfg.opcodes.digit0.toNat
      (DigitsFit s → ∀ e k, devReg t e k =
        if e = a ∧ d ≤ k ∧ k < d + 8 ∧ k ≠ 0 then some (rows (k - d)) else devReg s e k))

/-- Instructions one after the other (R64). -/
def execAll : List Instr → State → Host.Outcome State Fault Refusal
  | [], s => .next s
  | i :: rest, s =>
    match exec i s with
    | .next t => execAll rest t
    | .fault r => .fault r
    | .refused r => .refused r

/-- The events of each command by the table of R262, 0 for a no-op or a fault. -/
def eventCount (s : State) : Instr → Nat
  | .init n =>
    if s.inited then 0
    else if n.toInt ≤ 0 ∨ 8 < n.toInt then 1 + 12 * 8 * xferLength 8
    else 1 + 12 * n.toNat * xferLength n.toNat
  | .getcount => 1
  | .shutdown a _ => if AddrOk s.n a then xferLength s.n.val else 0
  | .scanlimit a l =>
    if AddrOk s.n a ∧ (s.cfg.guardMode = .source ∨ 0 ≤ l.toInt ∧ l.toInt ≤ 7) then xferLength s.n.val else 0
  | .intensity a l =>
    if AddrOk s.n a ∧ (s.cfg.guardMode = .source ∨ 0 ≤ l.toInt ∧ l.toInt ≤ 15) then xferLength s.n.val else 0
  | .clear a => if AddrOk s.n a then 8 * xferLength s.n.val else 0
  | .setled a r c _ => if AddrOk s.n a ∧ IdxOk r ∧ IdxOk c then xferLength s.n.val else 0
  | .setrow a r _ => if AddrOk s.n a ∧ IdxOk r then xferLength s.n.val else 0
  | .setcol a c _ => if AddrOk s.n a ∧ IdxOk c then 8 * xferLength s.n.val else 0
  | .setdigit a dg v _ => if AddrOk s.n a ∧ IdxOk dg ∧ v.toNat ≤ 15 then xferLength s.n.val else 0
  | .setchar a dg _ _ => if AddrOk s.n a ∧ IdxOk dg then xferLength s.n.val else 0
  | .illegalZero _ | .illegalHigh _ | .shiftout _ _ | .xfer _ _ _ | .wireNoop _ | .wireDigit0 _ _
  | .wireDigit1 _ _ | .wireDigit2 _ _ | .wireDigit3 _ _ | .wireDigit4 _ _ | .wireDigit5 _ _
  | .wireDigit6 _ _ | .wireDigit7 _ _ | .wireDecodemode _ _ | .wireIntensityReg _ _
  | .wireScanlimitReg _ _ | .wireShutdownReg _ _ | .wireDisplaytest _ _ => 0

/-! ### The small-step view (R28) -/

/-- An instruction issued in the small-step view, and k small steps after it. -/
def smallSteps (i : Instr) (k : Nat) (s : State) : Host.Outcome State Fault Refusal :=
  match exec i { s with view := .smallStep } with
  | .next u => Sys2Proof.core.run k u
  | .fault r => .fault r
  | .refused r => .refused r

/-- The events emitted since an earlier state (R36). -/
def State.since (t s : State) : List Event := t.trace.drop s.trace.length

/-- Events put on the lines one after the other: what they leave there, and in the chips (R13, R72 to R74). -/
def replay : List Event → State → State
  | [], s => s
  | .pinWrite p l :: evs, s => replay evs (pinWrite p l s)
  | .respond v :: evs, s => replay evs (respond v s)

/-! ### Invariants -/

/-- Every writable space is in its canonical form and inside its bounds (R50): SH below 64, FB below 16, a
chip's registers at 0x1 to 0xF (R71). -/
def Memory.inside (lo hi : Nat) (m : Memory) : Bool := m.all (fun c => decide (lo ≤ c.1) && decide (c.1 < hi))

abbrev Canonical (s : State) : Prop :=
  (s.shadow.wf = true ∧ s.shadow.inside 0 64 = true) ∧ (s.frame.wf = true ∧ s.frame.inside 0 16 = true) ∧
    ∀ c ∈ s.chain, c.reg.wf = true ∧ c.reg.inside 1 16 = true

/-- All 64 shadow slots hold a value, and those of absent devices hold 0x00 (R23, R24). -/
abbrev ShadowReady (s : State) : Prop :=
  ∀ k : Fin 64, (s.shadow.read k.val).isSome = true ∧ (8 * s.n.val ≤ k.val → s.shadow.read k.val = some 0x00)

/-- Between two commands (R38): before INIT nothing is written, driven or emitted; after it N is in 1..8, the
shadow is ready and the link is clean. -/
abbrev Between (s : State) : Prop :=
  s.seq = .idle ∧
    (s.inited = false → s.n = 0 ∧ s.shadow = [] ∧ s.pin = ⟨.unknown, .unknown, .unknown⟩ ∧ s.emitted = []) ∧
    (s.inited = true → 1 ≤ s.n.val ∧ ShadowReady s ∧ CleanLink s)

/-- The shadow mirrors the chips' row registers (R35), for a chain of the configured length (R253) and the
default register addresses. -/
abbrev Mirrors (s : State) : Prop :=
  s.cfg.opcodes = Opcodes.standard ∧ s.chain.length = s.n.val ∧ CleanLink s ∧
    ∀ a : Fin 8, ∀ r : Fin 8, a.val < s.n.val →
      (s.shadow.read (8 * a.val + r.val)).isSome = true ∧
        devReg s a.val (r.val + 1) = s.shadow.read (8 * a.val + r.val)

end Sys2Proof.Machine
end

