-- ==== Sys2Proof/Certificates/Slice0/Obligations.lean ====
section
/-! DEFINITION. The statements for the provers, from the numbered rules of spec/. -/

open Sys2Proof Sys2Proof.Machine

/-- Each of the thirteen example lines of R100 assembles to the four words the table gives it, and those words
decode to that command. (stated: R100) -/
def Obligations.ExampleWordsDecodeToTheirCommands : Prop :=
  ∀ p ∈ ([(⟨"INIT", [4]⟩, ⟨0x00000001, 0x00000004, 0, 0⟩, .init 4),
    (⟨"INIT", [0]⟩, ⟨0x00000001, 0, 0, 0⟩, .init 0),
    (⟨"GETCOUNT", []⟩, ⟨0x00000002, 0, 0, 0⟩, .getcount),
    (⟨"SHUTDOWN", [1, 0]⟩, ⟨0x00000003, 0x00000001, 0, 0⟩, .shutdown 1 false),
    (⟨"SHUTDOWN", [1, 1]⟩, ⟨0x00000013, 0x00000001, 0, 0⟩, .shutdown 1 true),
    (⟨"SCANLIMIT", [0, 7]⟩, ⟨0x00000004, 0, 0x00000007, 0⟩, .scanlimit 0 7),
    (⟨"INTENSITY", [2, 5]⟩, ⟨0x00000005, 0x00000002, 0x00000005, 0⟩, .intensity 2 5),
    (⟨"CLEAR", [3]⟩, ⟨0x00000006, 0x00000003, 0, 0⟩, .clear 3),
    (⟨"SETLED", [-1, 0, 0, 1]⟩, ⟨0x00000017, 0xFFFFFFFF, 0, 0⟩, .setled 0xFFFFFFFF 0 0 true),
    (⟨"SETROW", [0, 7, 0xFF]⟩, ⟨0x00000008, 0, 0x00000007, 0x000000FF⟩, .setrow 0 7 0xFF),
    (⟨"SETCOL", [0, 0, 0x81]⟩, ⟨0x00000009, 0, 0, 0x00000081⟩, .setcol 0 0 0x81),
    (⟨"SETDIGIT", [1, 0, 5, 1]⟩, ⟨0x0000001A, 0x00000001, 0, 0x00000005⟩, .setdigit 1 0 5 true),
    (⟨"SETCHAR", [0, 7, 65, 0]⟩, ⟨0x0000000B, 0, 0x00000007, 0x00000041⟩, .setchar 0 7 0x41 false)] :
      List (AsmLine × CommandWord × Instr)),
    assembleWords p.1 = some p.2.1 ∧ decode p.2.1 = .ok p.2.2

/-- For every well-formed instruction, at every operand value: if it has an encoding (a command word or a wire
word at its place of the frame), decoding that encoding gives the instruction back. The only instructions
without an encoding are the micro-operations SHIFTOUT and XFER. (derived: 30_encoding.md R93, R94, R95,
30_encoding.md R102) -/
def Obligations.EncodeThenDecodeGivesTheInstruction : Prop :=
  ∀ i : Instr, WellFormed i = true →
    match encode i with
    | some code => decodeCode code = .ok i
    | none => (∃ m v, i = .shiftout m v) ∨ ∃ a op d, i = .xfer a op d

/-- Any four words the decoder accepts are the encoding of the instruction it answers, and that instruction is
well formed; any wire word the wire decoder accepts is the encoding of the instruction it answers. So no bit
of an accepted word is ignored, and no two words decode to one instruction. (derived: 30_encoding.md R93,
R94, R95, R96, 30_encoding.md R102) -/
def Obligations.DecodeThenEncodeGivesTheWords : Prop :=
  (∀ (w : CommandWord) (i : Instr), decode w = .ok i → encode i = some (.command w) ∧ WellFormed i = true) ∧
    ∀ (e : Nat) (w : Half) (i : Instr), decodeWire e w = .ok i → encode i = some (.wire e w)

/-- On any four words: an illegal CODE decodes to its illegal row whatever the other bits are; a CODE of a
command with a non-zero reserved or unused field is rejected as ReservedField; any other word decodes to the
command of its CODE with X = W1, Y = W2, Z = W3 (or W3[7:0]) and B = W0[4]. (derived: 30_encoding.md R91,
R92, R93, 30_encoding.md R95, R96) -/
def Obligations.DecoderFollowsTheCodeTable : Prop :=
  ∀ w : CommandWord,
    let code := (w.w0.extractLsb' 0 4).toNat
    let b := w.w0.getLsbD 4
    let z : Byte := w.w3.setWidth 8
    (code = 0x0 → decode w = .ok (.illegalZero w)) ∧ (0xC ≤ code → decode w = .ok (.illegalHigh w)) ∧
    (HasReservedBits w → decode w = .error .reservedField) ∧
    (¬ HasReservedBits w →
      (code = 0x1 → decode w = .ok (.init w.w1)) ∧ (code = 0x2 → decode w = .ok .getcount) ∧
      (code = 0x3 → decode w = .ok (.shutdown w.w1 b)) ∧
      (code = 0x4 → decode w = .ok (.scanlimit w.w1 w.w2)) ∧
      (code = 0x5 → decode w = .ok (.intensity w.w1 w.w2)) ∧
      (code = 0x6 → decode w = .ok (.clear w.w1)) ∧
      (code = 0x7 → decode w = .ok (.setled w.w1 w.w2 w.w3 b)) ∧
      (code = 0x8 → decode w = .ok (.setrow w.w1 w.w2 z)) ∧
      (code = 0x9 → decode w = .ok (.setcol w.w1 w.w2 z)) ∧
      (code = 0xA → decode w = .ok (.setdigit w.w1 w.w2 z b)) ∧
      (code = 0xB → decode w = .ok (.setchar w.w1 w.w2 z b)))

/-- In a block that is idle and not faulted, whose host's next command word decodes to i, step is exec of i on
the state with that word taken from the host's list, and nothing else. (derived: 60_exceptions.md R216,
10_state.md R28) -/
def Obligations.StepRunsTheDecodedInstruction : Prop :=
  ∀ (s : State) (w : CommandWord) (ws : List CommandWord) (i : Instr),
    s.fault = none → s.seq = .idle → s.host = w :: ws → decode w = .ok i →
      step s = exec i { s with host := ws }

/-- When only PinWrite(CS, high) is left of a command and CS was driven low, the step emits that event, leaves
the sequencer idle, and every device whose shift register decodes to a wire instruction ends exactly as that
instruction alone leaves it; each such instruction, run alone, changes no other device. That a wire word is
an instruction which exec runs by itself, here while the block is busy, is the model's choice (log 2, DESIGN
CHOICE). (derived: 20_memory.md R72, R74, 40_transport.md R129) -/
def Obligations.ChipSelectEdgeRunsTheWireWords : Prop :=
  ∀ s : State, s.fault = none → s.seq = .busy [.pin .cs .high] → s.pin.cs = .low →
    ∃ t, step s = .next t ∧
      t = { s with
        seq := .idle
        pin := { s.pin with cs := .high }
        emitted := .pinWrite .cs .high :: s.emitted
        chain := t.chain } ∧
      t.chain.length = s.chain.length ∧
      ∀ (e : Nat) (c : Chip) (i : Instr), s.chain[e]? = some c → decodeWire e c.sr = .ok i →
        ∃ u, exec i s = .next u ∧ u.chain[e]? = t.chain[e]? ∧ ∀ e', e' ≠ e → u.chain[e']? = s.chain[e']?

/-- A live block whose next command word has CODE 0x0 or 0xC to 0xF, whatever its other bits and whether or not
INIT has run, takes Fault(IllegalCommand): the next state differs from the old one in the fault and the word
taken, and nothing is emitted. The two illegal rows do the same when run by exec. (stated: R213) -/
def Obligations.IllegalCodesTakeIllegalCommand : Prop :=
  (∀ (s : State) (w : CommandWord) (ws : List CommandWord), Live s → s.host = w :: ws → HasIllegalCode w →
      step s = .next { s with host := ws, fault := some .illegalCommand, seq := .idle }) ∧
    ∀ (s : State) (w : CommandWord), Live s →
      exec (.illegalZero w) s = .next { s with fault := some .illegalCommand, seq := .idle } ∧
      exec (.illegalHigh w) s = .next { s with fault := some .illegalCommand, seq := .idle }

/-- A live block whose next command word spells a command and has a non-zero reserved or unused field, whether
or not INIT has run, takes Fault(ReservedField): the next state differs from the old one in the fault and
the word taken, and nothing is emitted. (stated: R214) -/
def Obligations.ReservedFieldsTakeReservedField : Prop :=
  ∀ (s : State) (w : CommandWord) (ws : List CommandWord), Live s → s.host = w :: ws → HasReservedBits w →
    step s = .next { s with host := ws, fault := some .reservedField, seq := .idle }

/-- In a live block that is not initialised, every command other than INIT, with any operands, takes
Fault(Uninitialised); in a live initialised block INIT takes Fault(Reinitialise). Nothing else changes and
nothing is emitted. (stated: R212) -/
def Obligations.InitialisationFaults : Prop :=
  (∀ i : Instr, isCommand i = true → isInit i = false → NeedsInit i) ∧
    ∀ (s : State) (n : Word), Live s → s.inited = true →
      exec (.init n) s = .next { s with fault := some .reinitialise, seq := .idle }

/-- A step that turns an unfaulted block into a faulted one changes nothing but the fault, the sequencer (idle)
and the command word taken: no shadow write and no event. A faulted block has no step, and none of its
instructions runs. (derived: 60_exceptions.md R215, 10_state.md R27) -/
def Obligations.FaultsArePreciseAndTerminal : Prop :=
  (∀ (s t : State) (r : FaultReason), s.fault = none → step s = .next t → t.fault = some r →
      s.seq = .idle ∧ t = { s with fault := some r, seq := .idle, host := s.host.tail }) ∧
    ∀ (s : State) (r : FaultReason), s.fault = some r →
      step s = .fault (.halted r) ∧
      ∀ i : Instr, pinsDistinct s.cfg.pins = true → wireTarget i = none → exec i s = .fault (.halted r)

/-- On an unfaulted block whose sequencer is busy, every command, illegal word and micro-operation is stuck
(fault busy): the host has no move. (derived: 10_state.md R29, 60_exceptions.md R231,
93_implementation_defined.md U19) -/
def Obligations.CommandsMeetingABusyBlockAreStuck : Prop :=
  ∀ (s : State) (rest : List Action) (i : Instr), pinsDistinct s.cfg.pins = true → s.fault = none →
    s.seq = .busy rest → wireTarget i = none → exec i s = .fault .busy

/-- On an initialised block a command whose device is outside [0, N), or whose row, column or digit is outside
[0, 7], or SETDIGIT with a value above 15, leaves the whole state as it was: no write, no event, no
response. (derived: 60_exceptions.md R210, 41_configuration.md R140) -/
def Obligations.OutOfRangeOperandsAreIgnored : Prop :=
  ∀ (s : State) (a x y : Word) (v : Byte) (b : Bool), Live s → s.inited = true →
    (¬ AddrOk s.n a →
      exec (.shutdown a b) s = .next s ∧ exec (.scanlimit a x) s = .next s ∧
      exec (.intensity a x) s = .next s ∧ exec (.clear a) s = .next s) ∧
    (¬ (AddrOk s.n a ∧ IdxOk x ∧ IdxOk y) → exec (.setled a x y b) s = .next s) ∧
    (¬ (AddrOk s.n a ∧ IdxOk x) →
      exec (.setrow a x v) s = .next s ∧ exec (.setcol a x v) s = .next s ∧
      exec (.setchar a x v b) s = .next s) ∧
    (¬ (AddrOk s.n a ∧ IdxOk x ∧ v.toNat ≤ 15) → exec (.setdigit a x v b) s = .next s)

/-- In every state whose configuration names the same line for two of DIN, CLK and CS, every command, illegal
word and micro-operation is refused by name. (derived: 10_state.md R32, 93_implementation_defined.md U11) -/
def Obligations.CoincidingPinsAreRefused : Prop :=
  ∀ (s : State) (i : Instr), wireTarget i = none →
    (s.cfg.pins.din = s.cfg.pins.clk ∨ s.cfg.pins.din = s.cfg.pins.cs ∨ s.cfg.pins.clk = s.cfg.pins.cs) →
    exec i s = .refused .pinsCoincide

/-- On an initialised block, for operands in range: SETLED of a row whose slot holds no value stops with the
fault unwritten (log 7), and so does SETCOL where any of the eight rows of the device holds none. No run
reaches such a state (invariant Between). (derived: 10_state.md R23, 92_eei_decisions.md D9) -/
def Obligations.UnwrittenRowsStopTheirReaders : Prop :=
  ∀ (s : State) (a c : Word) (v : Byte) (on : Bool), Live s → s.inited = true → AddrOk s.n a → IdxOk c →
    (∀ r : Word, IdxOk r → s.shadow.read (8 * a.toNat + r.toNat) = none →
      exec (.setled a r c on) s = .fault .unwritten) ∧
    ∀ k, k < 8 → s.shadow.read (8 * a.toNat + k) = none → exec (.setcol a c v) s = .fault .unwritten

/-- On a live block SHIFTOUT(msbFirst, v) completes: it emits, for j = 0 to 7 with bit 7 - j if msbFirst and bit
j if not, DIN at that bit's level, CLK high, CLK low (24 events); CLK ends low, DIN at the last bit's level,
CS as it was; nothing but lines, trace and chips changes. (stated: R121) -/
def Obligations.ShiftOutSendsEightBits : Prop :=
  ∀ (s : State) (m : Bool) (v : Byte), Live s → s.view = .bigStep →
    ∃ t, exec (.shiftout m v) s = .next t ∧ OnlyLink s t ∧ t.frame = s.frame ∧
      Emits s t ((List.range 8).flatMap (fun j => bitEvents (v.getLsbD (if m then 7 - j else j)))) ∧
      t.emitted.length = s.emitted.length + 24 ∧
      t.pin = ⟨if v.getLsbD (if m then 0 else 7) then .high else .low, .low, s.pin.cs⟩

/-- On a live block XFER to a device of the chain completes: frame bytes 0..2N-1 are 0 but for the data slot 2a
and the opcode slot 2a+1, bytes from 2N on are kept; the events are CS low, then for each device from N-1
down to 0 its opcode byte and its data byte (0x00, 0x00 for every device but a), then CS high: 2 + 48N
events of which 16N are PinWrite(CLK, high); the link ends clean; nothing else of the block changes.
(stated: R124, R126, R127) -/
def Obligations.XferBuildsTheFrameAndSendsItFarDeviceFirst : Prop :=
  ∀ (s : State) (a : Word) (op d : Byte), Live s → s.view = .bigStep → AddrOk s.n a →
    ∃ t, exec (.xfer a op d) s = .next t ∧ OnlyLink s t ∧
      (∀ k, k < 2 * s.n.val →
        t.frame.read k = some (if k = 2 * a.toNat then d else if k = 2 * a.toNat + 1 then op else 0x00)) ∧
      FrameKept s t ∧
      Emits s t (.pinWrite .cs .low ::
        ((List.range s.n.val).reverse.flatMap (fun e =>
          byteEvents (if e = a.toNat then op else 0x00) ++ byteEvents (if e = a.toNat then d else 0x00)) ++
          [.pinWrite .cs .high])) ∧
      t.emitted.length = s.emitted.length + (2 + 48 * s.n.val) ∧
      t.emitted.count (.pinWrite .clk .high) = s.emitted.count (.pinWrite .clk .high) + 16 * s.n.val ∧
      CleanLink t

/-- On a live block XFER with a device index outside [0, N), which no command issues, is refused by name.
(derived: 40_transport.md R123, 93_implementation_defined.md U17) -/
def Obligations.XferOutsideTheChainIsRefused : Prop :=
  ∀ (s : State) (a : Word) (op d : Byte), Live s → ¬ AddrOk s.n a →
    exec (.xfer a op d) s = .refused .xferAddress

/-- In a chain of length 4, XFER(2, 0x0A, 5) leaves frame[0..7] = 00 00 00 00 05 0A 00 00, sends the bytes 00 00
0A 05 00 00 00 00 between CS low and CS high, and takes 194 events. (stated: R128) -/
def Obligations.TransferExampleOfTheSource : Prop :=
  ∀ s : State, Live s → s.view = .bigStep → s.n = 4 →
    ∃ t, exec (.xfer 2 0x0A 0x05) s = .next t ∧
      (List.range 8).map t.frame.read = [0x00, 0x00, 0x00, 0x00, 0x05, 0x0A, 0x00, 0x00].map some ∧
      Emits s t (.pinWrite .cs .low ::
        (([0x00, 0x00, 0x0A, 0x05, 0x00, 0x00, 0x00, 0x00] : List Byte).flatMap byteEvents ++
          [.pinWrite .cs .high])) ∧
      t.emitted.length = s.emitted.length + 194

/-- PinWrite(CLK, high) over a CLK driven low, with CS driven low: the chain register C (device N-1's word
highest) becomes ((C << 1) | b) cut to 16 bits a device, b = 1 exactly when DIN was driven high; registers
and kinds stay. Over a CLK already high nothing moves. With CS high a chain of MAX7221 does not shift and a
chain of MAX7219 does. An undriven CLK is an edge exactly when the platform left it low (log 8). (derived:
20_memory.md R72, R73) -/
def Obligations.ClockEdgeShiftsOneLongRegister : Prop :=
  ∀ s : State,
    let t := pinWrite .clk .high s
    let shifted := (2 * chainValue s.chain + (if s.pin.din = .high then 1 else 0)) % 2 ^ (16 * s.chain.length)
    let edge := s.pin.clk = .low ∨ (s.pin.clk = .unknown ∧ s.line.clk = .low)
    t.chain.map (fun c => (c.kind, c.reg)) = s.chain.map (fun c => (c.kind, c.reg)) ∧
    (edge → s.pin.cs = .low → chainValue t.chain = shifted) ∧
    (edge → s.pin.cs = .high → (∀ c ∈ s.chain, c.kind = .max7219) → chainValue t.chain = shifted) ∧
    (edge → s.pin.cs = .high → (∀ c ∈ s.chain, c.kind = .max7221) → t.chain = s.chain) ∧
    (¬ edge → t.chain = s.chain)

/-- PinWrite(CS, high) over a CS driven low (or left low by the platform while undriven, log 8): in every device
the register at address sr[11:8] takes sr[7:0], unless that address is 0x0 (NOOP); all other registers and
all shift registers stay. Over a CS already high nothing changes. (derived: 20_memory.md R72, R74) -/
def Obligations.ChipSelectEdgeLatchesEveryDevice : Prop :=
  ∀ s : State,
    let t := pinWrite .cs .high s
    let edge := s.pin.cs = .low ∨ (s.pin.cs = .unknown ∧ s.line.cs = .low)
    t.chain.map (fun c => (c.kind, c.sr)) = s.chain.map (fun c => (c.kind, c.sr)) ∧
    (¬ edge → t.chain = s.chain) ∧
    (edge → ∀ (e k : Nat) (c : Chip), s.chain[e]? = some c →
      devReg t e k =
        if k = (c.sr.extractLsb' 8 4).toNat ∧ k ≠ 0 then some (c.sr.extractLsb' 0 8) else devReg s e k)

/-- XFER to a device of a chain with a clean link, for any number of chips: the shift registers then hold the
frame's words W(0), W(1), ..., W(N-1) and, behind them, the words that stood in devices 0, 1, ... before (a
longer chain takes stale words, a shorter one loses the last words); every device has latched the word it
holds. With as many chips as N, device a's register op[3:0] holds d unless op[3:0] = 0 and every other
register keeps its value. (derived: 20_memory.md R74, R77, R78, 40_transport.md R125) -/
def Obligations.XferLeavesEachDeviceItsWord : Prop :=
  ∀ (s : State) (a : Word) (op d : Byte), Live s → s.view = .bigStep → AddrOk s.n a → CleanLink s →
    ∃ t, exec (.xfer a op d) s = .next t ∧
      t.chain.map Chip.sr =
        ((List.range s.n.val).map (frameWord a.toNat op d) ++ s.chain.map Chip.sr).take s.chain.length ∧
      (∀ (e k : Nat) (c : Chip), t.chain[e]? = some c →
        devReg t e k =
          if k = (c.sr.extractLsb' 8 4).toNat ∧ k ≠ 0 then some (c.sr.extractLsb' 0 8) else devReg s e k) ∧
      (s.chain.length = s.n.val → RegWritten s t a.toNat (op.extractLsb' 0 4).toNat d)

/-- XFER with CLK driven high and CS driven high at its start, on a chain of N chips: every device's word is the
frame's but for bit 15 of device N-1, and the registers latched are the intended ones. (derived:
20_memory.md R79, 70_reset_and_hazards.md R255) -/
def Obligations.XferOnAHighClockLatchesTheIntendedWords : Prop :=
  ∀ (s : State) (a : Word) (op d : Byte), Live s → s.view = .bigStep → AddrOk s.n a → s.pin.clk = .high →
    s.pin.cs = .high → s.chain.length = s.n.val →
    ∃ t, exec (.xfer a op d) s = .next t ∧
      (∀ (e : Nat) (c : Chip), t.chain[e]? = some c →
        (e + 1 < s.n.val → c.sr = frameWord a.toNat op d e) ∧
        c.sr.extractLsb' 0 15 = (frameWord a.toNat op d e).extractLsb' 0 15) ∧
      RegWritten s t a.toNat (op.extractLsb' 0 4).toNat d

/-- For each of the fourteen wire words, in every state: it completes; if its device is on the chain, that
device's register at the word's address takes the data and every other register of every device keeps its
value (NOOP changes nothing at all); shift registers, kinds and the whole block stay as they were. A word
whose place has no chip changes nothing. That these words are instructions which complete in every state of
the block, faulted or busy too, and that one without a chip changes nothing, is the model's choice (log 2,
DESIGN CHOICE; R78 has such words fall off the end). (derived: 20_memory.md R61, R62, R74, 30_encoding.md
R102) -/
def Obligations.WireWordsWriteOneRegister : Prop :=
  ∀ (i : Instr) (e adr : Nat) (d : Byte) (s : State), wireTarget i = some (e, adr, d) →
    ∃ t, exec i s = .next t ∧ t = { s with chain := t.chain } ∧
      t.chain.map (fun c => (c.kind, c.sr)) = s.chain.map (fun c => (c.kind, c.sr)) ∧
      ∀ e' k, devReg t e' k =
        if e' = e ∧ k = adr ∧ adr ≠ 0 ∧ e < s.chain.length then some d else devReg s e' k

/-- On a live block that is not initialised INIT(n) sets N to 8 when n <= 0 or n > 8 and to n otherwise, n read
as a signed 32-bit integer. (stated: R142) -/
def Obligations.ClampKeepsOneToEight : Prop :=
  ∀ (s : State) (n : Word), Fresh s →
    ∃ t, exec (.init n) s = .next t ∧
      (t.n.val : Int) = if n.toInt ≤ 0 ∨ 8 < n.toInt then 8 else n.toInt

/-- CODE 0x1 decodes to INIT(n). On a live block that is not initialised INIT(n) completes with N clamped,
inited true and all 64 shadow slots 0x00; it emits CS high and then, for each device from 0 to N-1, the
register writes DISPLAYTEST 0x00, SCANLIMIT 0x07, DECODEMODE 0x00, rows 0 to 7 0x00, SHUTDOWN 0x00;
configuration, fault, sequencer, host list and everything else of the block stay. The clause that names the
rows' opcode bytes, and it alone, assumes OPCODES.DIGIT0 at most 8, where DIGIT0 + r needs no carry (log
18); everything else holds for every DIGIT0. (derived: 41_configuration.md R141, R142, 60_exceptions.md
R216) -/
def Obligations.InitRunsItsSequence : Prop :=
  (∀ n : Word, decode ⟨0x00000001, n, 0, 0⟩ = .ok (.init n)) ∧
    ∀ (s : State) (n : Word), Fresh s →
      ∃ t, exec (.init n) s = .next t ∧
        t = { s with
          inited := true
          n := t.n
          shadow := t.shadow
          frame := t.frame
          pin := t.pin
          emitted := t.emitted
          chain := t.chain } ∧
        (t.n.val : Int) = (if n.toInt ≤ 0 ∨ 8 < n.toInt then 8 else n.toInt) ∧
        (∀ k, k < 64 → t.shadow.read k = some 0x00) ∧ FrameKept { s with n := t.n } t ∧
        ∃ ops, RowOpcodes s ops ∧ Emits s t (.pinWrite .cs .high ::
          (List.range t.n.val).flatMap (initEvents s.cfg.opcodes ops t.n.val))

/-- INIT(n) on a live uninitialised block emits 1 + 12N(2 + 48N) events and ends with CS high, CLK low and DIN
low. With the default OPCODES, a chain of N chips and the boot premise (CLK left low, CS left high, no line
driven), every device then holds DISPLAYTEST 0x00, SCANLIMIT 0x07, DECODEMODE 0x00, DIGIT0..7 0x00 and
SHUTDOWN 0x00, keeps what it held in INTENSITY and at 0xD and 0xE, and the shadow mirrors the row registers.
(derived: 41_configuration.md R143, R144, 70_reset_and_hazards.md R243, R252, R253, 10_state.md R35) -/
def Obligations.InitLeavesTheBlockAndTheChipsConfigured : Prop :=
  ∀ (s : State) (n : Word), Fresh s →
    ∃ t, exec (.init n) s = .next t ∧
      t.emitted.length = s.emitted.length + (1 + 12 * t.n.val * (2 + 48 * t.n.val)) ∧
      t.pin = ⟨.low, .low, .high⟩ ∧
      (BootReady s → s.cfg.opcodes = Opcodes.standard → s.chain.length = t.n.val →
        Mirrors t ∧ ∀ d, d < t.n.val →
          devReg t d 0xF = some 0x00 ∧ devReg t d 0xB = some 0x07 ∧ devReg t d 0x9 = some 0x00 ∧
          (∀ r, r < 8 → devReg t d (1 + r) = some 0x00) ∧ devReg t d 0xC = some 0x00 ∧
          devReg t d 0xA = devReg s d 0xA ∧ devReg t d 0xD = devReg s d 0xD ∧
          devReg t d 0xE = devReg s d 0xE)

/-- INIT on a block that has driven no line, with CS left low and CLK left low by the platform (whose level
makes the first write an edge, log 8), on a chain of N chips with the default OPCODES: every device then
holds DISPLAYTEST, DECODEMODE, DIGIT0..7 and SHUTDOWN 0x00 and SCANLIMIT 0x07, whatever its shift register
held; a register INIT does not write (INTENSITY, and 0xD and 0xE, which a chip latches as log 16 says) takes
the stray data of a device whose shift register addressed it and keeps its value otherwise. (derived:
70_reset_and_hazards.md R256, 20_memory.md R72, R74, 41_configuration.md R141) -/
def Obligations.InitWithChipSelectLowLatchesStrayWords : Prop :=
  ∀ (s : State) (n : Word), Fresh s → s.pin = ⟨.unknown, .unknown, .unknown⟩ → s.line = ⟨.low, .low⟩ →
    s.cfg.opcodes = Opcodes.standard →
    ∃ t, exec (.init n) s = .next t ∧
      (s.chain.length = t.n.val → ∀ (d k : Nat) (c : Chip), s.chain[d]? = some c →
        devReg t d k =
          if k = 0xF ∨ k = 0x9 ∨ k = 0xC ∨ (1 ≤ k ∧ k ≤ 8) then some 0x00
          else if k = 0xB then some 0x07
          else if k ≠ 0 ∧ (c.sr.extractLsb' 8 4).toNat = k then some (c.sr.extractLsb' 0 8)
          else devReg s d k)

/-- CODE 0x2 decodes to GETCOUNT. Before INIT it takes Fault(Uninitialised). On an initialised block it
completes, emits Respond(N) as its only event and changes nothing else; after any command sequence N is in
1..8 (by the invariant Between). (stated: R145) -/
def Obligations.GetCountRespondsWithTheChainLength : Prop :=
  decode ⟨0x00000002, 0, 0, 0⟩ = .ok .getcount ∧ NeedsInit .getcount ∧
    ∀ s : State, Ready s →
      exec .getcount s = .next { s with emitted := .respond (BitVec.ofNat 32 s.n.val) :: s.emitted } ∧
      (Between s → 1 ≤ s.n.val ∧ s.n.val ≤ 8)

/-- CODE 0x3 with B decodes to SHUTDOWN(a, enable). Before INIT it takes Fault(Uninitialised). On an initialised
block a device outside [0, N) is a no-op; otherwise it completes, sends one XFER to register SHUTDOWN with
data 0x00 if enable and 0x01 if not, leaves the shadow and everything else of the block, and on a listening
chain writes that one register. (stated: R150) -/
def Obligations.ShutdownSendsTheInvertedByte : Prop :=
  ∀ (a : Word) (enable : Bool),
    decode ⟨if enable then 0x00000013 else 0x00000003, a, 0, 0⟩ = .ok (.shutdown a enable) ∧
    NeedsInit (.shutdown a enable) ∧
    ∀ s : State, Ready s →
      (¬ AddrOk s.n a → exec (.shutdown a enable) s = .next s) ∧
      (AddrOk s.n a → ∃ t, exec (.shutdown a enable) s = .next t ∧
        RegisterSent s t a.toNat s.cfg.opcodes.shutdown (if enable then 0x00 else 0x01))

/-- CODE 0x4 decodes to SCANLIMIT(a, limit). Before INIT it takes Fault(Uninitialised). On an initialised block
a device outside [0, N), or under GUARD_MODE enforced a limit outside 0..7, is a no-op; otherwise, for every
limit under GUARD_MODE source, it completes and sends one XFER to register SCANLIMIT with the low 8 bits of
the limit, leaves the shadow and everything else of the block, and on a listening chain writes that one
register. (stated: R155) -/
def Obligations.ScanLimitFollowsTheGuard : Prop :=
  ∀ a limit : Word,
    decode ⟨0x00000004, a, limit, 0⟩ = .ok (.scanlimit a limit) ∧ NeedsInit (.scanlimit a limit) ∧
    ∀ s : State, Ready s →
      (¬ AddrOk s.n a → exec (.scanlimit a limit) s = .next s) ∧
      (s.cfg.guardMode = .enforced → ¬ (0 ≤ limit.toInt ∧ limit.toInt ≤ 7) →
        exec (.scanlimit a limit) s = .next s) ∧
      (AddrOk s.n a → (s.cfg.guardMode = .source ∨ (0 ≤ limit.toInt ∧ limit.toInt ≤ 7)) →
        ∃ t, exec (.scanlimit a limit) s = .next t ∧
          RegisterSent s t a.toNat s.cfg.opcodes.scanLimit (BitVec.ofInt 8 limit.toInt))

/-- CODE 0x5 decodes to INTENSITY(a, intensity). Before INIT it takes Fault(Uninitialised). On an initialised
block a device outside [0, N), or under GUARD_MODE enforced a value outside 0..15, is a no-op; otherwise,
for every value under GUARD_MODE source, it completes and sends one XFER to register INTENSITY with the low
8 bits of the value, leaves the shadow and everything else of the block, and on a listening chain writes
that one register. (stated: R160) -/
def Obligations.IntensityFollowsTheGuard : Prop :=
  ∀ a level : Word,
    decode ⟨0x00000005, a, level, 0⟩ = .ok (.intensity a level) ∧ NeedsInit (.intensity a level) ∧
    ∀ s : State, Ready s →
      (¬ AddrOk s.n a → exec (.intensity a level) s = .next s) ∧
      (s.cfg.guardMode = .enforced → ¬ (0 ≤ level.toInt ∧ level.toInt ≤ 15) →
        exec (.intensity a level) s = .next s) ∧
      (AddrOk s.n a → (s.cfg.guardMode = .source ∨ (0 ≤ level.toInt ∧ level.toInt ≤ 15)) →
        ∃ t, exec (.intensity a level) s = .next t ∧
          RegisterSent s t a.toNat s.cfg.opcodes.intensity (BitVec.ofInt 8 level.toInt))

/-- CODE 0x6 decodes to CLEAR(a). Before INIT it takes Fault(Uninitialised). On an initialised block a device
outside [0, N) is a no-op; otherwise it completes: the eight slots of device a are 0x00, every other slot
keeps its value, rows 0 to 7 are sent in order with data 0x00, 8(2 + 48N) events; nothing else of the block
changes. The clauses that name a row's opcode byte or register, and they alone, assume OPCODES.DIGIT0 at
most 8, where DIGIT0 + r needs no carry (log 18); everything else holds for every DIGIT0. (stated: R171) -/
def Obligations.ClearBlanksOneDevice : Prop :=
  ∀ a : Word,
    decode ⟨0x00000006, a, 0, 0⟩ = .ok (.clear a) ∧ NeedsInit (.clear a) ∧
    ∀ s : State, Ready s →
      (¬ AddrOk s.n a → exec (.clear a) s = .next s) ∧
      (AddrOk s.n a → ∃ t, exec (.clear a) s = .next t ∧
        RowsSent s t a.toNat (fun _ => 0x00) ∧
        t.emitted.length = s.emitted.length + 8 * (2 + 48 * s.n.val))

/-- CODE 0x7 with B decodes to SETLED(a, r, c, on), all three operands read as i32. Before INIT it takes
Fault(Uninitialised). On an initialised block an operand out of range is a no-op; otherwise, for the value v
the slot holds, it completes with the slot v | (0x80 >> c) if on and v & ~(0x80 >> c) if not, that is bit 7
- c equal to on and the other bits of v, sends the row, and leaves every other slot and everything else of
the block. The clauses that name a row's opcode byte or register, and they alone, assume OPCODES.DIGIT0 at
most 8, where DIGIT0 + r needs no carry (log 18); everything else holds for every DIGIT0. (stated: R175,
R176) -/
def Obligations.SetLedModifiesOneBitAndSendsTheRow : Prop :=
  ∀ (a r c : Word) (on : Bool),
    decode ⟨if on then 0x00000017 else 0x00000007, a, r, c⟩ = .ok (.setled a r c on) ∧
    NeedsInit (.setled a r c on) ∧
    ∀ s : State, Ready s →
      (¬ (AddrOk s.n a ∧ IdxOk r ∧ IdxOk c) → exec (.setled a r c on) s = .next s) ∧
      (AddrOk s.n a → IdxOk r → IdxOk c →
        ∀ v, s.shadow.read (8 * a.toNat + r.toNat) = some v →
          ∃ t, exec (.setled a r c on) s = .next t ∧ RowSent s t a.toNat r.toNat (ledRow v c on) ∧
            (∀ b, b < 8 → (ledRow v c on).getLsbD b = if b = 7 - c.toNat then on else v.getLsbD b) ∧
            t.emitted.length = s.emitted.length + (2 + 48 * s.n.val))

/-- On an initialised block, for operands in range and a slot holding v0: SETLED on and then off leaves v0 &
~colmask(c), which is v0 exactly when bit 7 - c of v0 was 0; off and then on leaves v0 exactly when that bit
was 1; either order leaves the other seven bits. (stated: R177) -/
def Obligations.SetLedOnThenOffClearsTheBit : Prop :=
  ∀ (s : State) (a r c : Word) (v : Byte), Ready s → AddrOk s.n a → IdxOk r → IdxOk c →
    s.shadow.read (8 * a.toNat + r.toNat) = some v →
    (∃ t, execAll [.setled a r c true, .setled a r c false] s = .next t ∧
      t.shadow.read (8 * a.toNat + r.toNat) = some (v &&& ~~~(0x80#8 >>> c.toNat)) ∧
      (t.shadow.read (8 * a.toNat + r.toNat) = some v ↔ v.getLsbD (7 - c.toNat) = false) ∧
      ∃ u, t.shadow.read (8 * a.toNat + r.toNat) = some u ∧
        ∀ b, b < 8 → b ≠ 7 - c.toNat → u.getLsbD b = v.getLsbD b) ∧
    (∃ t, execAll [.setled a r c false, .setled a r c true] s = .next t ∧
      (t.shadow.read (8 * a.toNat + r.toNat) = some v ↔ v.getLsbD (7 - c.toNat) = true) ∧
      ∃ u, t.shadow.read (8 * a.toNat + r.toNat) = some u ∧
        ∀ b, b < 8 → b ≠ 7 - c.toNat → u.getLsbD b = v.getLsbD b)

/-- CODE 0x8 decodes to SETROW(a, r, value), value = W3[7:0]. Before INIT it takes Fault(Uninitialised). On an
initialised block a device or row out of range is a no-op; otherwise, for every value and whatever the slot
held, it completes with the slot equal to the value, sends the row in 2 + 48N events, and leaves every other
slot and everything else of the block. The clauses that name a row's opcode byte or register, and they
alone, assume OPCODES.DIGIT0 at most 8, where DIGIT0 + r needs no carry (log 18); everything else holds for
every DIGIT0. (stated: R181) -/
def Obligations.SetRowWritesAndSendsTheRow : Prop :=
  ∀ (a r : Word) (v : Byte),
    decode ⟨0x00000008, a, r, v.setWidth 32⟩ = .ok (.setrow a r v) ∧ NeedsInit (.setrow a r v) ∧
    ∀ s : State, Ready s →
      (¬ (AddrOk s.n a ∧ IdxOk r) → exec (.setrow a r v) s = .next s) ∧
      (AddrOk s.n a → IdxOk r → ∃ t, exec (.setrow a r v) s = .next t ∧
        RowSent s t a.toNat r.toNat v ∧ t.emitted.length = s.emitted.length + (2 + 48 * s.n.val))

/-- On an initialised block, for a device, row and column in range: SETROW(a, r, 0xFF) leaves the slot 0xFF, and
a SETLED(a, r, c, on) after it leaves it 0xFF. (stated: R182) -/
def Obligations.FullRowStaysFullUnderSetLed : Prop :=
  ∀ (s : State) (a r c : Word), Ready s → AddrOk s.n a → IdxOk r → IdxOk c →
    (∃ t, exec (.setrow a r 0xFF) s = .next t ∧ t.shadow.read (8 * a.toNat + r.toNat) = some 0xFF) ∧
    ∃ t, execAll [.setrow a r 0xFF, .setled a r c true] s = .next t ∧
      t.shadow.read (8 * a.toNat + r.toNat) = some 0xFF

/-- CODE 0x9 decodes to SETCOL(a, c, value). Before INIT it takes Fault(Uninitialised). On an initialised block
a device or column out of range is a no-op; otherwise, for whatever bytes the eight slots of device a hold,
it completes: row r's bit 7 - c is bit 7 - r of the value and its other bits are kept, rows 0 to 7 are sent
in order in 8(2 + 48N) events, and every other slot and everything else of the block stays. The clauses that
name a row's opcode byte or register, and they alone, assume OPCODES.DIGIT0 at most 8, where DIGIT0 + r
needs no carry (log 18); everything else holds for every DIGIT0. (stated: R185) -/
def Obligations.SetColWritesOneBitOfEveryRow : Prop :=
  ∀ (a c : Word) (v : Byte),
    decode ⟨0x00000009, a, c, v.setWidth 32⟩ = .ok (.setcol a c v) ∧ NeedsInit (.setcol a c v) ∧
    ∀ s : State, Ready s →
      (¬ (AddrOk s.n a ∧ IdxOk c) → exec (.setcol a c v) s = .next s) ∧
      (AddrOk s.n a → IdxOk c → ∀ rows : Nat → Byte,
        (∀ r, r < 8 → s.shadow.read (8 * a.toNat + r) = some (rows r)) →
        ∃ t, exec (.setcol a c v) s = .next t ∧
          RowsSent s t a.toNat (fun r => ledRow (rows r) c (v.getLsbD (7 - r))) ∧
          t.emitted.length = s.emitted.length + 8 * (2 + 48 * s.n.val))

/-- On every initialised block, for every device, column and value, in range or not: SETCOL(a, c, v) has exactly
the outcome, whole state and trace, of SETLED(a, 0, c, v[7]), SETLED(a, 1, c, v[6]), ..., SETLED(a, 7, c,
v[0]) one after the other; out of range, SETCOL and each of the eight is a no-op. (stated: R186) -/
def Obligations.SetColIsEightSetLeds : Prop :=
  ∀ (s : State) (a c : Word) (v : Byte), Ready s →
    exec (.setcol a c v) s =
      execAll [.setled a 0 c (v.getLsbD 7), .setled a 1 c (v.getLsbD 6), .setled a 2 c (v.getLsbD 5),
        .setled a 3 c (v.getLsbD 4), .setled a 4 c (v.getLsbD 3), .setled a 5 c (v.getLsbD 2),
        .setled a 6 c (v.getLsbD 1), .setled a 7 c (v.getLsbD 0)] s ∧
    (¬ (AddrOk s.n a ∧ IdxOk c) → exec (.setcol a c v) s = .next s ∧
      ∀ (r : Word) (b : Bool), exec (.setled a r c b) s = .next s)

/-- CODE 0xA with B decodes to SETDIGIT(a, dg, value, dp). Before INIT it takes Fault(Uninitialised). On an
initialised block a device or digit out of range or a value above 15 is a no-op; otherwise it completes with
the slot equal to CHAR_TABLE[value], ORed with 0x80 if dp, sends it in 2 + 48N events, and leaves every
other slot and everything else of the block. This holds for every table. The clauses that name a row's
opcode byte or register, and they alone, assume OPCODES.DIGIT0 at most 8, where DIGIT0 + r needs no carry
(log 18); everything else holds for every DIGIT0. (stated: R190, R191) -/
def Obligations.SetDigitShowsTheTableEntry : Prop :=
  ∀ (a dg : Word) (v : Byte) (dp : Bool),
    decode ⟨if dp then 0x0000001A else 0x0000000A, a, dg, v.setWidth 32⟩ = .ok (.setdigit a dg v dp) ∧
    NeedsInit (.setdigit a dg v dp) ∧
    ∀ s : State, Ready s →
      (¬ (AddrOk s.n a ∧ IdxOk dg ∧ v.toNat ≤ 15) → exec (.setdigit a dg v dp) s = .next s) ∧
      (AddrOk s.n a → IdxOk dg → ∀ (_ : v.toNat ≤ 15) (h : v.toNat < 128),
        ∃ t, exec (.setdigit a dg v dp) s = .next t ∧
          RowSent s t a.toNat dg.toNat (pointed (s.cfg.charTable.get ⟨v.toNat, h⟩) dp) ∧
          t.emitted.length = s.emitted.length + (2 + 48 * s.n.val))

/-- CODE 0xB with B decodes to SETCHAR(a, dg, ch, dp). Before INIT it takes Fault(Uninitialised). On an
initialised block a device or digit out of range is a no-op; otherwise it completes and writes and sends
CHAR_TABLE[ch] for ch up to 127, CHAR_TABLE[32] for a higher ch under remap_first, and some byte, the same
in the slot and on the wire, for a higher ch under source_order (a draw), each ORed with 0x80 if dp; every
other slot and everything else of the block stays. That a draw advances a counter is the model's choice (log
14: `draws` is the model's own field). The clauses that name a row's opcode byte or register, and they
alone, assume OPCODES.DIGIT0 at most 8, where DIGIT0 + r needs no carry (log 18); everything else holds for
every DIGIT0. (derived: 42_display.md R200, R201) -/
def Obligations.SetCharShowsTheCharacter : Prop :=
  ∀ (a dg : Word) (ch : Byte) (dp : Bool),
    decode ⟨if dp then 0x0000001B else 0x0000000B, a, dg, ch.setWidth 32⟩ = .ok (.setchar a dg ch dp) ∧
    NeedsInit (.setchar a dg ch dp) ∧
    ∀ s : State, Ready s →
      (¬ (AddrOk s.n a ∧ IdxOk dg) → exec (.setchar a dg ch dp) s = .next s) ∧
      (AddrOk s.n a → IdxOk dg →
        ∃ t, exec (.setchar a dg ch dp) s = .next t ∧
          t.emitted.length = s.emitted.length + (2 + 48 * s.n.val) ∧
          (∀ h : ch.toNat < 128,
            RowSent s t a.toNat dg.toNat (pointed (s.cfg.charTable.get ⟨ch.toNat, h⟩) dp)) ∧
          (128 ≤ ch.toNat → s.cfg.lookupOrder = .remapFirst →
            RowSent s t a.toNat dg.toNat (pointed (s.cfg.charTable.get ⟨32, by omega⟩) dp)) ∧
          (128 ≤ ch.toNat → s.cfg.lookupOrder = .sourceOrder →
            ∃ p, RowSent { s with draws := s.draws + 1 } t a.toNat dg.toNat (pointed p dp)))

/-- In every state, for every value up to 15, SETDIGIT(a, dg, v, dp) and SETCHAR(a, dg, v, dp) have the same
outcome: the same pattern written and the same frame sent. (stated: R202) -/
def Obligations.SetDigitAgreesWithSetChar : Prop :=
  ∀ (s : State) (a dg : Word) (v : Byte) (dp : Bool), v.toNat ≤ 15 →
    exec (.setdigit a dg v dp) s = exec (.setchar a dg v dp) s

/-- For every command, on an initialised block or, for INIT, on a live uninitialised one, whenever it gives a
next state it emits exactly the events of the table: 0 for a no-op, 1 for GETCOUNT, E(N) for the single
register writes, 8E(N) for CLEAR and SETCOL, 1 + 12N E(N) for INIT, with E(N) = 2 + 48N. (stated: R262) -/
def Obligations.EventCountsOfTheTable : Prop :=
  ∀ (s t : State) (i : Instr), isCommand i = true → (Ready s ∨ (Fresh s ∧ isInit i = true)) →
    exec i s = .next t → t.emitted.length = s.emitted.length + eventCount s i

/-- Two states that differ only in the chips (their number, kinds and contents) and in the platform's line
levels have the same outcome of a step, up to the chips: the same fault or refusal, or next states that
again differ only there. So the block's state and trace do not depend on the chips. (derived:
70_reset_and_hazards.md R253, 10_state.md R34, 20_memory.md R50) -/
def Obligations.TraceDoesNotDependOnTheChips : Prop :=
  ∀ (s : State) (ch : List Chip) (ln : Lines),
    match step s, step { s with chain := ch, line := ln } with
    | .next t, .next u => ∃ ch', u = { t with chain := ch', line := ln }
    | .fault r, .fault r' => r = r'
    | .refused r, .refused r' => r = r'
    | _, _ => False

/-- For every command, illegal word and micro-operation on a live block: if its big step gives a next state t,
then after k small steps (k up to the number of its events) exactly the first k of those events have been
emitted, the lines and the chips are those these events give, the sequencer is idle exactly when all are
out, configuration and fault are t's, and inited and N are the old ones unless the instruction is INIT;
after the last event the state is exactly t (in the small-step view). The field view, and that the state
writes between two events fall in with the event before them, are the model's choice (log 13, DESIGN
CHOICE). (derived: 10_state.md R28, 40_transport.md R129) -/
def Obligations.SmallStepsReachTheBigStep : Prop :=
  ∀ (s t : State) (i : Instr), Live s → s.view = .bigStep → wireTarget i = none → exec i s = .next t →
    t.seq = .idle ∧ t.trace = s.trace ++ t.since s ∧
      smallSteps i (t.since s).length s = .next { t with view := .smallStep } ∧
      ∀ k, k ≤ (t.since s).length →
        ∃ v : State, smallSteps i k s = .next v ∧ v.trace = s.trace ++ (t.since s).take k ∧
          v.pin = (replay ((t.since s).take k) s).pin ∧ v.chain = (replay ((t.since s).take k) s).chain ∧
          (v.seq = .idle ↔ k = (t.since s).length) ∧ v.cfg = s.cfg ∧ v.fault = t.fault ∧
          (isInit i = false → v.inited = s.inited ∧ v.n = s.n)

/-- On an unfaulted block with m actions left, a step always succeeds, emits at most one event and leaves an
idle sequencer or a later part of those actions; after at most m steps the sequencer is idle. So a running
command always completes. (derived: 10_state.md R28, R29, 92_eei_decisions.md D26) -/
def Obligations.RunningCommandsAlwaysComplete : Prop :=
  ∀ (s : State) (a : Action) (rest : List Action), s.fault = none → s.seq = .busy (a :: rest) →
    (∃ t, step s = .next t ∧ (t.emitted = s.emitted ∨ ∃ e, t.emitted = e :: s.emitted) ∧
      (t.seq = .idle ∨ ∃ p, p ≠ [] ∧ p <:+ rest ∧ t.seq = .busy p)) ∧
    ∃ k u, k ≤ rest.length + 1 ∧ Sys2Proof.core.run k s = .next u ∧ u.seq = .idle

/-- Every step keeps the configuration, the platform's levels and the view; and from an idle initialised block
every step keeps inited true and N as it is. (derived: 10_state.md R21, R22, R31, 92_eei_decisions.md D10) -/
def Obligations.ConfigurationAndChainLengthAreFixed : Prop :=
  ∀ s t : State, step s = .next t →
    t.cfg = s.cfg ∧ t.line = s.line ∧ t.view = s.view ∧
    (s.seq = .idle → s.inited = true → t.inited = true ∧ t.n = s.n)

/-- At reset, for every configuration and every number of chips, inited is false, N and every shadow slot hold
no value, all three pins are unknown, there is no fault, the sequencer is idle and no event has been
emitted; exactly the sixteen frame bytes and the registers 0x1 to 0xF of each chip hold a value, whichever
it is. State.reset is such a state with the default parameters (eight chips and the PINS are the model's
choice, logs 4 and 9; 0 for N without a value, log 6). (derived: 10_state.md R38, 70_reset_and_hazards.md
R240) -/
def Obligations.ResetValuesOfTheBlock : Prop :=
  (∀ (cfg : Config) (m : Nat),
      let s := State.powerUp cfg m
      s.cfg = cfg ∧ s.inited = false ∧ s.n = 0 ∧ (∀ k, s.shadow.read k = none) ∧
      (∀ k, (s.frame.read k).isSome = true ↔ k < 16) ∧
      s.pin = ⟨.unknown, .unknown, .unknown⟩ ∧ s.fault = none ∧ s.seq = .idle ∧ s.trace = [] ∧
      s.chain.length = m ∧ ∀ d k, (devReg s d k).isSome = true ↔ d < m ∧ 1 ≤ k ∧ k ≤ 15) ∧
    State.reset = State.powerUp Config.standard 8

/-- For every configuration and number of chips, shadow, frame and chip registers at power-up are in canonical
form and inside their bounds. (derived: 20_memory.md R50, 10_state.md R38) -/
def Obligations.CanonicalAtReset : Prop :=
  ∀ (cfg : Config) (m : Nat), Canonical (State.powerUp cfg m)

/-- From every state whose byte spaces are in canonical form (addresses strictly rising) and inside their bounds
(SH below 64, FB below 16, chip registers 0x1 to 0xF), in either view, in the middle of a command or not, a
step that gives a next state gives one with the same property. (derived: 20_memory.md R50, R51, 10_state.md
R25, R71) -/
def Obligations.EveryStepKeepsTheCanonicalForm : Prop :=
  ∀ s t : State, Canonical s → step s = .next t → Canonical t

/-- For every configuration and number of chips, at power-up the sequencer is idle, the shadow holds nothing, no
line has been driven and no event emitted; N has no value there, and that the field n is 0 then is the
model's choice (log 6, DESIGN CHOICE). (derived: 10_state.md R38, 70_reset_and_hazards.md R251) -/
def Obligations.BetweenAtReset : Prop :=
  ∀ (cfg : Config) (m : Nat), Between (State.powerUp cfg m)

/-- In the big-step view, from every state with an idle sequencer that holds nothing and has driven and emitted
nothing while uninitialised, and that has N in 1..8, all 64 slots written, slots of absent devices 0x00 and
a clean link once initialised, a step that gives a next state gives such a state. That the field n is 0
while N has no value is the model's choice (log 6, DESIGN CHOICE). (derived: 10_state.md R22, R23, R24, R38,
20_memory.md R76, 70_reset_and_hazards.md R251) -/
def Obligations.EveryStepKeepsBetween : Prop :=
  ∀ s t : State, s.view = .bigStep → Between s → step s = .next t → Between t

/-- With the default OPCODES, N chips on the chain and a clean link: if the shadow of every device's rows equals
the chips' digit registers in an idle initialised block, then so it does after every step of the big-step
view. (derived: 10_state.md R35, 20_memory.md R77, 70_reset_and_hazards.md R253) -/
def Obligations.EveryStepKeepsTheShadowMirror : Prop :=
  ∀ s t : State, s.view = .bigStep → s.seq = .idle → s.inited = true → Mirrors s → step s = .next t → Mirrors t

/-- On an initialised block, for every instruction of the block with a big step to t and every number k of its
events: after k small steps of CLEAR(a) or SETCOL(a, c, value), row r of device a holds its old value as
long as the transfers of the rows before it are not all out, that is for k below r times (2 + 48N), and t's
value from then on; every other slot holds t's. Any other instruction has t's shadow after every small step,
its one row included, which is written before its transfer. That a row's write falls in with the event
before it is the model's choice (log 13, DESIGN CHOICE). (derived: 70_reset_and_hazards.md R257, 10_state.md
R28, 92_eei_decisions.md D20) -/
def Obligations.RowsTakeEffectOneByOne : Prop :=
  ∀ (s t : State) (i : Instr) (k : Nat), Ready s → wireTarget i = none → exec i s = .next t →
    k ≤ (t.since s).length →
    ∃ v : State, smallSteps i k s = .next v ∧
      (∀ a : Word, (i = .clear a ∨ ∃ c w, i = .setcol a c w) → ∀ j, v.shadow.read j =
        if 8 * a.toNat ≤ j ∧ j < 8 * a.toNat + 8 ∧ k < (j - 8 * a.toNat) * xferLength s.n.val
        then s.shadow.read j else t.shadow.read j) ∧
      ((∀ a : Word, i ≠ .clear a ∧ ∀ c w, i ≠ .setcol a c w) → v.shadow = t.shadow)

/-- INIT(n) on a live uninitialised block completes, and after k small steps (k up to the number of its events)
N is already the clamped n, inited is true exactly when all events are out, and the shadow is untouched at k
= 0 and has all 64 slots 0x00 from the first event, CS high, on. That a state write falls in with the event
before it is the model's choice (log 13, DESIGN CHOICE). (derived: 10_state.md R28, 41_configuration.md
R141, 92_eei_decisions.md D20) -/
def Obligations.InitTakesEffectAtItsPlaces : Prop :=
  ∀ (s : State) (n : Word), Fresh s →
    ∃ t, exec (.init n) s = .next t ∧
      ∀ k, k ≤ (t.since s).length →
        ∃ v : State, smallSteps (.init n) k s = .next v ∧ v.n = t.n ∧
          (v.inited = true ↔ k = (t.since s).length) ∧ (k = 0 → v.shadow = s.shadow) ∧
          (1 ≤ k → ∀ j, j < 64 → v.shadow.read j = some 0x00)
end

