-- ==== Sys2Proof/Laws/State.lean ====
section
/-! SUPPORT. One lemma per field per update of State, each true by rfl. -/

namespace Sys2Proof.Machine

@[simp] theorem act_pin (p : Pin) (l : Level) (s : State) : act (.pin p l) s = pinWrite p l s := rfl

@[simp] theorem act_respond (v : Word) (s : State) : act (.respond v) s = respond v s := rfl

@[simp] theorem pinWrite_cfg (p : Pin) (l : Level) (s : State) : (pinWrite p l s).cfg = s.cfg := rfl
@[simp] theorem pinWrite_inited (p : Pin) (l : Level) (s : State) : (pinWrite p l s).inited = s.inited := rfl
@[simp] theorem pinWrite_n (p : Pin) (l : Level) (s : State) : (pinWrite p l s).n = s.n := rfl
@[simp] theorem pinWrite_shadow (p : Pin) (l : Level) (s : State) : (pinWrite p l s).shadow = s.shadow := rfl
@[simp] theorem pinWrite_frame (p : Pin) (l : Level) (s : State) : (pinWrite p l s).frame = s.frame := rfl
@[simp] theorem pinWrite_pin (p : Pin) (l : Level) (s : State) : (pinWrite p l s).pin = s.pin.set p l.toPin := rfl
@[simp] theorem pinWrite_fault (p : Pin) (l : Level) (s : State) : (pinWrite p l s).fault = s.fault := rfl
@[simp] theorem pinWrite_seq (p : Pin) (l : Level) (s : State) : (pinWrite p l s).seq = s.seq := rfl
@[simp] theorem pinWrite_emitted (p : Pin) (l : Level) (s : State) : (pinWrite p l s).emitted = .pinWrite p l :: s.emitted := rfl
@[simp] theorem pinWrite_line (p : Pin) (l : Level) (s : State) : (pinWrite p l s).line = s.line := rfl
@[simp] theorem pinWrite_chain (p : Pin) (l : Level) (s : State) : (pinWrite p l s).chain = chainAfter p l s := rfl
@[simp] theorem pinWrite_host (p : Pin) (l : Level) (s : State) : (pinWrite p l s).host = s.host := rfl
@[simp] theorem pinWrite_view (p : Pin) (l : Level) (s : State) : (pinWrite p l s).view = s.view := rfl
@[simp] theorem pinWrite_draws (p : Pin) (l : Level) (s : State) : (pinWrite p l s).draws = s.draws := rfl

@[simp] theorem respond_cfg (v : Word) (s : State) : (respond v s).cfg = s.cfg := rfl
@[simp] theorem respond_inited (v : Word) (s : State) : (respond v s).inited = s.inited := rfl
@[simp] theorem respond_n (v : Word) (s : State) : (respond v s).n = s.n := rfl
@[simp] theorem respond_shadow (v : Word) (s : State) : (respond v s).shadow = s.shadow := rfl
@[simp] theorem respond_frame (v : Word) (s : State) : (respond v s).frame = s.frame := rfl
@[simp] theorem respond_pin (v : Word) (s : State) : (respond v s).pin = s.pin := rfl
@[simp] theorem respond_fault (v : Word) (s : State) : (respond v s).fault = s.fault := rfl
@[simp] theorem respond_seq (v : Word) (s : State) : (respond v s).seq = s.seq := rfl
@[simp] theorem respond_emitted (v : Word) (s : State) : (respond v s).emitted = .respond v :: s.emitted := rfl
@[simp] theorem respond_line (v : Word) (s : State) : (respond v s).line = s.line := rfl
@[simp] theorem respond_chain (v : Word) (s : State) : (respond v s).chain = s.chain := rfl
@[simp] theorem respond_host (v : Word) (s : State) : (respond v s).host = s.host := rfl
@[simp] theorem respond_view (v : Word) (s : State) : (respond v s).view = s.view := rfl
@[simp] theorem respond_draws (v : Word) (s : State) : (respond v s).draws = s.draws := rfl

@[simp] theorem raise_cfg (r : FaultReason) (s : State) : (raise r s).cfg = s.cfg := rfl
@[simp] theorem raise_inited (r : FaultReason) (s : State) : (raise r s).inited = s.inited := rfl
@[simp] theorem raise_n (r : FaultReason) (s : State) : (raise r s).n = s.n := rfl
@[simp] theorem raise_shadow (r : FaultReason) (s : State) : (raise r s).shadow = s.shadow := rfl
@[simp] theorem raise_frame (r : FaultReason) (s : State) : (raise r s).frame = s.frame := rfl
@[simp] theorem raise_pin (r : FaultReason) (s : State) : (raise r s).pin = s.pin := rfl
@[simp] theorem raise_fault (r : FaultReason) (s : State) : (raise r s).fault = some r := rfl
@[simp] theorem raise_seq (r : FaultReason) (s : State) : (raise r s).seq = .idle := rfl
@[simp] theorem raise_emitted (r : FaultReason) (s : State) : (raise r s).emitted = s.emitted := rfl
@[simp] theorem raise_line (r : FaultReason) (s : State) : (raise r s).line = s.line := rfl
@[simp] theorem raise_chain (r : FaultReason) (s : State) : (raise r s).chain = s.chain := rfl
@[simp] theorem raise_host (r : FaultReason) (s : State) : (raise r s).host = s.host := rfl
@[simp] theorem raise_view (r : FaultReason) (s : State) : (raise r s).view = s.view := rfl
@[simp] theorem raise_draws (r : FaultReason) (s : State) : (raise r s).draws = s.draws := rfl

@[simp] theorem wireWrite_cfg (e : Nat) (adr : BitVec 4) (d : Byte) (s : State) : (wireWrite e adr d s).cfg = s.cfg := rfl
@[simp] theorem wireWrite_inited (e : Nat) (adr : BitVec 4) (d : Byte) (s : State) : (wireWrite e adr d s).inited = s.inited := rfl
@[simp] theorem wireWrite_n (e : Nat) (adr : BitVec 4) (d : Byte) (s : State) : (wireWrite e adr d s).n = s.n := rfl
@[simp] theorem wireWrite_shadow (e : Nat) (adr : BitVec 4) (d : Byte) (s : State) : (wireWrite e adr d s).shadow = s.shadow := rfl
@[simp] theorem wireWrite_frame (e : Nat) (adr : BitVec 4) (d : Byte) (s : State) : (wireWrite e adr d s).frame = s.frame := rfl
@[simp] theorem wireWrite_pin (e : Nat) (adr : BitVec 4) (d : Byte) (s : State) : (wireWrite e adr d s).pin = s.pin := rfl
@[simp] theorem wireWrite_fault (e : Nat) (adr : BitVec 4) (d : Byte) (s : State) : (wireWrite e adr d s).fault = s.fault := rfl
@[simp] theorem wireWrite_seq (e : Nat) (adr : BitVec 4) (d : Byte) (s : State) : (wireWrite e adr d s).seq = s.seq := rfl
@[simp] theorem wireWrite_emitted (e : Nat) (adr : BitVec 4) (d : Byte) (s : State) : (wireWrite e adr d s).emitted = s.emitted := rfl
@[simp] theorem wireWrite_line (e : Nat) (adr : BitVec 4) (d : Byte) (s : State) : (wireWrite e adr d s).line = s.line := rfl
@[simp] theorem wireWrite_chain (e : Nat) (adr : BitVec 4) (d : Byte) (s : State) : (wireWrite e adr d s).chain = s.chain.modify e (fun c => { c with reg := c.reg.write adr.toNat d }) := rfl
@[simp] theorem wireWrite_host (e : Nat) (adr : BitVec 4) (d : Byte) (s : State) : (wireWrite e adr d s).host = s.host := rfl
@[simp] theorem wireWrite_view (e : Nat) (adr : BitVec 4) (d : Byte) (s : State) : (wireWrite e adr d s).view = s.view := rfl
@[simp] theorem wireWrite_draws (e : Nat) (adr : BitVec 4) (d : Byte) (s : State) : (wireWrite e adr d s).draws = s.draws := rfl

@[simp] theorem takeCommand_cfg (s : State) : (takeCommand s).cfg = s.cfg := rfl
@[simp] theorem takeCommand_inited (s : State) : (takeCommand s).inited = s.inited := rfl
@[simp] theorem takeCommand_n (s : State) : (takeCommand s).n = s.n := rfl
@[simp] theorem takeCommand_shadow (s : State) : (takeCommand s).shadow = s.shadow := rfl
@[simp] theorem takeCommand_frame (s : State) : (takeCommand s).frame = s.frame := rfl
@[simp] theorem takeCommand_pin (s : State) : (takeCommand s).pin = s.pin := rfl
@[simp] theorem takeCommand_fault (s : State) : (takeCommand s).fault = s.fault := rfl
@[simp] theorem takeCommand_seq (s : State) : (takeCommand s).seq = s.seq := rfl
@[simp] theorem takeCommand_emitted (s : State) : (takeCommand s).emitted = s.emitted := rfl
@[simp] theorem takeCommand_line (s : State) : (takeCommand s).line = s.line := rfl
@[simp] theorem takeCommand_chain (s : State) : (takeCommand s).chain = s.chain := rfl
@[simp] theorem takeCommand_host (s : State) : (takeCommand s).host = s.host.tail := rfl
@[simp] theorem takeCommand_view (s : State) : (takeCommand s).view = s.view := rfl
@[simp] theorem takeCommand_draws (s : State) : (takeCommand s).draws = s.draws := rfl

@[simp] theorem placeCommand_cfg (w : CommandWord) (s : State) : (placeCommand w s).cfg = s.cfg := rfl
@[simp] theorem placeCommand_inited (w : CommandWord) (s : State) : (placeCommand w s).inited = s.inited := rfl
@[simp] theorem placeCommand_n (w : CommandWord) (s : State) : (placeCommand w s).n = s.n := rfl
@[simp] theorem placeCommand_shadow (w : CommandWord) (s : State) : (placeCommand w s).shadow = s.shadow := rfl
@[simp] theorem placeCommand_frame (w : CommandWord) (s : State) : (placeCommand w s).frame = s.frame := rfl
@[simp] theorem placeCommand_pin (w : CommandWord) (s : State) : (placeCommand w s).pin = s.pin := rfl
@[simp] theorem placeCommand_fault (w : CommandWord) (s : State) : (placeCommand w s).fault = s.fault := rfl
@[simp] theorem placeCommand_seq (w : CommandWord) (s : State) : (placeCommand w s).seq = .idle := rfl
@[simp] theorem placeCommand_emitted (w : CommandWord) (s : State) : (placeCommand w s).emitted = s.emitted := rfl
@[simp] theorem placeCommand_line (w : CommandWord) (s : State) : (placeCommand w s).line = s.line := rfl
@[simp] theorem placeCommand_chain (w : CommandWord) (s : State) : (placeCommand w s).chain = s.chain := rfl
@[simp] theorem placeCommand_host (w : CommandWord) (s : State) : (placeCommand w s).host = w :: s.host := rfl
@[simp] theorem placeCommand_view (w : CommandWord) (s : State) : (placeCommand w s).view = s.view := rfl
@[simp] theorem placeCommand_draws (w : CommandWord) (s : State) : (placeCommand w s).draws = s.draws := rfl

@[simp] theorem placeWire_cfg (w : Half) (s : State) : (placeWire w s).cfg = s.cfg := rfl
@[simp] theorem placeWire_inited (w : Half) (s : State) : (placeWire w s).inited = s.inited := rfl
@[simp] theorem placeWire_n (w : Half) (s : State) : (placeWire w s).n = s.n := rfl
@[simp] theorem placeWire_shadow (w : Half) (s : State) : (placeWire w s).shadow = s.shadow := rfl
@[simp] theorem placeWire_frame (w : Half) (s : State) : (placeWire w s).frame = s.frame := rfl
@[simp] theorem placeWire_pin (w : Half) (s : State) : (placeWire w s).pin = { s.pin with cs := .low } := rfl
@[simp] theorem placeWire_fault (w : Half) (s : State) : (placeWire w s).fault = s.fault := rfl
@[simp] theorem placeWire_seq (w : Half) (s : State) : (placeWire w s).seq = .busy [.pin .cs .high] := rfl
@[simp] theorem placeWire_emitted (w : Half) (s : State) : (placeWire w s).emitted = s.emitted := rfl
@[simp] theorem placeWire_line (w : Half) (s : State) : (placeWire w s).line = s.line := rfl
@[simp] theorem placeWire_chain (w : Half) (s : State) : (placeWire w s).chain = loadShiftRegisters w s.chain := rfl
@[simp] theorem placeWire_host (w : Half) (s : State) : (placeWire w s).host = s.host := rfl
@[simp] theorem placeWire_view (w : Half) (s : State) : (placeWire w s).view = s.view := rfl
@[simp] theorem placeWire_draws (w : Half) (s : State) : (placeWire w s).draws = s.draws := rfl

@[simp] theorem act_setN_cfg (n : Fin 9) (s : State) : (act (.setN n) s).cfg = s.cfg := rfl
@[simp] theorem act_setN_inited (n : Fin 9) (s : State) : (act (.setN n) s).inited = s.inited := rfl
@[simp] theorem act_setN_n (n : Fin 9) (s : State) : (act (.setN n) s).n = n := rfl
@[simp] theorem act_setN_shadow (n : Fin 9) (s : State) : (act (.setN n) s).shadow = s.shadow := rfl
@[simp] theorem act_setN_frame (n : Fin 9) (s : State) : (act (.setN n) s).frame = s.frame := rfl
@[simp] theorem act_setN_pin (n : Fin 9) (s : State) : (act (.setN n) s).pin = s.pin := rfl
@[simp] theorem act_setN_fault (n : Fin 9) (s : State) : (act (.setN n) s).fault = s.fault := rfl
@[simp] theorem act_setN_seq (n : Fin 9) (s : State) : (act (.setN n) s).seq = s.seq := rfl
@[simp] theorem act_setN_emitted (n : Fin 9) (s : State) : (act (.setN n) s).emitted = s.emitted := rfl
@[simp] theorem act_setN_line (n : Fin 9) (s : State) : (act (.setN n) s).line = s.line := rfl
@[simp] theorem act_setN_chain (n : Fin 9) (s : State) : (act (.setN n) s).chain = s.chain := rfl
@[simp] theorem act_setN_host (n : Fin 9) (s : State) : (act (.setN n) s).host = s.host := rfl
@[simp] theorem act_setN_view (n : Fin 9) (s : State) : (act (.setN n) s).view = s.view := rfl
@[simp] theorem act_setN_draws (n : Fin 9) (s : State) : (act (.setN n) s).draws = s.draws := rfl

@[simp] theorem act_setInited_cfg (s : State) : (act .setInited s).cfg = s.cfg := rfl
@[simp] theorem act_setInited_inited (s : State) : (act .setInited s).inited = true := rfl
@[simp] theorem act_setInited_n (s : State) : (act .setInited s).n = s.n := rfl
@[simp] theorem act_setInited_shadow (s : State) : (act .setInited s).shadow = s.shadow := rfl
@[simp] theorem act_setInited_frame (s : State) : (act .setInited s).frame = s.frame := rfl
@[simp] theorem act_setInited_pin (s : State) : (act .setInited s).pin = s.pin := rfl
@[simp] theorem act_setInited_fault (s : State) : (act .setInited s).fault = s.fault := rfl
@[simp] theorem act_setInited_seq (s : State) : (act .setInited s).seq = s.seq := rfl
@[simp] theorem act_setInited_emitted (s : State) : (act .setInited s).emitted = s.emitted := rfl
@[simp] theorem act_setInited_line (s : State) : (act .setInited s).line = s.line := rfl
@[simp] theorem act_setInited_chain (s : State) : (act .setInited s).chain = s.chain := rfl
@[simp] theorem act_setInited_host (s : State) : (act .setInited s).host = s.host := rfl
@[simp] theorem act_setInited_view (s : State) : (act .setInited s).view = s.view := rfl
@[simp] theorem act_setInited_draws (s : State) : (act .setInited s).draws = s.draws := rfl

@[simp] theorem act_writeShadow_cfg (k : Fin 64) (v : Byte) (s : State) : (act (.writeShadow k v) s).cfg = s.cfg := rfl
@[simp] theorem act_writeShadow_inited (k : Fin 64) (v : Byte) (s : State) : (act (.writeShadow k v) s).inited = s.inited := rfl
@[simp] theorem act_writeShadow_n (k : Fin 64) (v : Byte) (s : State) : (act (.writeShadow k v) s).n = s.n := rfl
@[simp] theorem act_writeShadow_shadow (k : Fin 64) (v : Byte) (s : State) : (act (.writeShadow k v) s).shadow = s.shadow.write k.val v := rfl
@[simp] theorem act_writeShadow_frame (k : Fin 64) (v : Byte) (s : State) : (act (.writeShadow k v) s).frame = s.frame := rfl
@[simp] theorem act_writeShadow_pin (k : Fin 64) (v : Byte) (s : State) : (act (.writeShadow k v) s).pin = s.pin := rfl
@[simp] theorem act_writeShadow_fault (k : Fin 64) (v : Byte) (s : State) : (act (.writeShadow k v) s).fault = s.fault := rfl
@[simp] theorem act_writeShadow_seq (k : Fin 64) (v : Byte) (s : State) : (act (.writeShadow k v) s).seq = s.seq := rfl
@[simp] theorem act_writeShadow_emitted (k : Fin 64) (v : Byte) (s : State) : (act (.writeShadow k v) s).emitted = s.emitted := rfl
@[simp] theorem act_writeShadow_line (k : Fin 64) (v : Byte) (s : State) : (act (.writeShadow k v) s).line = s.line := rfl
@[simp] theorem act_writeShadow_chain (k : Fin 64) (v : Byte) (s : State) : (act (.writeShadow k v) s).chain = s.chain := rfl
@[simp] theorem act_writeShadow_host (k : Fin 64) (v : Byte) (s : State) : (act (.writeShadow k v) s).host = s.host := rfl
@[simp] theorem act_writeShadow_view (k : Fin 64) (v : Byte) (s : State) : (act (.writeShadow k v) s).view = s.view := rfl
@[simp] theorem act_writeShadow_draws (k : Fin 64) (v : Byte) (s : State) : (act (.writeShadow k v) s).draws = s.draws := rfl

@[simp] theorem act_loadFrame_cfg (bytes : List Byte) (s : State) : (act (.loadFrame bytes) s).cfg = s.cfg := rfl
@[simp] theorem act_loadFrame_inited (bytes : List Byte) (s : State) : (act (.loadFrame bytes) s).inited = s.inited := rfl
@[simp] theorem act_loadFrame_n (bytes : List Byte) (s : State) : (act (.loadFrame bytes) s).n = s.n := rfl
@[simp] theorem act_loadFrame_shadow (bytes : List Byte) (s : State) : (act (.loadFrame bytes) s).shadow = s.shadow := rfl
@[simp] theorem act_loadFrame_frame (bytes : List Byte) (s : State) : (act (.loadFrame bytes) s).frame = s.frame.writeAll 0 (bytes.take 16) := rfl
@[simp] theorem act_loadFrame_pin (bytes : List Byte) (s : State) : (act (.loadFrame bytes) s).pin = s.pin := rfl
@[simp] theorem act_loadFrame_fault (bytes : List Byte) (s : State) : (act (.loadFrame bytes) s).fault = s.fault := rfl
@[simp] theorem act_loadFrame_seq (bytes : List Byte) (s : State) : (act (.loadFrame bytes) s).seq = s.seq := rfl
@[simp] theorem act_loadFrame_emitted (bytes : List Byte) (s : State) : (act (.loadFrame bytes) s).emitted = s.emitted := rfl
@[simp] theorem act_loadFrame_line (bytes : List Byte) (s : State) : (act (.loadFrame bytes) s).line = s.line := rfl
@[simp] theorem act_loadFrame_chain (bytes : List Byte) (s : State) : (act (.loadFrame bytes) s).chain = s.chain := rfl
@[simp] theorem act_loadFrame_host (bytes : List Byte) (s : State) : (act (.loadFrame bytes) s).host = s.host := rfl
@[simp] theorem act_loadFrame_view (bytes : List Byte) (s : State) : (act (.loadFrame bytes) s).view = s.view := rfl
@[simp] theorem act_loadFrame_draws (bytes : List Byte) (s : State) : (act (.loadFrame bytes) s).draws = s.draws := rfl

@[simp] theorem act_drawn_cfg (s : State) : (act .drawn s).cfg = s.cfg := rfl
@[simp] theorem act_drawn_inited (s : State) : (act .drawn s).inited = s.inited := rfl
@[simp] theorem act_drawn_n (s : State) : (act .drawn s).n = s.n := rfl
@[simp] theorem act_drawn_shadow (s : State) : (act .drawn s).shadow = s.shadow := rfl
@[simp] theorem act_drawn_frame (s : State) : (act .drawn s).frame = s.frame := rfl
@[simp] theorem act_drawn_pin (s : State) : (act .drawn s).pin = s.pin := rfl
@[simp] theorem act_drawn_fault (s : State) : (act .drawn s).fault = s.fault := rfl
@[simp] theorem act_drawn_seq (s : State) : (act .drawn s).seq = s.seq := rfl
@[simp] theorem act_drawn_emitted (s : State) : (act .drawn s).emitted = s.emitted := rfl
@[simp] theorem act_drawn_line (s : State) : (act .drawn s).line = s.line := rfl
@[simp] theorem act_drawn_chain (s : State) : (act .drawn s).chain = s.chain := rfl
@[simp] theorem act_drawn_host (s : State) : (act .drawn s).host = s.host := rfl
@[simp] theorem act_drawn_view (s : State) : (act .drawn s).view = s.view := rfl
@[simp] theorem act_drawn_draws (s : State) : (act .drawn s).draws = s.draws + 1 := rfl

@[simp] theorem resume_nil (s : State) : resume [] s = { s with seq := .idle } := rfl

@[simp] theorem resume_cons (a : Action) (rest : List Action) (s : State) :
    resume (a :: rest) s = settle rest (act a s) := rfl

@[simp] theorem settle_nil (s : State) : settle [] s = { s with seq := .idle } := rfl

@[simp] theorem powerUp_inited (cfg : Config) (k : Nat) : (State.powerUp cfg k).inited = false := rfl
@[simp] theorem powerUp_fault (cfg : Config) (k : Nat) : (State.powerUp cfg k).fault = none := rfl
@[simp] theorem powerUp_seq (cfg : Config) (k : Nat) : (State.powerUp cfg k).seq = .idle := rfl
@[simp] theorem powerUp_shadow (cfg : Config) (k : Nat) : (State.powerUp cfg k).shadow = [] := rfl
@[simp] theorem powerUp_frame (cfg : Config) (k : Nat) : (State.powerUp cfg k).frame = openFrame := rfl
@[simp] theorem powerUp_cfg (cfg : Config) (k : Nat) : (State.powerUp cfg k).cfg = cfg := rfl
@[simp] theorem powerUp_chain_length (cfg : Config) (k : Nat) : (State.powerUp cfg k).chain.length = k := by
  simp [State.powerUp]

end Sys2Proof.Machine
end

