-- ==== Sys2Proof/Laws/Acts.lean ====
section
/-! SUPPORT. Action lists: composition, what they emit, what they can never change. -/

namespace Sys2Proof.Machine

@[simp] theorem runActs_nil (s : State) : runActs [] s = s := rfl

@[simp] theorem runActs_cons (a : Action) (l : List Action) (s : State) :
    runActs (a :: l) s = runActs l (act a s) := rfl

theorem runActs_append (l m : List Action) (s : State) : runActs (l ++ m) s = runActs m (runActs l s) := by
  induction l generalizing s with
  | nil => rfl
  | cons a l ih => simp [ih]

theorem issue_bigStep {s : State} (h : s.view = .bigStep) (acts : List Action) : issue acts s = runActs acts s := by
  simp [issue, h]

/-! ### What an action emits -/

/-- The event an action emits, if any (R28). -/
def eventOf : Action → Option Event
  | .pin p l => some (.pinWrite p l)
  | .respond v => some (.respond v)
  | .setN _ | .setInited | .writeShadow _ _ | .loadFrame _ | .drawn => none

/-- A command's trace is its actions' events, after what was emitted before. -/
theorem runActs_emitted (l : List Action) (s : State) :
    (runActs l s).emitted = (l.filterMap eventOf).reverse ++ s.emitted := by
  induction l generalizing s with
  | nil => rfl
  | cons a l ih => cases a <;> simp [ih, eventOf, List.filterMap_cons]

/-! ### What no action changes -/

/-- Configuration, fault, sequencer, platform levels, host list and view are outside every action. -/
theorem runActs_keeps (l : List Action) (s : State) :
    (runActs l s).cfg = s.cfg ∧ (runActs l s).fault = s.fault ∧ (runActs l s).seq = s.seq ∧
      (runActs l s).line = s.line ∧ (runActs l s).host = s.host ∧ (runActs l s).view = s.view := by
  induction l generalizing s with
  | nil => simp
  | cons a l ih => cases a <;> simp [ih]

/-- What a small step changes besides the sequencer: the same list. -/
theorem act_keeps (a : Action) (s : State) :
    (act a s).cfg = s.cfg ∧ (act a s).fault = s.fault ∧ (act a s).seq = s.seq ∧
      (act a s).line = s.line ∧ (act a s).host = s.host ∧ (act a s).view = s.view := by
  cases a <;> simp

/-- No action reads or writes the sequencer. -/
theorem runActs_seq (l : List Action) (s : State) (q : Seq) :
    runActs l { s with seq := q } = { runActs l s with seq := q } := by
  induction l generalizing s with
  | nil => rfl
  | cons a l ih =>
    rw [runActs_cons, runActs_cons, ← ih]
    cases a <;> rfl

/-! ### Small steps -/

/-- The sequencer with these actions left. -/
def seqAt : List Action → Seq
  | [] => .idle
  | a :: rest => .busy (a :: rest)

/-- Settling runs the state writes before the next event and stops there (R28). -/
theorem settle_eq (l : List Action) (s : State) :
    ∃ pre post, l = pre ++ post ∧ (∀ a ∈ pre, silent a = true) ∧ (∀ a ∈ post.head?, silent a = false) ∧
      settle l s = { runActs pre s with seq := seqAt post } := by
  induction l generalizing s with
  | nil => exact ⟨[], [], rfl, by simp, by simp, rfl⟩
  | cons a l ih =>
    by_cases ha : silent a = true
    · obtain ⟨pre, post, h1, h2, h3, h4⟩ := ih (act a s)
      refine ⟨a :: pre, post, by rw [h1, List.cons_append], ?_, h3, by rw [settle, if_pos ha, h4, runActs_cons]⟩
      intro b hb
      rcases List.mem_cons.mp hb with rfl | hb
      · exact ha
      · exact h2 b hb
    · exact ⟨[], a :: l, rfl, by simp, by simpa using ha, by rw [settle, if_neg ha]; rfl⟩

theorem eventOf_silent {a : Action} (h : silent a = true) : eventOf a = none := by
  cases a <;> first | rfl | simp [silent] at h

theorem eventOf_loud {a : Action} (h : silent a = false) : ∃ e, eventOf a = some e := by
  cases a <;> first | exact ⟨_, rfl⟩ | simp [silent] at h

/-- What settling never changes; it emits nothing. -/
theorem settle_keeps (l : List Action) (s : State) :
    (settle l s).cfg = s.cfg ∧ (settle l s).fault = s.fault ∧ (settle l s).line = s.line ∧
      (settle l s).host = s.host ∧ (settle l s).view = s.view ∧ (settle l s).emitted = s.emitted := by
  obtain ⟨pre, post, -, h2, -, h4⟩ := settle_eq l s
  obtain ⟨k1, k2, -, k4, k5, k6⟩ := runActs_keeps pre s
  have he : pre.filterMap eventOf = [] := by
    rw [List.filterMap_eq_nil_iff]
    exact fun a ha => eventOf_silent (h2 a ha)
  rw [h4]
  exact ⟨k1, k2, k4, k5, k6, by simp [runActs_emitted, he]⟩

/-! ### Link actions: the transport -/

/-- Actions of the transport: pin writes and the frame (R120). -/
def isLink : Action → Bool
  | .pin _ _ | .loadFrame _ => true
  | .respond _ | .setN _ | .setInited | .writeShadow _ _ | .drawn => false

/-- The transport writes frame, pins, trace and chips, and nothing else (R120). -/
theorem runActs_link {l : List Action} (h : l.all isLink = true) (s : State) :
    runActs l s = { s with
      frame := (runActs l s).frame
      pin := (runActs l s).pin
      emitted := (runActs l s).emitted
      chain := (runActs l s).chain } := by
  induction l generalizing s with
  | nil => rfl
  | cons a l ih =>
    simp only [List.all_cons, Bool.and_eq_true] at h
    cases a <;> simp only [isLink, reduceCtorEq, false_and] at h <;>
      · rw [runActs_cons, ih h.2]
        rfl

theorem bitActs_link (b : Bool) : (bitActs b).all isLink = true := rfl

theorem shiftOutActs_link (m : Bool) (v : Byte) : (shiftOutActs m v).all isLink = true := by
  simp [shiftOutActs, bitActs, isLink]

theorem xferActs_link (n a : Nat) (op d : Byte) : (xferActs n a op d).all isLink = true := by
  simp [xferActs, isLink, shiftOutActs, bitActs]

end Sys2Proof.Machine
end

