-- ==== Sys2Proof/Laws/Memory.lean ====
section
/-! SUPPORT. The byte spaces: a read after a write, and every write keeps the canonical form and the bounds. -/

namespace Sys2Proof.Machine

/-- Every address of a canonical list's tail lies above its first one. -/
theorem Memory.wf_cons {k : Nat} {v : Byte} {m : Memory} (h : Memory.wf ((k, v) :: m) = true) :
    Memory.wf m = true ∧ ∀ c ∈ m, k < c.1 := by
  induction m generalizing k v with
  | nil => simp [Memory.wf]
  | cons c m ih =>
    obtain ⟨k', v'⟩ := c
    simp only [Memory.wf, Bool.and_eq_true, decide_eq_true_eq] at h
    refine ⟨h.2, ?_⟩
    intro c hc
    rcases List.mem_cons.mp hc with rfl | hc
    · exact h.1
    · exact Nat.lt_trans h.1 ((ih h.2).2 c hc)

/-- The converse: a canonical tail above a new first address. -/
theorem Memory.wf_of_lt {k : Nat} {v : Byte} {m : Memory} (h : Memory.wf m = true) (hk : ∀ c ∈ m, k < c.1) :
    Memory.wf ((k, v) :: m) = true := by
  cases m with
  | nil => rfl
  | cons c m =>
    obtain ⟨k', v'⟩ := c
    simp only [Memory.wf, Bool.and_eq_true, decide_eq_true_eq]
    exact ⟨hk (k', v') (by simp), h⟩

theorem Memory.read_write_same (m : Memory) (a : Nat) (v : Byte) : (m.write a v).read a = some v := by
  induction m with
  | nil => simp [Memory.write, Memory.read]
  | cons c m ih =>
    obtain ⟨k, x⟩ := c
    simp only [Memory.write]
    split
    · simp [Memory.read]
    · split
      · simp [Memory.read]
      · simp [Memory.read, *]

theorem Memory.read_write_other (m : Memory) {a b : Nat} (v : Byte) (hab : b ≠ a) :
    (m.write a v).read b = m.read b := by
  induction m with
  | nil => simp [Memory.write, Memory.read, hab]
  | cons c m ih =>
    obtain ⟨k, x⟩ := c
    simp only [Memory.write]
    split
    · simp [Memory.read, hab]
    · split
      · subst_vars
        simp [Memory.read, hab]
      · simp only [Memory.read, ih]

theorem Memory.read_write (m : Memory) (a b : Nat) (v : Byte) :
    (m.write a v).read b = if b = a then some v else m.read b := by
  split
  · subst_vars
    exact m.read_write_same _ v
  · exact m.read_write_other v ‹_›

/-- What a written list may hold: the new byte, or a cell that was there. -/
theorem Memory.mem_write {m : Memory} {a : Nat} {v : Byte} {c : Host.Cell} (h : c ∈ m.write a v) :
    c = (a, v) ∨ c ∈ m := by
  induction m with
  | nil => simp_all [Memory.write]
  | cons c' m ih =>
    obtain ⟨k, x⟩ := c'
    simp only [Memory.write] at h
    split at h
    · simpa using h
    · split at h
      · rcases List.mem_cons.mp h with h | h
        · exact .inl h
        · exact .inr (List.mem_cons_of_mem _ h)
      · rcases List.mem_cons.mp h with h | h
        · exact .inr (by simp [h])
        · exact (ih h).imp_right (List.mem_cons_of_mem _)

/-- A write keeps the canonical form. -/
theorem Memory.write_wf {m : Memory} (a : Nat) (v : Byte) (h : m.wf = true) : (m.write a v).wf = true := by
  induction m with
  | nil => rfl
  | cons c m ih =>
    obtain ⟨k, x⟩ := c
    have ⟨hm, hk⟩ := Memory.wf_cons h
    simp only [Memory.write]
    split
    · refine Memory.wf_of_lt h fun c hc => ?_
      rcases List.mem_cons.mp hc with rfl | hc
      · assumption
      · exact Nat.lt_trans ‹_› (hk c hc)
    · split
      · subst_vars
        exact Memory.wf_of_lt hm hk
      · refine Memory.wf_of_lt (ih hm) fun c hc => ?_
        rcases Memory.mem_write hc with rfl | hc
        · exact Nat.lt_of_le_of_ne (Nat.le_of_not_lt ‹_›) (Ne.symm ‹_›)
        · exact hk c hc

/-- A write inside the bounds keeps the bounds. -/
theorem Memory.write_inside {m : Memory} {lo hi a : Nat} (v : Byte) (h : m.inside lo hi = true) (hlo : lo ≤ a)
    (hhi : a < hi) : (m.write a v).inside lo hi = true := by
  simp only [Memory.inside, List.all_eq_true, Bool.and_eq_true, decide_eq_true_eq] at *
  intro c hc
  rcases Memory.mem_write hc with rfl | hc
  · exact ⟨hlo, hhi⟩
  · exact h c hc

theorem Memory.writeAll_wf {m : Memory} (k : Nat) (bs : List Byte) (h : m.wf = true) :
    (m.writeAll k bs).wf = true := by
  induction bs generalizing m k with
  | nil => exact h
  | cons b bs ih => exact ih (k + 1) (Memory.write_wf k b h)

theorem Memory.writeAll_inside {m : Memory} {hi : Nat} (k : Nat) (bs : List Byte) (h : m.inside 0 hi = true)
    (hk : k + bs.length ≤ hi) : (m.writeAll k bs).inside 0 hi = true := by
  induction bs generalizing m k with
  | nil => exact h
  | cons b bs ih =>
    simp only [List.length_cons] at hk
    exact ih (k + 1) (Memory.write_inside b h (Nat.zero_le _) (by omega)) (by omega)

/-- After consecutive writes, an address reads the byte written there, and any other what it read before. -/
theorem Memory.read_writeAll (m : Memory) (k : Nat) (bs : List Byte) (a : Nat) :
    (m.writeAll k bs).read a = if k ≤ a ∧ a < k + bs.length then bs[a - k]? else m.read a := by
  induction bs generalizing m k with
  | nil =>
    simp only [Memory.writeAll, List.length_nil, Nat.add_zero]
    rw [if_neg (by omega)]
  | cons b bs ih =>
    simp only [Memory.writeAll, ih, Memory.read_write, List.length_cons]
    by_cases h1 : k + 1 ≤ a ∧ a < k + 1 + bs.length
    · rw [if_pos h1, if_pos (by omega), show a - k = (a - (k + 1)) + 1 by omega, List.getElem?_cons_succ]
    · rw [if_neg h1]
      by_cases h2 : a = k
      · subst h2
        simp
      · rw [if_neg h2, if_neg (by omega)]

end Sys2Proof.Machine
end

