-- ==== Sys2Proof/Laws/Transport.lean ====
section
/-! SUPPORT. What SHIFTOUT and XFER send and where they leave the lines. -/

namespace Sys2Proof.Machine

/-! ### Frame bytes (R124) -/

theorem frameBytes_length (n a : Nat) (op d : Byte) : (frameBytes n a op d).length = 2 * n := by
  simp [frameBytes]

/-- The two bytes of device e in slot order: data, then opcode (R55). -/
def devicePair (a : Nat) (op d : Byte) (e : Nat) : List Byte := if e = a then [d, op] else [0x00, 0x00]

theorem devicePair_length (a : Nat) (op d : Byte) (e : Nat) : (devicePair a op d e).length = 2 := by
  simp only [devicePair]; split <;> rfl

theorem flatMap_devicePair_length (n a : Nat) (op d : Byte) :
    ((List.range n).flatMap (devicePair a op d)).length = 2 * n := by
  induction n with
  | zero => rfl
  | succ n ih =>
    simp only [List.range_succ, List.flatMap_append, List.length_append, ih, List.flatMap_cons,
      List.flatMap_nil, List.append_nil, devicePair_length]
    omega

/-- Without the addressed device among the first n, its first n pairs are zero. -/
theorem flatMap_devicePair_zero {n a : Nat} (op d : Byte) (h : n ≤ a) :
    (List.range n).flatMap (devicePair a op d) = List.replicate (2 * n) 0x00 := by
  induction n with
  | zero => rfl
  | succ n ih =>
    have hne : n ≠ a := by omega
    simp only [List.range_succ, List.flatMap_append, ih (by omega), List.flatMap_cons, List.flatMap_nil,
      List.append_nil, devicePair, if_neg hne, Nat.mul_succ, List.replicate_add]
    rfl

/-- R55: the frame is the devices' pairs, device 0 first. -/
theorem frameBytes_eq {n a : Nat} (op d : Byte) (h : a < n) :
    frameBytes n a op d = (List.range n).flatMap (devicePair a op d) := by
  induction n with
  | zero => omega
  | succ n ih =>
    simp only [List.range_succ, List.flatMap_append, List.flatMap_cons, List.flatMap_nil, List.append_nil]
    have hsplit : List.replicate (2 * (n + 1)) (0x00#8) = List.replicate (2 * n) 0x00 ++ [0x00, 0x00] := by
      rw [Nat.mul_succ, List.replicate_add]; rfl
    unfold frameBytes
    rw [hsplit]
    by_cases ha : a < n
    · rw [← ih ha]
      unfold frameBytes
      rw [List.set_append_left _ _ (by simp; omega), List.set_append_left _ _ (by simp; omega)]
      simp [devicePair, show n ≠ a by omega]
    · obtain rfl : a = n := by omega
      rw [flatMap_devicePair_zero op d (Nat.le_refl a), List.set_append_right _ _ (by simp),
        List.set_append_right _ _ (by simp)]
      simp [devicePair]

/-! ### Events -/

theorem events_bitActs (b : Bool) : (bitActs b).filterMap eventOf = bitEvents b := by
  cases b <;> rfl

theorem filterMap_flatMap_acts {α : Type} (f : α → List Action) (g : α → List Event)
    (h : ∀ x, (f x).filterMap eventOf = g x) (l : List α) :
    (l.flatMap f).filterMap eventOf = l.flatMap g := by
  induction l with
  | nil => rfl
  | cons x l ih => simp [ih, h]

/-- SHIFTOUT MSB-first sends the byte's events (R121). -/
theorem events_shiftOut (v : Byte) : (shiftOutActs true v).filterMap eventOf = byteEvents v := by
  unfold shiftOutActs
  rw [filterMap_flatMap_acts bitActs bitEvents events_bitActs]
  rfl

/-- R126: XFER's events are the devices' words, far device first. -/
theorem events_xfer {n a : Nat} (op d : Byte) (h : a < n) :
    (xferActs n a op d).filterMap eventOf = xferEvents n a op d := by
  have hbytes : (frameBytes n a op d).reverse.flatMap byteEvents =
      (List.range n).reverse.flatMap (deviceEvents a op d) := by
    rw [frameBytes_eq op d h, List.reverse_flatMap, List.flatMap_assoc]
    congr 1
    funext e
    simp only [Function.comp, devicePair, deviceEvents]
    split <;> simp
  unfold xferActs xferEvents
  simp only [List.filterMap_cons, eventOf, List.filterMap_append,
    filterMap_flatMap_acts _ byteEvents events_shiftOut, hbytes, List.filterMap_nil]

theorem byteEvents_length (v : Byte) : (byteEvents v).length = 24 := rfl

theorem deviceEvents_length (a : Nat) (op d : Byte) (e : Nat) : (deviceEvents a op d e).length = 48 := by
  unfold deviceEvents; split <;> rfl

theorem flatMap_length_const {α β : Type} (f : α → List β) (k : Nat) (h : ∀ x, (f x).length = k) (l : List α) :
    (l.flatMap f).length = k * l.length := by
  induction l with
  | nil => rfl
  | cons x l ih => simp [ih, h, Nat.mul_succ, Nat.add_comm]

/-- R127: `2 + 48N` events. -/
theorem xferEvents_length (n a : Nat) (op d : Byte) : (xferEvents n a op d).length = xferLength n := by
  simp [xferEvents, xferLength, flatMap_length_const _ 48 (deviceEvents_length a op d)]
  omega

/-! ### Lines -/

/-- SHIFTOUT ends with CLK low and DIN at the last bit's level (R121). -/
theorem runActs_bits_pin (bs : List Bool) (b : Bool) (s : State) :
    (runActs ((bs ++ [b]).flatMap bitActs) s).pin = ⟨(Level.ofBit b).toPin, .low, s.pin.cs⟩ := by
  induction bs generalizing s with
  | nil => cases b <;> rfl
  | cons c bs ih =>
    rw [List.cons_append, List.flatMap_cons, runActs_append, ih]
    rfl

theorem shiftOut_pin (v : Byte) (s : State) :
    (runActs (shiftOutActs true v) s).pin = ⟨(Level.ofBit (v.getLsbD 0)).toPin, .low, s.pin.cs⟩ :=
  runActs_bits_pin [v.getLsbD 7, v.getLsbD 6, v.getLsbD 5, v.getLsbD 4, v.getLsbD 3, v.getLsbD 2, v.getLsbD 1]
    (v.getLsbD 0) s

theorem shiftOut_many_pin (vs : List Byte) (v : Byte) (s : State) :
    (runActs ((vs ++ [v]).flatMap (shiftOutActs true)) s).pin =
      ⟨(Level.ofBit (v.getLsbD 0)).toPin, .low, s.pin.cs⟩ := by
  induction vs generalizing s with
  | nil => simp [shiftOut_pin]
  | cons c vs ih =>
    rw [List.cons_append, List.flatMap_cons, runActs_append, ih, shiftOut_pin]

/-- The last byte on the wire is device 0's data byte (R126). -/
theorem frameBytes_reverse {n a : Nat} (op d : Byte) (h : a < n) :
    ∃ vs, (frameBytes n a op d).reverse = vs ++ [if a = 0 then d else 0x00] := by
  obtain ⟨m, rfl⟩ : ∃ m, n = m + 1 := ⟨n - 1, by omega⟩
  rw [frameBytes_eq op d h, List.range_succ_eq_map, List.flatMap_cons]
  refine ⟨(((List.map Nat.succ (List.range m)).flatMap (devicePair a op d)).reverse ++
    [if a = 0 then op else 0x00]), ?_⟩
  unfold devicePair
  by_cases ha : a = 0
  · subst ha; simp
  · simp [ha, Ne.symm ha]

/-- R125, R127: XFER ends with CS high, CLK low and DIN at the last bit of device 0's data byte. -/
theorem xfer_pin {n a : Nat} (op d : Byte) (h : a < n) (s : State) :
    (runActs (xferActs n a op d) s).pin =
      ⟨(Level.ofBit ((if a = 0 then d else 0x00).getLsbD 0)).toPin, .low, .high⟩ := by
  obtain ⟨vs, hvs⟩ := frameBytes_reverse op d h
  unfold xferActs
  rw [hvs]
  simp only [runActs_cons, runActs_append, act_pin, runActs_nil, pinWrite_pin, shiftOut_many_pin,
    act_loadFrame_pin]
  rfl

theorem runActs_link_frame_pinOnly {l : List Action} (h : ∀ a ∈ l, ∃ p v, a = .pin p v) (s : State) :
    (runActs l s).frame = s.frame := by
  induction l generalizing s with
  | nil => rfl
  | cons a l ih =>
    obtain ⟨p, v, rfl⟩ := h a (by simp)
    rw [runActs_cons, ih fun a ha => h a (by simp [ha])]
    rfl

/-- R124: after XFER the frame buffer's first 2N bytes are the frame's. -/
theorem xfer_frame (n a : Nat) (op d : Byte) (s : State) :
    (runActs (xferActs n a op d) s).frame = s.frame.writeAll 0 ((frameBytes n a op d).take 16) := by
  unfold xferActs
  rw [runActs_cons, runActs_link_frame_pinOnly]
  · rfl
  · intro x hx
    simp only [List.mem_cons, List.mem_append, List.mem_flatMap, shiftOutActs, bitActs, List.not_mem_nil,
      or_false] at hx
    rcases hx with rfl | ⟨_, _, _, _, rfl | rfl | rfl⟩ | rfl <;> exact ⟨_, _, rfl⟩

/-- Everything XFER can do to the block (R120, R124 to R127). -/
theorem runActs_xfer {n a : Nat} (op d : Byte) (h : a < n) (s : State) :
    runActs (xferActs n a op d) s = { s with
      frame := s.frame.writeAll 0 ((frameBytes n a op d).take 16)
      pin := ⟨(Level.ofBit ((if a = 0 then d else 0x00).getLsbD 0)).toPin, .low, .high⟩
      emitted := (xferEvents n a op d).reverse ++ s.emitted
      chain := (runActs (xferActs n a op d) s).chain } := by
  rw [runActs_link (xferActs_link n a op d) s, xfer_frame, xfer_pin op d h, runActs_emitted, events_xfer op d h]

end Sys2Proof.Machine
end

