-- ==== Sys2Proof/Laws/Chain.lean ====
section
/-! SUPPORT. The chip chain under the transport: sixteen clock edges push one word in, a frame leaves each device
its own word, and the CS rising edge latches it (R73, R74, R77, R78). -/

namespace Sys2Proof.Machine

/-! ### Shifting with CS low: every device shifts -/

/-- The chain after a list of bits, every device shifting. -/
def feed : List Bool → List Chip → List Chip
  | [], ch => ch
  | b :: bs, ch => feed bs (shiftChain (fun _ => true) b ch)

/-- A shift register after a list of bits. -/
def feedReg : List Bool → Half → Half
  | [], x => x
  | b :: bs, x => feedReg bs (BitVec.shiftConcat x b)

/-- The bits that leave a shift register meanwhile. -/
def spill : List Bool → Half → List Bool
  | [], _ => []
  | b :: bs, x => x.msb :: spill bs (BitVec.shiftConcat x b)

@[simp] theorem feed_nil (bs : List Bool) : feed bs [] = [] := by
  induction bs with
  | nil => rfl
  | cons b bs ih => simpa [feed, shiftChain] using ih

/-- The first device takes the bits and hands on what it spills. -/
theorem feed_cons (bs : List Bool) (c : Chip) (ch : List Chip) :
    feed bs (c :: ch) = { c with sr := feedReg bs c.sr } :: feed (spill bs c.sr) ch := by
  induction bs generalizing c ch with
  | nil => rfl
  | cons b bs ih => simp [feed, shiftChain, feedReg, spill, ih]

theorem feed_append (bs cs : List Bool) (ch : List Chip) : feed (bs ++ cs) ch = feed cs (feed bs ch) := by
  induction bs generalizing ch with
  | nil => rfl
  | cons b bs ih => simp [feed, ih]

/-- The sixteen bits of a word, bit 15 first (R56). -/
def wordBits (w : Half) : List Bool :=
  [15, 14, 13, 12, 11, 10, 9, 8, 7, 6, 5, 4, 3, 2, 1, 0].map (fun i => w.getLsbD i)

/-- Sixteen bits replace the register's word. -/
theorem feedReg_word (w x : Half) : feedReg (wordBits w) x = w := by
  simp only [wordBits, List.map_cons, List.map_nil, feedReg]
  ext i hi
  interval_cases i <;> simp [BitVec.getElem_shiftConcat, BitVec.getLsbD_eq_getElem]

/-- And the old word leaves it, bit 15 first. -/
theorem spill_word (w x : Half) : spill (wordBits w) x = wordBits x := by
  simp only [wordBits, List.map_cons, List.map_nil, spill, BitVec.msb_eq_getLsbD_last,
    BitVec.getLsbD_shiftConcat]
  simp

/-- Sixteen edges: device 0 holds the word sent and every other device its predecessor's word (R73). -/
theorem feed_word (w : Half) (ch : List Chip) :
    (feed (wordBits w) ch).map Chip.sr = (w :: ch.map Chip.sr).take ch.length := by
  induction ch generalizing w with
  | nil => simp
  | cons c ch ih => simp [feed_cons, feedReg_word, spill_word, ih]

theorem feed_length (bs : List Bool) (ch : List Chip) : (feed bs ch).length = ch.length := by
  induction ch generalizing bs with
  | nil => simp
  | cons c ch ih => simp [feed_cons, ih]

/-- Shifting changes shift registers only. -/
theorem feed_rest (bs : List Bool) (ch : List Chip) :
    (feed bs ch).map (fun c => (c.kind, c.reg)) = ch.map (fun c => (c.kind, c.reg)) := by
  induction ch generalizing bs with
  | nil => simp
  | cons c ch ih => simp [feed_cons, ih]

/-- A list of words, the last one sent ending in device 0. -/
theorem feed_words (ws : List Half) (ch : List Chip) :
    (feed (ws.flatMap wordBits) ch).map Chip.sr = (ws.reverse ++ ch.map Chip.sr).take ch.length := by
  induction ws generalizing ch with
  | nil => simp [feed]
  | cons w ws ih =>
    rw [List.flatMap_cons, feed_append, ih, feed_word, feed_length]
    simp only [List.reverse_cons, List.append_assoc, List.singleton_append, List.take_append,
      List.take_take]
    congr 2
    omega

/-! ### The transport's bits are the frame's words -/

/-- A word's bits are its opcode byte's above its data byte's (R56). -/
theorem getLsbD_pair (op d : Byte) (i : Nat) :
    BitVec.getLsbD (w := 16) (op ++ d) i = if i < 8 then d.getLsbD i else op.getLsbD (i - 8) :=
  BitVec.getLsbD_append

theorem bitOrder_pair (op d : Byte) : bitOrder true op ++ bitOrder true d = wordBits (op ++ d) := by
  simp only [wordBits, List.map_cons, List.map_nil, getLsbD_pair]
  rfl

/-- The frame's bytes in the order sent are its words, far device first (R56). -/
theorem frame_bits {n a : Nat} (op d : Byte) (h : a < n) :
    (frameBytes n a op d).reverse.flatMap (bitOrder true) =
      ((List.range n).reverse.map (frameWord a op d)).flatMap wordBits := by
  rw [frameBytes_eq op d h, List.reverse_flatMap, List.flatMap_assoc, List.flatMap_map]
  congr 1
  funext e
  simp only [Function.comp, devicePair, frameWord]
  split
  · simp [bitOrder_pair]
  · simpa using bitOrder_pair 0 0

theorem shiftsNow_low : shiftsNow true = fun _ => true := rfl

/-- CLK is electrically low: driven low, or left low by the platform (R72, R252). -/
abbrev ClkLow (s : State) : Prop := lineLow s.pin.clk s.line.clk = true

/-- CS is electrically high: driven high, or left high by the platform. -/
abbrev CsHigh (s : State) : Prop := lineLow s.pin.cs s.line.cs = false

@[simp] theorem lineLow_low (l : Level) : lineLow .low l = true := rfl

@[simp] theorem lineLow_high (l : Level) : lineLow .high l = false := rfl

theorem CleanLink.clkLow {s : State} (h : CleanLink s) : ClkLow s := by simp only [ClkLow, h.1, lineLow_low]

theorem CleanLink.csHigh {s : State} (h : CleanLink s) : CsHigh s := by simp only [CsHigh, h.2, lineLow_high]

/-- On a link with CS driven low and CLK low, sending bits feeds them to the chain (R72, R73). -/
theorem runActs_bits_chain (bs : List Bool) (s : State) (hcs : s.pin.cs = .low) (hclk : ClkLow s) :
    (runActs (bs.flatMap bitActs) s).chain = feed bs s.chain ∧
      (runActs (bs.flatMap bitActs) s).pin.cs = .low ∧ ClkLow (runActs (bs.flatMap bitActs) s) := by
  induction bs generalizing s with
  | nil => exact ⟨rfl, hcs, hclk⟩
  | cons b bs ih =>
    have hstep : (runActs (bitActs b) s).chain = shiftChain (fun _ => true) b s.chain ∧
        (runActs (bitActs b) s).pin.cs = .low ∧ ClkLow (runActs (bitActs b) s) := by
      have hc : lineLow s.pin.clk s.line.clk = true := hclk
      cases b <;>
        simp [bitActs, chainAfter, Pins.set, Level.ofBit, Level.toPin, hcs, hc, shiftsNow_low]
      · exact ⟨rfl, rfl⟩
      · rfl
    rw [List.flatMap_cons, runActs_append]
    have h := ih (runActs (bitActs b) s) hstep.2.1 hstep.2.2
    rw [hstep.1] at h
    exact h

/-- XFER's bytes are fed as the frame's words. -/
theorem runActs_bytes_chain (vs : List Byte) (s : State) (hcs : s.pin.cs = .low) (hclk : ClkLow s) :
    (runActs (vs.flatMap (shiftOutActs true)) s).chain = feed (vs.flatMap (bitOrder true)) s.chain ∧
      (runActs (vs.flatMap (shiftOutActs true)) s).pin.cs = .low ∧
        ClkLow (runActs (vs.flatMap (shiftOutActs true)) s) := by
  have h : vs.flatMap (shiftOutActs true) = (vs.flatMap (bitOrder true)).flatMap bitActs := by
    rw [List.flatMap_assoc]; rfl
  rw [h]
  exact runActs_bits_chain _ s hcs hclk

/-- What a frame does to a chain whose CLK is low: fed, then latched. -/
def chainXfer (n a : Nat) (op d : Byte) (ch : List Chip) : List Chip :=
  (feed (((List.range n).reverse.map (frameWord a op d)).flatMap wordBits) ch).map Chip.latch

/-- R77, R78: XFER with CLK low at its start is the frame fed to the chain, then the latch of every device. -/
theorem xfer_chain {n a : Nat} (op d : Byte) (h : a < n) (s : State) (hs : ClkLow s) :
    (runActs (xferActs n a op d) s).chain = chainXfer n a op d s.chain := by
  have hb := runActs_bytes_chain (frameBytes n a op d).reverse
    (pinWrite .cs .low (act (.loadFrame (frameBytes n a op d)) s)) rfl hs
  unfold xferActs
  simp only [runActs_cons, runActs_append, act_pin, runActs_nil, pinWrite_chain, chainAfter]
  rw [if_pos (by simp [hb.2.1, lineLow]), hb.1, frame_bits op d h]
  rfl

/-- The words the devices hold before the latch (R77, R78). -/
theorem xfer_words (n a : Nat) (op d : Byte) (ch : List Chip) :
    (feed (((List.range n).reverse.map (frameWord a op d)).flatMap wordBits) ch).map Chip.sr =
      ((List.range n).map (frameWord a op d) ++ ch.map Chip.sr).take ch.length := by
  rw [feed_words, ← List.map_reverse, List.reverse_reverse]

/-! ### Registers after a frame -/

/-- What one device of a chain holds in a register. -/
def chainReg (ch : List Chip) (e k : Nat) : Option Byte := ch[e]?.bind (fun c => c.reg.read k)

theorem devReg_eq (s : State) (e k : Nat) : devReg s e k = chainReg s.chain e k := rfl

/-- A latch seen through one register (R74). -/
theorem latch_read (c : Chip) (k : Nat) :
    c.latch.reg.read k =
      if k = (c.sr.extractLsb' 8 4).toNat ∧ k ≠ 0 then some (c.sr.extractLsb' 0 8) else c.reg.read k := by
  unfold Chip.latch
  by_cases h : c.sr.extractLsb' 8 4 = 0#4
  · rw [if_pos h, h]
    rw [if_neg (by rintro ⟨h1, h2⟩; exact h2 (by simpa using h1))]
  · simp only [if_neg h, Memory.read_write]
    have h0 : (c.sr.extractLsb' 8 4).toNat ≠ 0 := fun h' => h (BitVec.eq_of_toNat_eq (by simpa using h'))
    by_cases hk : k = (c.sr.extractLsb' 8 4).toNat
    · rw [if_pos hk, if_pos ⟨hk, hk ▸ h0⟩]
    · rw [if_neg hk, if_neg fun h' => hk h'.1]

theorem latch_sr (c : Chip) : c.latch.sr = c.sr := by
  unfold Chip.latch; dsimp only; split <;> rfl

theorem latch_kind (c : Chip) : c.latch.kind = c.kind := by
  unfold Chip.latch; dsimp only; split <;> rfl

theorem chainXfer_length (n a : Nat) (op d : Byte) (ch : List Chip) :
    (chainXfer n a op d ch).length = ch.length := by
  simp [chainXfer, feed_length]

theorem chainXfer_sr (n a : Nat) (op d : Byte) (ch : List Chip) :
    (chainXfer n a op d ch).map Chip.sr =
      ((List.range n).map (frameWord a op d) ++ ch.map Chip.sr).take ch.length := by
  rw [← xfer_words n a op d ch]
  simp [chainXfer, Function.comp_def, latch_sr]

/-- Feeding keeps registers. -/
theorem feed_getElem? (bs : List Bool) (ch : List Chip) (e : Nat) :
    (feed bs ch)[e]?.map (fun c => (c.kind, c.reg)) = ch[e]?.map (fun c => (c.kind, c.reg)) := by
  have h := congrArg (fun l => l[e]?) (feed_rest bs ch)
  simpa [List.getElem?_map] using h

/-- After a frame each device has latched the word it then holds (R74, R77, R78). -/
theorem chainXfer_reg_self (n a : Nat) (op d : Byte) (ch : List Chip) (e k : Nat) (c : Chip)
    (hc : (chainXfer n a op d ch)[e]? = some c) :
    chainReg (chainXfer n a op d ch) e k =
      if k = (c.sr.extractLsb' 8 4).toNat ∧ k ≠ 0 then some (c.sr.extractLsb' 0 8) else chainReg ch e k := by
  unfold chainXfer at hc ⊢
  rw [List.getElem?_map] at hc
  obtain ⟨c', hc', rfl⟩ := Option.map_eq_some_iff.mp hc
  have hf := feed_getElem? (((List.range n).reverse.map (frameWord a op d)).flatMap wordBits) ch e
  rw [hc'] at hf
  have hreg : chainReg ch e k = c'.reg.read k := by
    unfold chainReg
    cases hch : ch[e]? with
    | none => simp [hch] at hf
    | some c'' =>
      rw [hch] at hf
      simp only [Option.map_some, Option.some.injEq, Prod.mk.injEq] at hf
      simp [hf.2]
  simp only [chainReg, List.getElem?_map, hc', Option.map_some, Option.bind_some, latch_read, latch_sr]
  rw [show c'.reg.read k = chainReg ch e k from hreg.symm]
  rfl

theorem frameWord_address (a : Nat) (op d : Byte) :
    BitVec.extractLsb' 8 4 (frameWord a op d a) = op.extractLsb' 0 4 := by
  unfold frameWord
  rw [if_pos rfl]
  ext i hi
  simp only [BitVec.getElem_extractLsb', getLsbD_pair]
  rw [if_neg (by omega)]
  congr 1
  omega

theorem frameWord_data (a : Nat) (op d : Byte) : BitVec.extractLsb' 0 8 (frameWord a op d a) = d := by
  unfold frameWord
  rw [if_pos rfl]
  ext i hi
  simp only [BitVec.getElem_extractLsb', getLsbD_pair]
  rw [if_pos (by omega)]
  simp [BitVec.getLsbD_eq_getElem hi]

/-- R77: with as many chips as N, one frame writes one register of one device. -/
theorem chainXfer_reg {n a : Nat} (op d : Byte) (h : a < n) (ch : List Chip) (hl : ch.length = n) (e k : Nat) :
    chainReg (chainXfer n a op d ch) e k =
      if e = a ∧ k = (op.extractLsb' 0 4).toNat ∧ (op.extractLsb' 0 4).toNat ≠ 0 then some d
      else chainReg ch e k := by
  by_cases he : e < n
  · have hlen : e < (chainXfer n a op d ch).length := by rw [chainXfer_length]; omega
    have hc : (chainXfer n a op d ch)[e]? = some (chainXfer n a op d ch)[e] := List.getElem?_eq_getElem hlen
    have hsr : (chainXfer n a op d ch)[e].sr = frameWord a op d e := by
      have hm := congrArg (fun l => l[e]?) (chainXfer_sr n a op d ch)
      simp only [List.getElem?_map, hc, Option.map_some, hl] at hm
      rw [List.getElem?_take_of_lt he, List.getElem?_append_left (by simpa using he)] at hm
      simpa [he] using hm
    rw [chainXfer_reg_self n a op d ch e k _ hc, hsr]
    by_cases hea : e = a
    · subst hea
      rw [frameWord_address, frameWord_data]
      by_cases hk : k = (op.extractLsb' 0 4).toNat
      · subst hk; simp
      · rw [if_neg fun h' => hk h'.1, if_neg fun h' => hk h'.2.1]
    · have h0 : (BitVec.extractLsb' 8 4 (frameWord a op d e)).toNat = 0 := by simp [frameWord, hea]
      rw [h0, if_neg fun h' => h'.2 h'.1, if_neg fun h' => hea h'.1]
  · have hn : (chainXfer n a op d ch)[e]? = none := by
      rw [List.getElem?_eq_none]; rw [chainXfer_length]; omega
    have hn' : ch[e]? = none := by rw [List.getElem?_eq_none]; omega
    rw [if_neg (by omega)]
    simp [chainReg, hn, hn']

end Sys2Proof.Machine
end

