-- ==== Sys2Proof/Laws/Prologue.lean ====
section
/-! SUPPORT. The common prologue (R216) and the tests of R140, R142, R156, each said once. -/

namespace Sys2Proof.Machine

theorem whenLive_live {s : State} (h : Live s) (k : Host.Outcome State Fault Refusal) : whenLive s k = k := by
  simp [whenLive, h.1, h.2.1, h.2.2]

theorem whenInited_ready {s : State} (h : Live s) (hi : s.inited = true)
    (k : Host.Outcome State Fault Refusal) : whenInited s k = k := by
  simp [whenInited, whenLive_live h, hi]

theorem whenInited_fresh {s : State} (h : Live s) (hi : s.inited = false)
    (k : Host.Outcome State Fault Refusal) : whenInited s k = .next (raise .uninitialised s) := by
  simp [whenInited, whenLive_live h, hi]

theorem whenNotInited_fresh {s : State} (h : Live s) (hi : s.inited = false)
    (k : Host.Outcome State Fault Refusal) : whenNotInited s k = k := by
  simp [whenNotInited, whenLive_live h, hi]

theorem whenNotInited_ready {s : State} (h : Live s) (hi : s.inited = true)
    (k : Host.Outcome State Fault Refusal) : whenNotInited s k = .next (raise .reinitialise s) := by
  simp [whenNotInited, whenLive_live h, hi]

/-- Whatever stands behind the prologue, a next state comes from it alone: the block was live. -/
theorem whenLive_next {s t : State} {k : Host.Outcome State Fault Refusal} (h : whenLive s k = .next t) :
    Live s ∧ k = .next t := by
  unfold whenLive at h
  split at h
  · split at h
    · cases h
    · split at h
      · cases h
      · exact ⟨⟨‹_›, ‹_›, ‹_›⟩, h⟩
  · cases h

theorem whenLive_faulted {s : State} {r : FaultReason} (hp : pinsDistinct s.cfg.pins = true)
    (hf : s.fault = some r) (k : Host.Outcome State Fault Refusal) : whenLive s k = .fault (.halted r) := by
  simp [whenLive, hp, hf]

theorem whenLive_busy {s : State} {rest : List Action} (hp : pinsDistinct s.cfg.pins = true)
    (hf : s.fault = none) (hs : s.seq = .busy rest) (k : Host.Outcome State Fault Refusal) :
    whenLive s k = .fault .busy := by
  simp [whenLive, hp, hf, hs]

theorem validAddr_iff {n : Fin 9} {a : Word} : validAddr n a = true ↔ AddrOk n a := by
  simp [validAddr, AddrOk]

theorem validAddr_eq_false {n : Fin 9} {a : Word} (h : ¬ AddrOk n a) : validAddr n a = false := by
  rw [← validAddr_iff] at h
  simpa using h

theorem validIdx_iff {i : Word} : validIdx i = true ↔ IdxOk i := by
  simp [validIdx, IdxOk]

/-- A valid device index read as a natural number lies below N. -/
theorem AddrOk.toNat_lt {n : Fin 9} {a : Word} (h : AddrOk n a) : a.toNat < n.val := by
  have h0 := h.1
  have h1 := h.2
  rw [BitVec.toInt_eq_toNat_cond] at h0 h1
  split at h0 <;> rename_i hc <;> simp only [hc, if_true, if_false] at h1 <;> omega

/-- A valid row, column or digit read as a natural number lies below 8. -/
theorem IdxOk.toNat_lt {i : Word} (h : IdxOk i) : i.toNat < 8 := by
  have h0 := h.1
  have h1 := h.2
  rw [BitVec.toInt_eq_toNat_cond] at h0 h1
  split at h0 <;> rename_i hc <;> simp only [hc, if_true, if_false] at h1 <;> omega

theorem clampN_toInt (n : Word) :
    ((clampN n).val : Int) = if n.toInt ≤ 0 ∨ 8 < n.toInt then 8 else n.toInt := by
  unfold clampN
  split
  · rfl
  · rename_i h
    have h1 : 0 < n.toInt := by omega
    have h2 : n.toInt ≤ 8 := by omega
    have h3 : n.toInt = n.toNat := by
      rw [BitVec.toInt_eq_toNat_cond] at h1 ⊢
      split at h1 <;> rename_i hc
      · simp [hc]
      · omega
    have h4 : n.toNat < 9 := by omega
    simp [Fin.ofNat, Nat.mod_eq_of_lt h4, h3]

theorem clampN_pos (n : Word) : 1 ≤ (clampN n).val := by
  have h := clampN_toInt n
  split at h <;> omega

theorem slot_val {a r : Nat} (ha : a < 8) (hr : r < 8) : (slot a r).val = 8 * a + r := by
  simp [slot, Fin.ofNat]
  omega

/-- With the digit registers inside the address space, row r's opcode byte is DIGIT0 + r. -/
theorem digitByte_eq {o : Opcodes} {r : Nat} (ho : o.digit0.toNat ≤ 8) (hr : r < 8) :
    digitByte o r = BitVec.ofNat 8 (o.digit0.toNat + r) := by
  apply BitVec.eq_of_toNat_eq
  simp [digitByte, opcodeByte, BitVec.toNat_add]
  omega

end Sys2Proof.Machine
end

