-- ==== Sys2Proof/Laws/Display.lean ====
section
/-! SUPPORT. What a display command's rows do, one and several: shadow, trace, link, chips (R170). -/

namespace Sys2Proof.Machine

/-! ### One register write -/

/-- Frame bytes from 2N on are kept (R124). -/
theorem xfer_frame_kept (n a : Nat) (op d : Byte) (s : State) (k : Nat) (hk : 2 * n ≤ k) :
    (runActs (xferActs n a op d) s).frame.read k = s.frame.read k := by
  rw [xfer_frame, Memory.read_writeAll, if_neg]
  simp only [List.length_take, frameBytes_length]
  omega

theorem xfer_cleanLink {n a : Nat} (op d : Byte) (h : a < n) (s : State) :
    CleanLink (runActs (xferActs n a op d) s) := by
  rw [CleanLink, xfer_pin op d h]
  exact ⟨rfl, rfl⟩

theorem xfer_onlyLink {n a : Nat} (op d : Byte) (s : State) : OnlyLink s (runActs (xferActs n a op d) s) :=
  runActs_link (xferActs_link n a op d) s

theorem xfer_emitted {n a : Nat} (op d : Byte) (h : a < n) (s : State) :
    (runActs (xferActs n a op d) s).emitted = (xferEvents n a op d).reverse ++ s.emitted := by
  rw [runActs_emitted, events_xfer op d h]

theorem emits_of_emitted {s t : State} {ev : List Event} (h : t.emitted = ev.reverse ++ s.emitted) :
    Emits s t ev := by
  simp [Emits, State.trace, h]

theorem opcodeByte_low (adr : BitVec 4) : (opcodeByte adr).extractLsb' 0 4 = adr := by
  ext i hi
  simp only [opcodeByte, BitVec.getElem_extractLsb', BitVec.getLsbD_setWidth]
  simp [BitVec.getLsbD_eq_getElem hi, show i < 8 by omega]

/-- A register write of a command (R39, R77, R125). -/
theorem registerSent_xfer {s : State} {a : Nat} (adr : BitVec 4) (v : Byte) (h : a < s.n.val) :
    RegisterSent s (runActs (xferActs s.n.val a (opcodeByte adr) v) s) a adr v := by
  refine ⟨xfer_onlyLink _ _ s, emits_of_emitted (xfer_emitted _ v h s), xfer_cleanLink _ _ h s,
    fun k hk => xfer_frame_kept _ _ _ _ s k hk, fun hl e k => ?_⟩
  rw [devReg_eq, xfer_chain _ _ h s hl.1.clkLow, chainXfer_reg _ _ h _ hl.2, opcodeByte_low]
  rfl

/-! ### One row -/

/-- Everything one row's write and transmission can do (R170). -/
theorem runActs_row (o : Opcodes) {n a r : Nat} (v : Byte) (s : State) (h : a < n) (hn : n ≤ 8) (hr : r < 8) :
    let t := runActs (rowActs o n a r v) s
    OnlyLinkAndShadow s t ∧ t.shadow = s.shadow.write (8 * a + r) v ∧
      t.emitted = (xferEvents n a (digitByte o r) v).reverse ++ s.emitted ∧ CleanLink t ∧
      (∀ k, 2 * n ≤ k → t.frame.read k = s.frame.read k) ∧
      (ClkLow s → t.chain = chainXfer n a (digitByte o r) v s.chain) := by
  have hs : (slot a r).val = 8 * a + r := slot_val (by omega) hr
  unfold rowActs
  rw [runActs_cons]
  have hl := xfer_onlyLink (n := n) (a := a) (digitByte o r) v (act (.writeShadow (slot a r) v) s)
  refine ⟨?_, ?_, ?_, xfer_cleanLink _ _ h _, ?_, ?_⟩
  · rw [OnlyLinkAndShadow]
    rw [hl]
    rfl
  · rw [hl]
    simp [hs]
  · rw [xfer_emitted _ _ h]
    rfl
  · intro k hk
    rw [xfer_frame_kept _ _ _ _ _ k hk]
    rfl
  · intro hc
    exact xfer_chain _ _ h _ hc

/-- Rows 0 to m-1 of one device, each written and transmitted before the next. -/
def rowsActs (o : Opcodes) (n a : Nat) (f : Nat → Byte) (m : Nat) : List Action :=
  (List.range m).flatMap (fun r => rowActs o n a r (f r))

theorem rowsActs_succ (o : Opcodes) (n a : Nat) (f : Nat → Byte) (m : Nat) :
    rowsActs o n a f (m + 1) = rowsActs o n a f m ++ rowActs o n a m (f m) := by
  simp [rowsActs, List.range_succ]

/-- The register row r's opcode byte addresses, where the row registers exist (R170). -/
theorem digitByte_register {o : Opcodes} {r : Nat} (ho : o.digit0.toNat ≤ 8) (hr : r < 8) :
    ((digitByte o r).extractLsb' 0 4).toNat = o.digit0.toNat + r := by
  rw [digitByte_eq ho hr]
  simp [BitVec.extractLsb'_toNat]
  omega

/-- Everything several rows can do (R170, R171, R185). -/
theorem runActs_rows (o : Opcodes) {n a m : Nat} (f : Nat → Byte) (s : State) (h : a < n) (hn : n ≤ 8)
    (hm : m ≤ 8) :
    let t := runActs (rowsActs o n a f m) s
    OnlyLinkAndShadow s t ∧
      (∀ k, t.shadow.read k = if 8 * a ≤ k ∧ k < 8 * a + m then some (f (k - 8 * a)) else s.shadow.read k) ∧
      t.emitted = ((List.range m).flatMap (fun r => xferEvents n a (digitByte o r) (f r))).reverse ++ s.emitted ∧
      (m ≠ 0 → CleanLink t) ∧ (ClkLow s → ClkLow t) ∧
      (∀ k, 2 * n ≤ k → t.frame.read k = s.frame.read k) ∧
      (ClkLow s → s.chain.length = n → t.chain.length = n ∧
        (∀ e k, e ≠ a → chainReg t.chain e k = chainReg s.chain e k) ∧
        (o.digit0.toNat ≤ 8 → ∀ e k, chainReg t.chain e k =
          if e = a ∧ o.digit0.toNat ≤ k ∧ k < o.digit0.toNat + m ∧ k ≠ 0 then some (f (k - o.digit0.toNat))
          else chainReg s.chain e k)) := by
  induction m with
  | zero =>
    refine ⟨rfl, fun k => ?_, rfl, fun h0 => absurd rfl h0, id, fun _ _ => rfl,
      fun _ hl => ⟨hl, fun _ _ _ => rfl, fun _ e k => ?_⟩⟩
    · rw [if_neg (by omega)]; rfl
    · rw [if_neg (by omega)]; rfl
  | succ m ih =>
    obtain ⟨h1, h2, h3, -, h5, h6, h7⟩ := ih (by omega)
    have hr := runActs_row o (r := m) (f m) (runActs (rowsActs o n a f m) s) h hn (by omega)
    obtain ⟨g1, g2, g3, g4, g5, g6⟩ := hr
    simp only [rowsActs_succ, runActs_append]
    refine ⟨?_, fun k => ?_, ?_, fun _ => g4, fun _ => g4.clkLow, fun k hk => ?_, fun hc hl => ?_⟩
    · rw [OnlyLinkAndShadow, g1, h1]
    · rw [g2, Memory.read_write, h2]
      by_cases hk : k = 8 * a + m
      · subst hk
        rw [if_pos rfl, if_pos (by omega), Nat.add_sub_cancel_left]
      · rw [if_neg hk]
        by_cases hk' : 8 * a ≤ k ∧ k < 8 * a + m
        · rw [if_pos hk', if_pos (by omega)]
        · rw [if_neg hk', if_neg (by omega)]
    · rw [g3, h3, List.range_succ, List.flatMap_append, List.reverse_append]
      simp
    · rw [g5 k hk, h6 k hk]
    · obtain ⟨hlen, hothers, hregs⟩ := h7 hc hl
      rw [g6 (h5 hc)]
      refine ⟨by rw [chainXfer_length, hlen], fun e k he => ?_, fun ho e k => ?_⟩
      · rw [chainXfer_reg _ _ h _ hlen, if_neg fun h' => he h'.1, hothers e k he]
      rw [chainXfer_reg _ _ h _ hlen, hregs ho, digitByte_register ho (by omega)]
      by_cases he : e = a
      · by_cases hk : k = o.digit0.toNat + m ∧ k ≠ 0
        · obtain ⟨rfl, hk0⟩ := hk
          rw [if_pos ⟨he, rfl, hk0⟩, if_pos ⟨he, by omega, by omega, hk0⟩, Nat.add_sub_cancel_left]
        · rw [if_neg fun h' => hk ⟨h'.2.1, by omega⟩]
          by_cases hk' : o.digit0.toNat ≤ k ∧ k < o.digit0.toNat + m ∧ k ≠ 0
          · rw [if_pos ⟨he, hk'⟩, if_pos ⟨he, by omega, by omega, by omega⟩]
          · rw [if_neg fun h' => hk' h'.2, if_neg fun h' => by omega]
      · rw [if_neg fun h' => he h'.1, if_neg fun h' => he h'.1, if_neg fun h' => he h'.1]

theorem clearActs_eq (o : Opcodes) (n a : Nat) : clearActs o n a = rowsActs o n a (fun _ => 0x00) 8 := rfl

/-! ### SETCOL's actions are eight rows -/

theorem joinActs_map_some (f : Nat → List Action) (l : List Nat) :
    joinActs (l.map fun r => some (f r)) = some (l.flatMap f) := by
  induction l with
  | nil => rfl
  | cons x l ih => simp [joinActs, ih]

theorem ledActs_valid {s : State} {a r c : Word} {v : Byte} (on : Bool) (ha : AddrOk s.n a) (hr : IdxOk r)
    (hc : IdxOk c) (hv : s.shadow.read (8 * a.toNat + r.toNat) = some v) :
    ledActs s a r c on = some (rowActs s.cfg.opcodes s.n.val a.toNat r.toNat (ledValue v c on)) := by
  have han := ha.toNat_lt
  have hs : (slot a.toNat r.toNat).val = 8 * a.toNat + r.toNat := slot_val (by omega) hr.toNat_lt
  simp [ledActs, validAddr_iff.mpr ha, validIdx_iff.mpr hr, validIdx_iff.mpr hc, hs, hv]

theorem ledActs_unwritten {s : State} {a r c : Word} (on : Bool) (ha : AddrOk s.n a) (hr : IdxOk r)
    (hc : IdxOk c) (hv : s.shadow.read (8 * a.toNat + r.toNat) = none) : ledActs s a r c on = none := by
  have han := ha.toNat_lt
  have hs : (slot a.toNat r.toNat).val = 8 * a.toNat + r.toNat := slot_val (by omega) hr.toNat_lt
  simp [ledActs, validAddr_iff.mpr ha, validIdx_iff.mpr hr, validIdx_iff.mpr hc, hs, hv]

theorem ledActs_invalid {s : State} {a r c : Word} (on : Bool) (h : ¬ (AddrOk s.n a ∧ IdxOk r ∧ IdxOk c)) :
    ledActs s a r c on = some [] := by
  unfold ledActs
  rw [if_neg]
  simp only [Bool.and_eq_true, validAddr_iff, validIdx_iff]
  exact fun h' => h ⟨h'.1.1, h'.1.2, h'.2⟩

theorem idxOk_ofNat {r : Nat} (hr : r < 8) : IdxOk (BitVec.ofNat 32 r) := by
  interval_cases r <;> decide

theorem toNat_ofNat_small {r : Nat} (hr : r < 8) : (BitVec.ofNat 32 r).toNat = r := by
  simp only [BitVec.toNat_ofNat]
  omega

theorem columnActs_valid {s : State} {a c : Word} (v : Byte) {rows : Nat → Byte} (ha : AddrOk s.n a)
    (hc : IdxOk c) (hv : ∀ r, r < 8 → s.shadow.read (8 * a.toNat + r) = some (rows r)) :
    columnActs s a c v =
      some (rowsActs s.cfg.opcodes s.n.val a.toNat (fun r => ledValue (rows r) c (v.getLsbD (7 - r))) 8) := by
  unfold columnActs rowsActs
  rw [← joinActs_map_some]
  congr 1
  refine List.map_congr_left fun r hr => ?_
  have hr8 : r < 8 := by simpa using hr
  have h := ledActs_valid (s := s) (a := a) (r := BitVec.ofNat 32 r) (c := c) (v := rows r) (v.getLsbD (7 - r)) ha
    (idxOk_ofNat hr8) hc (by rw [toNat_ofNat_small hr8]; exact hv r hr8)
  rw [h, toNat_ofNat_small hr8]

end Sys2Proof.Machine
end

