-- ==== Sys2Proof/Laws/Encoding.lean ====
section
/-! SUPPORT. Fields of the words the encoder writes, and words put together from their fields (R91, R92, R101). -/

namespace Sys2Proof.Machine

theorem commandW0_fields (code : BitVec 4) (b : Bool) :
    codeField (commandW0 code b) = code ∧ boolField (commandW0 code b) = b ∧
      reservedField0 (commandW0 code b) = 0#27 := by
  refine ⟨?_, ?_, ?_⟩ <;> revert code b <;> decide

theorem byteWord_fields (v : Byte) : byteField (byteWord v) = v ∧ reservedField3 (byteWord v) = 0#24 := by
  revert v; decide

/-- A zero-extended byte is a byte operand's word (R92). -/
theorem setWidth_eq_byteWord (v : Byte) : v.setWidth 32 = byteWord v := by
  revert v; decide

theorem wireWord_fields (adr d : Byte) :
    (wireWord adr d).extractLsb' 8 8 = adr ∧ (wireWord adr d).extractLsb' 0 8 = d := by
  constructor <;> ext i hi <;> simp only [wireWord, BitVec.getElem_extractLsb', getLsbD_pair]
  · rw [if_neg (by omega)]
    simp [BitVec.getLsbD_eq_getElem hi]
  · rw [if_pos (by omega)]
    simp [BitVec.getLsbD_eq_getElem hi]

theorem boolField_eq (w : Word) : (boolField w).toNat = w.toNat / 16 % 2 := by
  simp [boolField, BitVec.getLsbD, Nat.testBit, Nat.shiftRight_eq_div_pow, Nat.one_and_eq_mod_two]
  rcases Nat.mod_two_eq_zero_or_one (w.toNat / 16) with h | h <;> simp [h]

/-- A W0 whose reserved field is clear is its CODE and its B (R91). -/
theorem eq_commandW0 {w : Word} (h : reservedField0 w = 0#27) : w = commandW0 (codeField w) (boolField w) := by
  have hr : w.toNat / 2 ^ 5 % 2 ^ 27 = 0 := by
    have := congrArg BitVec.toNat h
    simpa [reservedField0, BitVec.extractLsb'_toNat, Nat.shiftRight_eq_div_pow] using this
  have hw := w.isLt
  have hb := boolField_eq w
  apply BitVec.eq_of_toNat_eq
  have hc : (commandW0 (codeField w) (boolField w)).toNat = (boolField w).toNat * 16 + w.toNat % 16 := by
    generalize boolField w = b
    have hcode : (codeField w).toNat = w.toNat % 16 := by simp [codeField, BitVec.extractLsb'_toNat]
    have h16 : ∀ (c : BitVec 4) (b : Bool), (commandW0 c b).toNat = b.toNat * 16 + c.toNat := by decide
    rw [h16, hcode]
  rw [hc, hb]
  omega

/-- A W3 whose reserved field is clear is its byte (R92). -/
theorem eq_byteWord {w : Word} (h : reservedField3 w = 0#24) : w = byteWord (byteField w) := by
  have hr : w.toNat / 2 ^ 8 % 2 ^ 24 = 0 := by
    have := congrArg BitVec.toNat h
    simpa [reservedField3, BitVec.extractLsb'_toNat, Nat.shiftRight_eq_div_pow] using this
  have hw := w.isLt
  apply BitVec.eq_of_toNat_eq
  have h8 : ∀ v : Byte, (byteWord v).toNat = v.toNat := by decide
  have hv : (byteField w).toNat = w.toNat % 256 := by simp [byteField, BitVec.extractLsb'_toNat]
  rw [h8, hv]
  omega

/-- A wire word is its two bytes (R101). -/
theorem eq_wireWord (w : Half) : w = wireWord (w.extractLsb' 8 8) (w.extractLsb' 0 8) := by
  apply BitVec.eq_of_getLsbD_eq
  intro i hi
  rw [wireWord, getLsbD_pair]
  split
  · simp [*]
  · simp [show i - 8 < 8 by omega, show 8 + (i - 8) = i by omega]

end Sys2Proof.Machine
end

