-- ==== Sys2Proof/Laws/Init.lean ====
section
/-! SUPPORT. INIT's actions: one device's register writes, all devices', and the whole sequence (R141). -/

namespace Sys2Proof.Machine

/-- A transfer of INIT, by what it can do: link only, ends clean, keeps the frame beyond 2N, and writes one
register of a listening chain. -/
theorem runActs_reg (adr : BitVec 4) {n a : Nat} (v : Byte) (s : State) (h : a < n) :
    let t := runActs (xferActs n a (opcodeByte adr) v) s
    OnlyLink s t ∧ t.emitted = (xferEvents n a (opcodeByte adr) v).reverse ++ s.emitted ∧ CleanLink t ∧
      (∀ k, 2 * n ≤ k → t.frame.read k = s.frame.read k) ∧
      (ClkLow s → s.chain.length = n → t.chain.length = n ∧
        ∀ e k, chainReg t.chain e k =
          if e = a ∧ k = adr.toNat ∧ adr.toNat ≠ 0 then some v else chainReg s.chain e k) := by
  refine ⟨xfer_onlyLink _ _ s, xfer_emitted _ v h s, xfer_cleanLink _ _ h s,
    fun k hk => xfer_frame_kept _ _ _ _ s k hk, fun hc hl => ?_⟩
  rw [xfer_chain _ _ h s hc]
  refine ⟨by rw [chainXfer_length, hl], fun e k => ?_⟩
  rw [chainXfer_reg _ _ h _ hl, opcodeByte_low]

/-- INIT's events for one device, in the machine's spelling of the row registers. -/
def initDeviceEvents (o : Opcodes) (n a : Nat) : List Event :=
  xferEvents n a (opcodeByte o.displayTest) 0x00 ++ xferEvents n a (opcodeByte o.scanLimit) 0x07
    ++ xferEvents n a (opcodeByte o.decodeMode) 0x00
    ++ (List.range 8).flatMap (fun r => xferEvents n a (digitByte o r) 0x00)
    ++ xferEvents n a (opcodeByte o.shutdown) 0x00

/-- In the terms of the statements. -/
theorem initDeviceEvents_eq (o : Opcodes) (n a : Nat) :
    initDeviceEvents o n a = initEvents o (digitByte o) n a := rfl

/-- `12 E(N)` events for one device (R143). -/
theorem initDeviceEvents_length (o : Opcodes) (n a : Nat) :
    (initDeviceEvents o n a).length = 12 * xferLength n := by
  simp only [initDeviceEvents, List.length_append, xferEvents_length,
    flatMap_length_const _ _ (fun r => xferEvents_length n a (digitByte o r) 0x00), List.length_range]
  omega

/-- What INIT leaves in one device's registers with the default OPCODES: the value written, or none where INIT
writes nothing (R141). -/
def initRegister (k : Nat) : Option Byte :=
  if k = 0xF then some 0x00 else if k = 0xB then some 0x07 else if k = 0x9 then some 0x00
  else if 1 ≤ k ∧ k ≤ 8 then some 0x00 else if k = 0xC then some 0x00 else none

/-- Everything INIT's part for one device can do (R141). -/
theorem runActs_initDevice (o : Opcodes) {n a : Nat} (s : State) (h : a < n) (hn : n ≤ 8) :
    let t := runActs (initDeviceActs o n a) s
    OnlyLinkAndShadow s t ∧
      (∀ k, t.shadow.read k = if 8 * a ≤ k ∧ k < 8 * a + 8 then some 0x00 else s.shadow.read k) ∧
      t.emitted = (initDeviceEvents o n a).reverse ++ s.emitted ∧ t.pin = ⟨.low, .low, .high⟩ ∧
      (∀ k, 2 * n ≤ k → t.frame.read k = s.frame.read k) ∧
      (ClkLow s → s.chain.length = n → t.chain.length = n ∧
        (o = Opcodes.standard → ∀ e k, chainReg t.chain e k =
          if e = a then (initRegister k).or (chainReg s.chain e k) else chainReg s.chain e k)) := by
  unfold initDeviceActs
  rw [clearActs_eq]
  simp only [runActs_append]
  obtain ⟨a1, a2, a3, a4, a5⟩ := runActs_reg o.displayTest (0x00#8) s h
  generalize runActs (xferActs n a (opcodeByte o.displayTest) 0x00#8) s = s1 at *
  obtain ⟨b1, b2, b3, b4, b5⟩ := runActs_reg o.scanLimit (0x07#8) s1 h
  generalize runActs (xferActs n a (opcodeByte o.scanLimit) 0x07#8) s1 = s2 at *
  obtain ⟨c1, c2, c3, c4, c5⟩ := runActs_reg o.decodeMode (0x00#8) s2 h
  generalize runActs (xferActs n a (opcodeByte o.decodeMode) 0x00#8) s2 = s3 at *
  obtain ⟨d1, d2, d3, d4, -, d6, d7⟩ := runActs_rows o (m := 8) (fun _ => 0x00#8) s3 h hn (Nat.le_refl 8)
  generalize runActs (rowsActs o n a (fun _ => 0x00#8) 8) s3 = s4 at *
  have hp := xfer_pin (opcodeByte o.shutdown) (0x00#8) h s4
  obtain ⟨e1, e2, e3, e4, e5⟩ := runActs_reg o.shutdown (0x00#8) s4 h
  generalize runActs (xferActs n a (opcodeByte o.shutdown) 0x00#8) s4 = s5 at *
  refine ⟨?_, fun k => ?_, ?_, ?_, fun k hk => ?_, fun hc hl => ?_⟩
  · rw [OnlyLinkAndShadow, e1, d1, c1, b1, a1]
  · rw [e1, show s3.shadow = s.shadow by rw [c1, b1, a1]] at *
    exact d2 k
  · simp only [e2, d3, c2, b2, a2, initDeviceEvents]
    simp only [List.reverse_append, List.append_assoc]
    rfl
  · rw [hp]
    split <;> rfl
  · rw [e4 k hk, d6 k hk, c4 k hk, b4 k hk, a4 k hk]
  · obtain ⟨a6, a7⟩ := a5 hc hl
    obtain ⟨b6, b7⟩ := b5 a3.clkLow a6
    obtain ⟨c6, c7⟩ := c5 b3.clkLow b6
    obtain ⟨d8, d9⟩ := d7 c3.clkLow c6
    obtain ⟨e6, e7⟩ := e5 (d4 (by omega)).clkLow d8
    refine ⟨e6, fun ho e k => ?_⟩
    rw [e7, d9.2 (ho ▸ by decide), c7, b7, a7]
    subst ho
    by_cases hea : e = a
    · subst hea
      simp only [true_and, if_true, initRegister, Opcodes.standard]
      by_cases hk : k < 16
      · interval_cases k <;> simp
      · simp only [show ¬ k = 12 by omega, show ¬ k = 9 by omega, show ¬ k = 11 by omega,
          show ¬ k = 15 by omega, show ¬ k ≤ 8 by omega, show ¬ k < 1 + 8 by omega, and_false, if_false, Option.none_or,
          BitVec.reduceToNat, false_and]
    · simp [hea]

/-- Everything INIT's part for devices 0 to m-1 can do. -/
theorem runActs_initDevices (o : Opcodes) {n m : Nat} (s : State) (h : m ≤ n) (hn : n ≤ 8) :
    let t := runActs ((List.range m).flatMap (initDeviceActs o n)) s
    OnlyLinkAndShadow s t ∧
      (∀ k, t.shadow.read k = if k < 8 * m then some 0x00 else s.shadow.read k) ∧
      t.emitted = ((List.range m).flatMap (initDeviceEvents o n)).reverse ++ s.emitted ∧
      (m ≠ 0 → t.pin = ⟨.low, .low, .high⟩) ∧ (ClkLow s → ClkLow t) ∧
      (∀ k, 2 * n ≤ k → t.frame.read k = s.frame.read k) ∧
      (ClkLow s → s.chain.length = n → t.chain.length = n ∧
        (o = Opcodes.standard → ∀ e k, chainReg t.chain e k =
          if e < m then (initRegister k).or (chainReg s.chain e k) else chainReg s.chain e k)) := by
  induction m with
  | zero =>
    exact ⟨rfl, fun k => by simp, rfl, fun h0 => absurd rfl h0, id, fun _ _ => rfl,
      fun _ hl => ⟨hl, fun _ e k => by simp⟩⟩
  | succ m ih =>
    obtain ⟨a1, a2, a3, -, a5, a6, a7⟩ := ih (by omega)
    simp only [List.range_succ, List.flatMap_append, runActs_append, List.flatMap_cons, List.flatMap_nil,
      List.append_nil]
    generalize runActs ((List.range m).flatMap (initDeviceActs o n)) s = u at *
    obtain ⟨b1, b2, b3, b4, b5, b6⟩ := runActs_initDevice o (n := n) (a := m) u h hn
    generalize runActs (initDeviceActs o n m) u = t at *
    refine ⟨?_, fun k => ?_, ?_, fun _ => b4, fun _ => ?_, fun k hk => ?_, fun hc hl => ?_⟩
    · rw [OnlyLinkAndShadow, b1, a1]
    · rw [b2, a2]
      by_cases hk : 8 * m ≤ k ∧ k < 8 * m + 8
      · rw [if_pos hk, if_pos (by omega)]
      · rw [if_neg hk]
        by_cases hk' : k < 8 * m
        · rw [if_pos hk', if_pos (by omega)]
        · rw [if_neg hk', if_neg (by omega)]
    · rw [b3, a3]
      simp only [List.reverse_append, List.append_assoc]
    · simp only [ClkLow, b4, lineLow_low]
    · rw [b5 k hk, a6 k hk]
    · obtain ⟨a8, a9⟩ := a7 hc hl
      obtain ⟨b7, b8⟩ := b6 (a5 hc) a8
      refine ⟨b7, fun ho e k => ?_⟩
      rw [b8 ho, a9 ho]
      by_cases he : e = m
      · subst he
        simp
      · by_cases he' : e < m
        · simp [he, he', show e < m + 1 by omega]
        · simp [he, he', show ¬ e < m + 1 by omega]

/-- Writing 0x00 to a list of slots touches the shadow only. -/
theorem runActs_zeros (ks : List (Fin 64)) (s : State) :
    let t := runActs (ks.map fun k => .writeShadow k 0x00) s
    t = { s with shadow := t.shadow } ∧
      ∀ k, t.shadow.read k = if ∃ j ∈ ks, j.val = k then some 0x00 else s.shadow.read k := by
  induction ks generalizing s with
  | nil => exact ⟨rfl, fun k => by simp⟩
  | cons j ks ih =>
    obtain ⟨h1, h2⟩ := ih (act (.writeShadow j 0x00) s)
    simp only [List.map_cons, runActs_cons]
    refine ⟨?_, fun k => ?_⟩
    · rw [h1]
      rfl
    · rw [h2, act_writeShadow_shadow, Memory.read_write]
      by_cases hk : ∃ j ∈ ks, j.val = k
      · obtain ⟨i, hi, rfl⟩ := hk
        rw [if_pos ⟨i, hi, rfl⟩, if_pos ⟨i, List.mem_cons_of_mem _ hi, rfl⟩]
      · rw [if_neg hk]
        by_cases hj : k = j.val
        · rw [if_pos hj, if_pos ⟨j, by simp, hj.symm⟩]
        · rw [if_neg hj, if_neg]
          rintro ⟨i, hi, rfl⟩
          rcases List.mem_cons.mp hi with rfl | hi
          · exact hj rfl
          · exact hk ⟨i, hi, rfl⟩

/-- Everything INIT's sequence can do once N is known (R141, R143). The chips see one CS write before the
transfers: an edge where CS was low. -/
theorem runActs_init (o : Opcodes) (n : Fin 9) (s : State) (h : 1 ≤ n.val) :
    let t := runActs (initActs o n) s
    t = { s with
        inited := true
        n := n
        shadow := t.shadow
        frame := t.frame
        pin := t.pin
        emitted := t.emitted
        chain := t.chain } ∧
      (∀ k, t.shadow.read k = if k < 64 then some 0x00 else s.shadow.read k) ∧
      t.emitted =
        (.pinWrite .cs .high :: (List.range n.val).flatMap (initDeviceEvents o n.val)).reverse ++ s.emitted ∧
      t.pin = ⟨.low, .low, .high⟩ ∧ (∀ k, 2 * n.val ≤ k → t.frame.read k = s.frame.read k) ∧
      (ClkLow s → s.chain.length = n.val → t.chain.length = n.val ∧
        (o = Opcodes.standard → ∀ e k, chainReg t.chain e k =
          if e < n.val then (initRegister k).or (chainReg (chainAfter .cs .high s) e k)
          else chainReg (chainAfter .cs .high s) e k)) := by
  have hn : n.val ≤ 8 := by omega
  unfold initActs zeroShadowActs
  simp only [runActs_cons, runActs_append, runActs_nil]
  have z := runActs_zeros (List.finRange 64) (act (.pin .cs .high) (act (.setN n) s))
  generalize hs1 : act (.pin .cs .high) (act (.setN n) s) = s1 at *
  obtain ⟨z1, z2⟩ := z
  generalize runActs ((List.finRange 64).map fun k => Action.writeShadow k 0x00#8) s1 = s2 at *
  obtain ⟨a1, a2, a3, a4, -, a6, a7⟩ := runActs_initDevices o (n := n.val) (m := n.val) s2 (Nat.le_refl _) hn
  generalize runActs ((List.range n.val).flatMap (initDeviceActs o n.val)) s2 = s3 at *
  subst hs1
  refine ⟨?_, fun k => ?_, ?_, a4 (by omega), fun k hk => ?_, fun hc hl => ?_⟩
  · rw [act, a1, z1]
    rfl
  · rw [act_setInited_shadow, a2, z2]
    by_cases hk : k < 64
    · rw [if_pos (show ∃ j ∈ List.finRange 64, j.val = k from ⟨⟨k, hk⟩, List.mem_finRange _, rfl⟩), if_pos hk,
        ite_self]
    · rw [if_neg (show ¬ ∃ j ∈ List.finRange 64, j.val = k by rintro ⟨j, -, rfl⟩; exact hk j.isLt), if_neg hk,
        if_neg (by omega)]
      rfl
  · rw [act_setInited_emitted, a3, z1]
    simp [List.reverse_cons, List.append_assoc]
  · rw [act_setInited_frame, a6 k hk, z1]
    rfl
  · have hch : s2.chain = chainAfter .cs .high s := by rw [z1]; rfl
    have hlen : (chainAfter .cs .high s).length = s.chain.length := by
      unfold chainAfter
      dsimp only
      split <;> simp
    obtain ⟨a8, a9⟩ := a7 (by rw [ClkLow, z1]; exact hc) (by rw [hch, hlen, hl])
    refine ⟨a8, fun ho e k => ?_⟩
    rw [act_setInited_chain, a9 ho, hch]

end Sys2Proof.Machine
end

