-- ==== Sys2Proof/Laws/PerInstr.lean ====
section
/-! SUPPORT. One fact about every instruction as syntax: the code field of the words it is written as is the one
its row of R93, R96 or R102 gives it. -/

namespace Sys2Proof.Laws.CodeField

/-- The code that stands in the first table column of an instruction's row: CODE of R93 for a command, the
register address of R102 for a wire word, none for the micro-operations. An illegal row has its own word's. -/
def rowCode : Instr → Option Nat
  | .init _ => some 0x1
  | .getcount => some 0x2
  | .shutdown _ _ => some 0x3
  | .scanlimit _ _ => some 0x4
  | .intensity _ _ => some 0x5
  | .clear _ => some 0x6
  | .setled _ _ _ _ => some 0x7
  | .setrow _ _ _ => some 0x8
  | .setcol _ _ _ => some 0x9
  | .setdigit _ _ _ _ => some 0xA
  | .setchar _ _ _ _ => some 0xB
  | .illegalZero _ => some 0x0
  | .illegalHigh w => some (12 + w.w0.toNat % 4)
  | .shiftout _ _ => none
  | .xfer _ _ _ => none
  | .wireNoop _ => some 0x0
  | .wireDigit0 _ _ => some 0x1
  | .wireDigit1 _ _ => some 0x2
  | .wireDigit2 _ _ => some 0x3
  | .wireDigit3 _ _ => some 0x4
  | .wireDigit4 _ _ => some 0x5
  | .wireDigit5 _ _ => some 0x6
  | .wireDigit6 _ _ => some 0x7
  | .wireDigit7 _ _ => some 0x8
  | .wireDecodemode _ _ => some 0x9
  | .wireIntensityReg _ _ => some 0xA
  | .wireScanlimitReg _ _ => some 0xB
  | .wireShutdownReg _ _ => some 0xC
  | .wireDisplaytest _ _ => some 0xF

/-- The code an instruction is written with: the low four bits of W0 (R91), or the address byte of a wire word
(R101). -/
def writtenCode (i : Instr) : Option Nat :=
  match encode i with
  | some (.command w) => some (w.w0.toNat % 16)
  | some (.wire _ w) => some (w.toNat / 256)
  | none => none

/-- A well-formed instruction is written with its row's code, and a micro-operation is not written. -/
def Statement (i : Instr) : Prop := WellFormed i = true → writtenCode i = rowCode i

theorem command (code : BitVec 4) (b : Bool) : (commandW0 code b).toNat % 16 = code.toNat := by
  revert code b; decide

theorem word (adr d : Byte) : (wireWord adr d).toNat / 256 = adr.toNat := by
  have h := d.isLt
  simp only [wireWord, BitVec.toNat_append, Nat.shiftLeft_eq]
  rw [Nat.mul_comm, ← Nat.two_pow_add_eq_or_of_lt h]
  omega

theorem init (n : Word) : Statement (.init n) := fun _ => congrArg some (command _ _)
theorem getcount : Statement .getcount := fun _ => congrArg some (command _ _)
theorem shutdown (a : Word) (enable : Bool) : Statement (.shutdown a enable) := fun _ => congrArg some (command _ _)
theorem scanlimit (a limit : Word) : Statement (.scanlimit a limit) := fun _ => congrArg some (command _ _)
theorem intensity (a level : Word) : Statement (.intensity a level) := fun _ => congrArg some (command _ _)
theorem clear (a : Word) : Statement (.clear a) := fun _ => congrArg some (command _ _)
theorem setled (a r c : Word) (on : Bool) : Statement (.setled a r c on) := fun _ => congrArg some (command _ _)
theorem setrow (a r : Word) (v : Byte) : Statement (.setrow a r v) := fun _ => congrArg some (command _ _)
theorem setcol (a c : Word) (v : Byte) : Statement (.setcol a c v) := fun _ => congrArg some (command _ _)

theorem setdigit (a dg : Word) (v : Byte) (dp : Bool) : Statement (.setdigit a dg v dp) :=
  fun _ => congrArg some (command _ _)

theorem setchar (a dg : Word) (ch : Byte) (dp : Bool) : Statement (.setchar a dg ch dp) :=
  fun _ => congrArg some (command _ _)

theorem illegalZero (w : CommandWord) : Statement (.illegalZero w) := by
  intro h
  have h0 : codeField w.w0 = 0#4 := eq_of_beq h
  have h1 := congrArg BitVec.toNat h0
  simp only [codeField, BitVec.extractLsb'_toNat, Nat.shiftRight_zero] at h1
  exact congrArg some h1

theorem illegalHigh (w : CommandWord) : Statement (.illegalHigh w) := by
  intro h
  have h0 : w.w0.extractLsb' 2 2 = 0x3#2 := eq_of_beq h
  have h1 : w.w0.toNat / 4 % 4 = 3 := by
    have := congrArg BitVec.toNat h0
    simpa [BitVec.extractLsb'_toNat, Nat.shiftRight_eq_div_pow] using this
  refine congrArg some (?_ : w.w0.toNat % 16 = 12 + w.w0.toNat % 4)
  omega

theorem shiftout (m : Bool) (v : Byte) : Statement (.shiftout m v) := fun _ => rfl
theorem xfer (a : Word) (op d : Byte) : Statement (.xfer a op d) := fun _ => rfl
theorem wireNoop (e : Nat) : Statement (.wireNoop e) := fun _ => congrArg some (word _ _)
theorem wireDigit0 (e : Nat) (d : Byte) : Statement (.wireDigit0 e d) := fun _ => congrArg some (word _ _)
theorem wireDigit1 (e : Nat) (d : Byte) : Statement (.wireDigit1 e d) := fun _ => congrArg some (word _ _)
theorem wireDigit2 (e : Nat) (d : Byte) : Statement (.wireDigit2 e d) := fun _ => congrArg some (word _ _)
theorem wireDigit3 (e : Nat) (d : Byte) : Statement (.wireDigit3 e d) := fun _ => congrArg some (word _ _)
theorem wireDigit4 (e : Nat) (d : Byte) : Statement (.wireDigit4 e d) := fun _ => congrArg some (word _ _)
theorem wireDigit5 (e : Nat) (d : Byte) : Statement (.wireDigit5 e d) := fun _ => congrArg some (word _ _)
theorem wireDigit6 (e : Nat) (d : Byte) : Statement (.wireDigit6 e d) := fun _ => congrArg some (word _ _)
theorem wireDigit7 (e : Nat) (d : Byte) : Statement (.wireDigit7 e d) := fun _ => congrArg some (word _ _)

theorem wireDecodemode (e : Nat) (d : Byte) : Statement (.wireDecodemode e d) :=
  fun _ => congrArg some (word _ _)

theorem wireIntensityReg (e : Nat) (d : Byte) : Statement (.wireIntensityReg e d) :=
  fun _ => congrArg some (word _ _)

theorem wireScanlimitReg (e : Nat) (d : Byte) : Statement (.wireScanlimitReg e d) :=
  fun _ => congrArg some (word _ _)

theorem wireShutdownReg (e : Nat) (d : Byte) : Statement (.wireShutdownReg e d) :=
  fun _ => congrArg some (word _ _)

theorem wireDisplaytest (e : Nat) (d : Byte) : Statement (.wireDisplaytest e d) :=
  fun _ => congrArg some (word _ _)

end Sys2Proof.Laws.CodeField
end

