-- ==== Sys2Proof/Laws/Steps.lean ====
section
/-! SUPPORT. Inversion: everything a step, an issued command and a block instruction can do. -/

namespace Sys2Proof.Machine

/-! ### One step -/

/-- A step with a next state: an unfaulted block did the head of what is left, had nothing to do, ran the host's
next command, or took the decoder's fault (R28, R215, R216). -/
theorem step_cases {s t : State} (h : step s = .next t) : s.fault = none ∧
    ((∃ rest, s.seq = .busy rest ∧ t = resume rest s) ∨
     (s.seq = .idle ∧ pendingCommand s = none ∧ t = s) ∨
     (∃ w i, s.seq = .idle ∧ pendingCommand s = some w ∧ decode w = .ok i ∧ exec i (takeCommand s) = .next t) ∨
     (∃ w, s.seq = .idle ∧ pendingCommand s = some w ∧ Live s ∧
       t = raise .reservedField (takeCommand s))) := by
  unfold step at h
  split at h
  · cases h
  · refine ⟨‹_›, ?_⟩
    split at h
    · injection h with h
      exact .inl ⟨_, ‹_›, h.symm⟩
    · split at h
      · injection h with h
        exact .inr (.inl ⟨‹_›, ‹_›, h.symm⟩)
      · split at h
        · exact .inr (.inr (.inl ⟨_, _, ‹_›, ‹_›, ‹_›, h⟩))
        · obtain ⟨hl, h⟩ := whenLive_next h
          injection h with h
          exact .inr (.inr (.inr ⟨_, ‹_›, ‹_›, ⟨hl.1, ‹_›, ‹_›⟩, h.symm⟩))

theorem checked_ok {f : Format} {w : CommandWord} {i j : Instr} (h : checked f w i = .ok j) : i = j := by
  unfold checked at h
  split at h
  · injection h
  · cases h

/-- A command word spells a command or an illegal row, never a wire word or a micro-operation (R2, R93). -/
theorem decode_spells {w : CommandWord} {i : Instr} (h : decode w = .ok i) :
    wireTarget i = none ∧ (∀ m v, i ≠ .shiftout m v) ∧ ∀ a op d, i ≠ .xfer a op d := by
  unfold decode at h
  split at h <;>
    first
    | (have := checked_ok h; subst this; simp [wireTarget])
    | (injection h with h; subst h; simp [wireTarget])

/-! ### Issuing -/

theorem issue_nil {s : State} (h : s.seq = .idle) : issue [] s = s := by
  unfold issue
  split
  · rfl
  · rw [settle_nil, ← h]

/-- What issuing a command never changes, in either view. -/
theorem issue_keeps (acts : List Action) (s : State) :
    (issue acts s).cfg = s.cfg ∧ (issue acts s).fault = s.fault ∧ (issue acts s).line = s.line ∧
      (issue acts s).host = s.host ∧ (issue acts s).view = s.view := by
  unfold issue
  split
  · have := runActs_keeps acts s
    simp [this]
  · have := settle_keeps acts s
    simp [this]

/-! ### One block instruction -/

/-- The actions of a block instruction that completes, by what it is and the state it starts from: none where
it faults, stops or is refused, or is a row of a chip. -/
def actsOf (s : State) : Instr → Option (List Action)
  | .init n => if s.inited then none else some (initActs s.cfg.opcodes (clampN n))
  | .getcount => if s.inited then some [.respond (countWord s.n)] else none
  | .shutdown a enable =>
    if s.inited then some (registerActs s.n a true s.cfg.opcodes.shutdown (shutdownByte enable)) else none
  | .scanlimit a limit =>
    if s.inited then
      some (registerActs s.n a (guardOk s.cfg.guardMode limit 0 7) s.cfg.opcodes.scanLimit (trunc8 limit))
    else none
  | .intensity a level =>
    if s.inited then
      some (registerActs s.n a (guardOk s.cfg.guardMode level 0 15) s.cfg.opcodes.intensity (trunc8 level))
    else none
  | .clear a =>
    if s.inited then some (if validAddr s.n a then clearActs s.cfg.opcodes s.n.val a.toNat else []) else none
  | .setled a r c on => if s.inited then ledActs s a r c on else none
  | .setrow a r v =>
    if s.inited then
      some (if validAddr s.n a && validIdx r then rowActs s.cfg.opcodes s.n.val a.toNat r.toNat v else [])
    else none
  | .setcol a c v =>
    if s.inited then (if validAddr s.n a && validIdx c then columnActs s a c v else some []) else none
  | .setdigit a dg v dp =>
    if s.inited then
      some (if validAddr s.n a && validIdx dg && validHexDigit v then
        rowActs s.cfg.opcodes s.n.val a.toNat dg.toNat (withPoint (tableAt s.cfg v) dp) else [])
    else none
  | .setchar a dg ch dp =>
    if s.inited then
      some (if validAddr s.n a && validIdx dg then
        drawActs s.cfg ch
          ++ rowActs s.cfg.opcodes s.n.val a.toNat dg.toNat (withPoint (charPattern s.cfg s.draws ch) dp)
        else [])
    else none
  | .shiftout m v => some (shiftOutActs m v)
  | .xfer a op d => if validAddr s.n a then some (xferActs s.n.val a.toNat op d) else none
  | .illegalZero _ | .illegalHigh _ | .wireNoop _ | .wireDigit0 _ _ | .wireDigit1 _ _ | .wireDigit2 _ _
  | .wireDigit3 _ _ | .wireDigit4 _ _ | .wireDigit5 _ _ | .wireDigit6 _ _ | .wireDigit7 _ _
  | .wireDecodemode _ _ | .wireIntensityReg _ _ | .wireScanlimitReg _ _ | .wireShutdownReg _ _
  | .wireDisplaytest _ _ => none

/-- Everything a block instruction with a next state can do: its actions are issued, or it takes a fault. -/
theorem exec_cases {i : Instr} {s t : State} (hw : wireTarget i = none) (h : exec i s = .next t) :
    Live s ∧ ((∃ acts, actsOf s i = some acts ∧ t = issue acts s) ∨ ∃ r, t = raise r s) := by
  cases i <;> simp only [wireTarget, reduceCtorEq] at hw <;>
    simp only [exec, execInit, execGetcount, execShutdown, execScanlimit, execIntensity, execClear, execSetled,
      execSetrow, execSetcol, execSetdigit, execSetchar, execIllegalZero, execIllegalHigh, execShiftout,
      execXfer, whenInited, whenNotInited] at h <;>
    (obtain ⟨hl, h⟩ := whenLive_next h; refine ⟨hl, ?_⟩) <;>
    simp only [actsOf] <;> repeat' split at h
  all_goals
    first
    | (cases h; done)
    | (injection h with h; subst h
       first
       | exact .inr ⟨_, rfl⟩
       | exact .inl ⟨_, by simp_all, rfl⟩)
    | (unfold issueRead at h
       split at h
       · injection h with h
         subst h
         exact .inl ⟨_, by simp_all, rfl⟩
       · cases h)

/-- The converse: on a live block the actions are issued. -/
theorem exec_issues {i : Instr} {s : State} {acts : List Action} (hl : Live s) (h : actsOf s i = some acts) :
    exec i s = .next (issue acts s) := by
  cases i <;> simp only [actsOf, reduceCtorEq] at h <;>
    simp only [exec, execInit, execGetcount, execShutdown, execScanlimit, execIntensity, execClear, execSetled,
      execSetrow, execSetcol, execSetdigit, execSetchar, execShiftout, execXfer, whenInited, whenNotInited,
      whenLive_live hl] <;>
    simp_all [issueRead]

/-- A faulted block has no step for any of its instructions (R215). -/
theorem exec_faulted {i : Instr} {s : State} {r : FaultReason} (hp : pinsDistinct s.cfg.pins = true)
    (hf : s.fault = some r) (hw : wireTarget i = none) : exec i s = .fault (.halted r) := by
  cases i <;> simp only [wireTarget, reduceCtorEq] at hw <;>
    simp only [exec, execInit, execGetcount, execShutdown, execScanlimit, execIntensity, execClear, execSetled,
      execSetrow, execSetcol, execSetdigit, execSetchar, execIllegalZero, execIllegalHigh, execShiftout,
      execXfer, whenInited, whenNotInited, whenLive_faulted hp hf]

/-! ### What the actions of a command are -/

theorem ledActs_cases {s : State} {a r c : Word} {on : Bool} {acts : List Action}
    (h : ledActs s a r c on = some acts) :
    acts = [] ∨ (AddrOk s.n a ∧ IdxOk r ∧ IdxOk c ∧ ∃ v, s.shadow.read (8 * a.toNat + r.toNat) = some v ∧
      acts = rowActs s.cfg.opcodes s.n.val a.toNat r.toNat (ledValue v c on)) := by
  by_cases hv : AddrOk s.n a ∧ IdxOk r ∧ IdxOk c
  · cases hr : s.shadow.read (8 * a.toNat + r.toNat) with
    | none =>
      rw [ledActs_unwritten on hv.1 hv.2.1 hv.2.2 hr] at h
      cases h
    | some v =>
      rw [ledActs_valid on hv.1 hv.2.1 hv.2.2 hr] at h
      injection h with h
      exact .inr ⟨hv.1, hv.2.1, hv.2.2, v, rfl, h.symm⟩
  · rw [ledActs_invalid on hv] at h
    injection h with h
    exact .inl h.symm

theorem joinActs_some {l : List (Option (List Action))} {m : List Action} (h : joinActs l = some m) :
    ∀ x ∈ l, ∃ y, x = some y := by
  induction l generalizing m with
  | nil => simp
  | cons x l ih =>
    cases x with
    | none => cases h
    | some y =>
      simp only [joinActs] at h
      split at h
      · rename_i m' hm'
        intro x hx
        rcases List.mem_cons.mp hx with rfl | hx
        · exact ⟨_, rfl⟩
        · exact ih hm' x hx
      · cases h

/-- SETCOL's actions exist only where all eight rows hold a value, and are those eight rows (R185). -/
theorem columnActs_cases {s : State} {a c : Word} {v : Byte} {acts : List Action} (ha : AddrOk s.n a)
    (hc : IdxOk c) (h : columnActs s a c v = some acts) :
    ∃ rows : Nat → Byte, (∀ r, r < 8 → s.shadow.read (8 * a.toNat + r) = some (rows r)) ∧
      acts = rowsActs s.cfg.opcodes s.n.val a.toNat (fun r => ledValue (rows r) c (v.getLsbD (7 - r))) 8 := by
  have hr : ∀ r, r < 8 →
      s.shadow.read (8 * a.toNat + r) = some ((s.shadow.read (8 * a.toNat + r)).getD 0) := by
    intro r hr
    obtain ⟨y, hy⟩ := joinActs_some h (ledActs s a (BitVec.ofNat 32 r) c (v.getLsbD (7 - r)))
      (List.mem_map.mpr ⟨r, by simpa using hr, rfl⟩)
    cases hx : s.shadow.read (8 * a.toNat + r) with
    | none =>
      rw [ledActs_unwritten _ ha (idxOk_ofNat hr) hc (by rw [toNat_ofNat_small hr]; exact hx)] at hy
      cases hy
    | some v => rfl
  refine ⟨_, hr, ?_⟩
  rw [columnActs_valid v ha hc hr] at h
  injection h with h
  exact h.symm

theorem registerActs_cases (n : Fin 9) (a : Word) (ok : Bool) (adr : BitVec 4) (d : Byte) :
    registerActs n a ok adr d = [] ∨
      (AddrOk n a ∧ ok = true ∧ registerActs n a ok adr d = xferActs n.val a.toNat (opcodeByte adr) d) := by
  unfold registerActs
  split
  · rename_i h
    simp only [Bool.and_eq_true, validAddr_iff] at h
    exact .inr ⟨h.1, h.2, rfl⟩
  · exact .inl rfl

/-- On an initialised block a host command does nothing, answers, writes one register, or writes one or all rows
of one device (R39). -/
theorem actsOf_shapes {s : State} {i : Instr} {acts : List Action} (hi : s.inited = true)
    (hx : (∀ m v, i ≠ .shiftout m v) ∧ ∀ a op d, i ≠ .xfer a op d) (h : actsOf s i = some acts) :
    acts = [] ∨ (∃ v, acts = [.respond v]) ∨
      (∃ (a : Word) (adr : BitVec 4) (d : Byte), AddrOk s.n a ∧
        (adr = s.cfg.opcodes.shutdown ∨ adr = s.cfg.opcodes.scanLimit ∨ adr = s.cfg.opcodes.intensity) ∧
        acts = xferActs s.n.val a.toNat (opcodeByte adr) d) ∨
      (∃ (a r : Word) (v : Byte) (pre : List Action), AddrOk s.n a ∧ IdxOk r ∧ (pre = [] ∨ pre = [.drawn]) ∧
        acts = pre ++ rowActs s.cfg.opcodes s.n.val a.toNat r.toNat v) ∨
      (∃ (a : Word) (f : Nat → Byte), AddrOk s.n a ∧ acts = rowsActs s.cfg.opcodes s.n.val a.toNat f 8) := by
  cases i <;> simp only [actsOf, hi, if_true, reduceCtorEq, Option.some.injEq] at h
  case getcount => subst h; exact .inr (.inl ⟨_, rfl⟩)
  case shutdown a en =>
    rcases registerActs_cases s.n a true s.cfg.opcodes.shutdown (shutdownByte en) with e | ⟨ha, -, e⟩
    · rw [e] at h
      exact .inl h.symm
    · rw [e] at h
      exact .inr (.inr (.inl ⟨a, _, _, ha, by simp, h.symm⟩))
  case scanlimit a l =>
    rcases registerActs_cases s.n a (guardOk s.cfg.guardMode l 0 7) s.cfg.opcodes.scanLimit (trunc8 l) with
      e | ⟨ha, -, e⟩
    · rw [e] at h
      exact .inl h.symm
    · rw [e] at h
      exact .inr (.inr (.inl ⟨a, _, _, ha, by simp, h.symm⟩))
  case intensity a l =>
    rcases registerActs_cases s.n a (guardOk s.cfg.guardMode l 0 15) s.cfg.opcodes.intensity (trunc8 l) with
      e | ⟨ha, -, e⟩
    · rw [e] at h
      exact .inl h.symm
    · rw [e] at h
      exact .inr (.inr (.inl ⟨a, _, _, ha, by simp, h.symm⟩))
  case clear a =>
    split at h
    · rename_i ha
      exact .inr (.inr (.inr (.inr ⟨a, _, validAddr_iff.mp ha, by rw [← h, clearActs_eq]⟩)))
    · exact .inl h.symm
  case setled a r c on =>
    rcases ledActs_cases h with h | ⟨ha, hr, hc, v, hv, h⟩
    · exact .inl h
    · exact .inr (.inr (.inr (.inl ⟨a, r, _, [], ha, hr, .inl rfl, h⟩)))
  case setrow a r v =>
    split at h
    · rename_i hh
      simp only [Bool.and_eq_true, validAddr_iff, validIdx_iff] at hh
      exact .inr (.inr (.inr (.inl ⟨a, r, _, [], hh.1, hh.2, .inl rfl, h.symm⟩)))
    · exact .inl h.symm
  case setcol a c v =>
    split at h
    · rename_i hh
      simp only [Bool.and_eq_true, validAddr_iff, validIdx_iff] at hh
      obtain ⟨rows, -, h⟩ := columnActs_cases hh.1 hh.2 h
      exact .inr (.inr (.inr (.inr ⟨a, _, hh.1, h⟩)))
    · injection h with h
      exact .inl h.symm
  case setdigit a r v dp =>
    split at h
    · rename_i hh
      simp only [Bool.and_eq_true, validAddr_iff, validIdx_iff] at hh
      exact .inr (.inr (.inr (.inl ⟨a, r, _, [], hh.1.1, hh.1.2, .inl rfl, h.symm⟩)))
    · exact .inl h.symm
  case setchar a r ch dp =>
    split at h
    · rename_i hh
      simp only [Bool.and_eq_true, validAddr_iff, validIdx_iff] at hh
      exact .inr (.inr (.inr (.inl
        ⟨a, r, _, drawActs s.cfg ch, hh.1, hh.2, by unfold drawActs; split <;> simp, h.symm⟩)))
    · exact .inl h.symm
  case shiftout m v => exact absurd rfl (hx.1 m v)
  case xfer a op d => exact absurd rfl (hx.2 a op d)

end Sys2Proof.Machine
end

