-- ==== Sys2Proof/Laws/SmallSteps.lean ====
section
/-! SUPPORT. The small-step view (R28): after k small steps a command has done exactly its actions up to the event
after the k-th, and lines and chips are those its first k events give. -/

namespace Sys2Proof.Machine

/-! ### The actions done after k events -/

/-- The actions a command has done when k of its events are out: up to the next event. -/
def firstActs : Nat → List Action → List Action
  | _, [] => []
  | 0, a :: l => if silent a then a :: firstActs 0 l else []
  | k + 1, a :: l => a :: firstActs (if silent a then k + 1 else k) l

/-- The actions left then. -/
def restActs : Nat → List Action → List Action
  | _, [] => []
  | 0, a :: l => if silent a then restActs 0 l else a :: l
  | k + 1, a :: l => restActs (if silent a then k + 1 else k) l

/-- How many events a list of actions emits. -/
abbrev eventsOf (l : List Action) : List Event := l.filterMap eventOf

theorem eventsOf_silent {a : Action} (h : silent a = true) (l : List Action) : eventsOf (a :: l) = eventsOf l := by
  simp [eventsOf, eventOf_silent h]

theorem eventsOf_loud {a : Action} (h : silent a = false) (l : List Action) :
    ∃ e, eventOf a = some e ∧ eventsOf (a :: l) = e :: eventsOf l := by
  obtain ⟨e, he⟩ := eventOf_loud h
  exact ⟨e, he, by simp [eventsOf, he]⟩

theorem firstActs_append_rest (k : Nat) (l : List Action) : firstActs k l ++ restActs k l = l := by
  induction l generalizing k with
  | nil => cases k <;> rfl
  | cons a l ih =>
    cases k with
    | zero => simp only [firstActs, restActs]; split <;> simp [ih]
    | succ k => simp [firstActs, restActs, ih]

/-- What is done has emitted k events. -/
theorem eventsOf_firstActs (k : Nat) (l : List Action) : eventsOf (firstActs k l) = (eventsOf l).take k := by
  induction l generalizing k with
  | nil => cases k <;> rfl
  | cons a l ih =>
    by_cases ha : silent a = true
    · cases k <;> simp only [firstActs, ha, if_true, eventsOf_silent ha, ih]
    · have ha' : silent a = false := by simpa using ha
      obtain ⟨e, he, hl⟩ := eventsOf_loud ha' l
      cases k with
      | zero => simp [firstActs, ha']
      | succ k =>
        obtain ⟨e', he', hl'⟩ := eventsOf_loud ha' (firstActs k l)
        simp only [firstActs, ha', Bool.false_eq_true, if_false, hl', hl, ih, List.take_succ_cons]
        rw [he] at he'
        injection he' with he'
        rw [he']

/-- Nothing is left exactly when all events are out. -/
theorem restActs_eq_nil (k : Nat) (l : List Action) (hk : k ≤ (eventsOf l).length) :
    restActs k l = [] ↔ k = (eventsOf l).length := by
  induction l generalizing k with
  | nil =>
    simp only [eventsOf, List.filterMap_nil, List.length_nil, Nat.le_zero_eq] at hk
    subst hk
    simp [restActs]
  | cons a l ih =>
    by_cases ha : silent a = true
    · rw [eventsOf_silent ha] at hk ⊢
      cases k <;> simpa only [restActs, ha, if_true] using ih _ hk
    · have ha' : silent a = false := by simpa using ha
      obtain ⟨e, -, hl⟩ := eventsOf_loud ha' l
      rw [hl, List.length_cons] at hk ⊢
      cases k with
      | zero => simp [restActs, ha']
      | succ k =>
        simp only [restActs, ha', Bool.false_eq_true, if_false, ih k (by omega)]
        omega

/-- A later list is reached only when the earlier one has emitted all its events. -/
theorem firstActs_append (k : Nat) (l m : List Action) :
    firstActs k (l ++ m) =
      if k < (eventsOf l).length then firstActs k l else l ++ firstActs (k - (eventsOf l).length) m := by
  induction l generalizing k with
  | nil => simp [eventsOf]
  | cons a l ih =>
    by_cases ha : silent a = true
    · rw [eventsOf_silent ha]
      cases k <;> simp only [List.cons_append, firstActs, ha, if_true, ih] <;> split <;> rfl
    · have ha' : silent a = false := by simpa using ha
      obtain ⟨e, -, hl⟩ := eventsOf_loud ha' l
      rw [hl, List.length_cons]
      cases k with
      | zero => simp [firstActs, ha']
      | succ k =>
        simp only [List.cons_append, firstActs, ha', Bool.false_eq_true, if_false, ih,
          Nat.add_lt_add_iff_right, Nat.add_sub_add_right]
        split <;> rfl

/-! ### Running -/

theorem run_next {k : Nat} {s t : State} (h : step s = .next t) :
    Sys2Proof.core.run (k + 1) s = Sys2Proof.core.run k t := by
  have h' : Sys2Proof.core.step s = .next t := h
  simp only [Host.Core.run, h']

theorem step_busy {s : State} {a : Action} {rest : List Action} (hf : s.fault = none)
    (hs : s.seq = .busy (a :: rest)) : step s = .next (settle rest (act a s)) := by
  unfold step
  rw [hf]
  dsimp only
  rw [hs]
  rfl

theorem act_seq (a : Action) (s : State) (q : Seq) : act a { s with seq := q } = { act a s with seq := q } := by
  cases a <;> rfl

/-- No action reads or writes the view. -/
theorem runActs_view (l : List Action) (s : State) (v : View) :
    runActs l { s with view := v } = { runActs l s with view := v } := by
  induction l generalizing s with
  | nil => rfl
  | cons a l ih =>
    rw [runActs_cons, runActs_cons, ← ih]
    cases a <;> rfl

/-- The state after k small steps of a command (R28). -/
theorem run_settle (l : List Action) (s : State) (hf : s.fault = none) (k : Nat)
    (hk : k ≤ (eventsOf l).length) :
    Sys2Proof.core.run k (settle l s) = .next { runActs (firstActs k l) s with seq := seqAt (restActs k l) } := by
  induction l generalizing s k with
  | nil =>
    simp only [eventsOf, List.filterMap_nil, List.length_nil, Nat.le_zero_eq] at hk
    subst hk
    rfl
  | cons a l ih =>
    by_cases ha : silent a = true
    · rw [eventsOf_silent ha] at hk
      rw [settle, if_pos ha, ih (act a s) (by rw [(act_keeps a s).2.1]; exact hf) k hk]
      cases k <;> simp only [firstActs, restActs, ha, if_true, runActs_cons]
    · have ha' : silent a = false := by simpa using ha
      obtain ⟨e, -, hl⟩ := eventsOf_loud ha' l
      rw [hl, List.length_cons] at hk
      rw [settle, if_neg ha]
      cases k with
      | zero => simp only [firstActs, restActs, ha', Bool.false_eq_true, if_false, runActs_nil]; rfl
      | succ k =>
        rw [run_next (step_busy (s := { s with seq := .busy (a :: l) }) hf rfl), act_seq,
          ih _ (by show (act a s).fault = none; rw [(act_keeps a s).2.1]; exact hf) k (by omega), runActs_seq]
        simp only [firstActs, restActs, ha', Bool.false_eq_true, if_false, runActs_cons]

/-- A block instruction in the small-step view, k events on, by its actions. -/
theorem smallSteps_issues {s : State} {i : Instr} {acts : List Action} (hl : Live s)
    (h : actsOf s i = some acts) (k : Nat) (hk : k ≤ (eventsOf acts).length) :
    smallSteps i k s =
      .next { runActs (firstActs k acts) s with view := .smallStep, seq := seqAt (restActs k acts) } := by
  have h' : actsOf { s with view := .smallStep } i = some acts := by cases i <;> exact h
  have hl' : Live { s with view := .smallStep } := hl
  have hr := run_settle acts { s with view := .smallStep } hl.2.1 k hk
  rw [runActs_view] at hr
  rw [smallSteps, exec_issues hl' h']
  exact hr

/-! ### Lines and chips follow the events -/

/-- What an action without an event changes is neither line nor chip, and no line or chip depends on it. -/
theorem replay_congr (evs : List Event) {s u : State} (hp : u.pin = s.pin) (hl : u.line = s.line)
    (hc : u.chain = s.chain) :
    (replay evs u).pin = (replay evs s).pin ∧ (replay evs u).chain = (replay evs s).chain := by
  induction evs generalizing s u with
  | nil => exact ⟨hp, hc⟩
  | cons e evs ih =>
    cases e with
    | respond v => exact ih hp hl hc
    | pinWrite p l =>
      refine ih ?_ hl ?_
      · simp [hp]
      · simp only [pinWrite_chain, chainAfter, hp, hl, hc]

/-- Lines and chips after a list of actions are those its events give (R13, R28). -/
theorem runActs_replay (l : List Action) (s : State) :
    (runActs l s).pin = (replay (eventsOf l) s).pin ∧ (runActs l s).chain = (replay (eventsOf l) s).chain := by
  induction l generalizing s with
  | nil => exact ⟨rfl, rfl⟩
  | cons a l ih =>
    rw [runActs_cons, (ih (act a s)).1, (ih (act a s)).2]
    cases a <;> first | exact ⟨rfl, rfl⟩ | exact replay_congr _ rfl rfl rfl

/-- Only INIT sets N or inited (R39). -/
theorem runActs_noInit {l : List Action} (h : ∀ a ∈ l, (∀ n, a ≠ .setN n) ∧ a ≠ .setInited) (s : State) :
    (runActs l s).inited = s.inited ∧ (runActs l s).n = s.n := by
  induction l generalizing s with
  | nil => exact ⟨rfl, rfl⟩
  | cons a l ih =>
    rw [runActs_cons, (ih (fun b hb => h b (List.mem_cons_of_mem _ hb)) _).1,
      (ih (fun b hb => h b (List.mem_cons_of_mem _ hb)) _).2]
    have ha := h a List.mem_cons_self
    cases a <;> first | exact ⟨rfl, rfl⟩ | exact absurd rfl (ha.1 _) | exact absurd rfl ha.2

end Sys2Proof.Machine
end

