-- ==== Sys2Proof/Tests/Slice0.lean ====
section
/-! SUPPORT. Small tests of one step each, with results from 95_test_vectors.md, 30_encoding.md and hand
calculation, and for every obligation with hypotheses a named state that meets them. -/

namespace Sys2Proof.Tests

open Sys2Proof.Machine

set_option Elab.async false

/-! ### Small states -/

/-- A character table that tells its entries apart: entry i is i. Any table will do (R33). -/
def table : Vector Byte 128 := ⟨((List.range 128).map (BitVec.ofNat 8)).toArray, by simp⟩

def config : Config := { Config.standard with charTable := table }

/-- A chip with a zero shift register and no known register. -/
def blank : Chip := ⟨.max7219, 0, []⟩

/-- A block before INIT whose platform left CLK low and CS high (R252), with m chips. -/
def fresh (m : Nat) : State :=
  { State.powerUp config m with chain := List.replicate m blank, line := ⟨.low, .high⟩ }

/-- An initialised block of n devices: all slots 0x00, the link clean. -/
def ready (n : Fin 9) : State :=
  { fresh n.val with
    inited := true
    n := n
    shadow := (List.range 64).map fun k => (k, 0x00)
    pin := ⟨.low, .low, .high⟩ }

/-- The block with one shadow slot preset. -/
def withSlot (s : State) (k : Nat) (v : Byte) : State := { s with shadow := s.shadow.write k v }

/-- The host's next command word. -/
def offer (s : State) (w : CommandWord) : State := { s with host := [w] }

def outcome : Host.Outcome State Fault Refusal → Option State
  | .next t => some t
  | .fault _ | .refused _ => none

/-- What an instruction leaves, seen through one field. -/
def after {α : Type} (i : Instr) (s : State) (f : State → α) : Option α := (outcome (exec i s)).map f

/-- What a step leaves, seen through one field. -/
def stepped {α : Type} (s : State) (f : State → α) : Option α := (outcome (step s)).map f

/-- A frame written as its wire bytes in send order, as 95_test_vectors.md writes it. -/
def wire (bytes : List Byte) : List Event :=
  .pinWrite .cs .low :: (bytes.flatMap byteEvents ++ [.pinWrite .cs .high])

/-- The levels of DIN in a trace, as bits. -/
def dinLevels (l : List Event) : List Bool :=
  l.filterMap fun
    | .pinWrite .din lv => some (lv == .high)
    | .pinWrite .clk _ | .pinWrite .cs _ | .respond _ => none

/-! ### Well-formedness: each check refuses an ill-formed term -/

theorem test_wellformed_wire_place : WellFormed (.wireDigit0 8 0x01) = false ∧ WellFormed (.wireDigit0 7 0x01) = true := by
  decide

theorem test_wellformed_illegal_zero :
    WellFormed (.illegalZero ⟨0x1, 0, 0, 0⟩) = false ∧ WellFormed (.illegalZero ⟨0x10, 0, 0, 0⟩) = true := by decide

theorem test_wellformed_illegal_high :
    WellFormed (.illegalHigh ⟨0xB, 0, 0, 0⟩) = false ∧ WellFormed (.illegalHigh ⟨0xC, 0, 0, 0⟩) = true := by decide

theorem test_wellformed_xfer_device :
    WellFormed (.xfer 8 0x01 0) = false ∧ WellFormed (.xfer 7 0x01 0) = true := by decide

theorem test_wellformed_xfer_opcode :
    WellFormed (.xfer 0 0x10 0) = false ∧ WellFormed (.xfer 0 0x0F 0) = true := by decide

/-! ### Decoding: words written out bit by bit from R91 to R94 and R102 -/

theorem test_decode_init :
    decode ⟨0b00000000000000000000000000000001, 0b100, 0, 0⟩ = .ok (.init 4) := by decide

theorem test_decode_getcount : decode ⟨0b00000000000000000000000000000010, 0, 0, 0⟩ = .ok .getcount := by decide

theorem test_decode_shutdown :
    decode ⟨0b00000000000000000000000000010011, 1, 0, 0⟩ = .ok (.shutdown 1 true) := by decide

theorem test_decode_scanlimit :
    decode ⟨0b00000000000000000000000000000100, 0, 7, 0⟩ = .ok (.scanlimit 0 7) := by decide

theorem test_decode_intensity :
    decode ⟨0b00000000000000000000000000000101, 2, 5, 0⟩ = .ok (.intensity 2 5) := by decide

theorem test_decode_clear :
    decode ⟨0b00000000000000000000000000000110, 3, 0, 0⟩ = .ok (.clear 3) := by decide

/-- F10: Z of SETLED is the whole word. -/
theorem test_decode_setled :
    decode ⟨0b00000000000000000000000000010111, 0, 0, 0xFFFFFFFF⟩ = .ok (.setled 0 0 (-1) true) := by decide

theorem test_decode_setrow :
    decode ⟨0b00000000000000000000000000001000, 0, 7, 0b11111110⟩ = .ok (.setrow 0 7 0xFE) := by decide

theorem test_decode_setcol :
    decode ⟨0b00000000000000000000000000001001, 0, 3, 0b10000001⟩ = .ok (.setcol 0 3 0x81) := by decide

theorem test_decode_setdigit :
    decode ⟨0b00000000000000000000000000011010, 1, 0, 0b101⟩ = .ok (.setdigit 1 0 5 true) := by decide

theorem test_decode_setchar :
    decode ⟨0b00000000000000000000000000001011, 0, 7, 0b01000001⟩ = .ok (.setchar 0 7 0x41 false) := by decide

/-- F4, and F11: an illegal CODE is found before a reserved bit. -/
theorem test_decode_illegal :
    decode ⟨0, 0, 0, 0⟩ = .ok (.illegalZero ⟨0, 0, 0, 0⟩) ∧
      decode ⟨0b00000000000000000000000000101100, 0, 0, 0⟩ = .ok (.illegalHigh ⟨0x2C, 0, 0, 0⟩) := by decide

/-- F6 to F9, and the checks on W1 and W0[4] that no vector shows. -/
theorem test_decode_reserved :
    ([⟨0x28, 0, 0, 0xFF⟩, ⟨0x18, 0, 0, 0xFF⟩, ⟨0x08, 0, 0, 0x100⟩, ⟨0x06, 0, 1, 0⟩, ⟨0x02, 1, 0, 0⟩,
      ⟨0x12, 0, 0, 0⟩, ⟨0x80000003, 0, 0, 0⟩, ⟨0x04, 0, 0, 1⟩] : List CommandWord).map decode =
      List.replicate 8 (.error .reservedField) := by decide

theorem test_decode_wire_noop : decodeWire 3 0b0000000000000000 = .ok (.wireNoop 3) := by decide

theorem test_decode_wire_digits :
    decodeWire 0 0b0000000110100101 = .ok (.wireDigit0 0 0xA5) ∧
      decodeWire 0 0b0000001010100101 = .ok (.wireDigit1 0 0xA5) ∧
      decodeWire 0 0b0000001110100101 = .ok (.wireDigit2 0 0xA5) ∧
      decodeWire 0 0b0000010010100101 = .ok (.wireDigit3 0 0xA5) ∧
      decodeWire 0 0b0000010110100101 = .ok (.wireDigit4 0 0xA5) ∧
      decodeWire 0 0b0000011010100101 = .ok (.wireDigit5 0 0xA5) ∧
      decodeWire 0 0b0000011110100101 = .ok (.wireDigit6 0 0xA5) ∧
      decodeWire 0 0b0000100010100101 = .ok (.wireDigit7 0 0xA5) := by decide

theorem test_decode_wire_control :
    decodeWire 7 0b0000100100000000 = .ok (.wireDecodemode 7 0x00) ∧
      decodeWire 7 0b0000101000001111 = .ok (.wireIntensityReg 7 0x0F) ∧
      decodeWire 7 0b0000101100000111 = .ok (.wireScanlimitReg 7 0x07) ∧
      decodeWire 7 0b0000110000000001 = .ok (.wireShutdownReg 7 0x01) ∧
      decodeWire 7 0b0000111100000000 = .ok (.wireDisplaytest 7 0x00) := by decide

/-- The block sends none of these (R63, R102). -/
theorem test_decode_wire_none :
    decodeWire 0 0x0001 = .error .notWireWord ∧ decodeWire 0 0x0D00 = .error .notWireWord ∧
      decodeWire 0 0x0E00 = .error .notWireWord ∧ decodeWire 0 0x1100 = .error .notWireWord := by decide

/-- The opcode table's own numbers, W0 in the low bits and zeros above. -/
theorem test_decode_table_word :
    decodeTableWord 32 0x00000007 = some (.setled 0 0 0 false) ∧
      decodeTableWord 16 0x0F00 = some (.wireDisplaytest 0 0x00) ∧ decodeTableWord 32 0x28 = none := by decide

/-! ### INIT, GETCOUNT -/

/-- K1, K2. -/
theorem test_init_clamps :
    ([0xFFFFFFFF, 0, 9, 0x7FFFFFFF, 0x80000000, 1, 8] : List Word).map clampN = [8, 8, 8, 8, 8, 1, 8] := by decide

/-- K3, S9: CS high, then the twelve words; 601 events. -/
theorem test_init_one_device :
    after (.init 1) (fresh 0) (fun t => (t.trace, t.emitted.length)) =
      some (.pinWrite .cs .high ::
        ([[0x0F, 0x00], [0x0B, 0x07], [0x09, 0x00], [0x01, 0x00], [0x02, 0x00], [0x03, 0x00], [0x04, 0x00],
          [0x05, 0x00], [0x06, 0x00], [0x07, 0x00], [0x08, 0x00], [0x0C, 0x00]] : List (List Byte)).flatMap wire,
        601) := by
  decide +kernel

/-- K5 with N = 8: one Respond(8). -/
theorem test_getcount_responds :
    after .getcount (ready 8) (fun t => t.emitted) = some [.respond 8] := by decide +kernel

/-- F2. -/
theorem test_getcount_before_init :
    after .getcount (fresh 1) (fun t => (t.fault, t.emitted)) = some (some .uninitialised, []) := by decide +kernel

/-- F5. -/
theorem test_init_again :
    after (.init 4) (ready 2) (fun t => (t.fault, t.n)) = some (some .reinitialise, 2) := by decide +kernel

/-! ### SHUTDOWN, SCANLIMIT, INTENSITY -/

/-- K6. -/
theorem test_shutdown_run :
    after (.shutdown 1 false) (ready 2) State.trace = some (wire [0x0C, 0x01, 0x00, 0x00]) := by decide +kernel

/-- K7. -/
theorem test_shutdown_out_of_range :
    after (.shutdown 2 true) (ready 2) State.trace = some [] ∧
      after (.shutdown 0xFFFFFFFF true) (ready 2) State.trace = some [] := by
  decide +kernel

/-- K9, source: 300 is sent as 0x2C, -1 as 0xFF. -/
theorem test_scanlimit_source :
    after (.scanlimit 0 300) (ready 1) State.trace = some (wire [0x0B, 0x2C]) ∧
      after (.scanlimit 0 0xFFFFFFFF) (ready 1) State.trace = some (wire [0x0B, 0xFF]) := by
  decide +kernel

/-- K8, K9, enforced. -/
theorem test_scanlimit_enforced :
    let s := { ready 1 with cfg := { config with guardMode := .enforced } }
    after (.scanlimit 0 8) s State.trace = some [] ∧ after (.scanlimit 0 7) s State.trace = some (wire [0x0B, 0x07]) := by
  decide +kernel

/-- K11, source. -/
theorem test_intensity_source :
    after (.intensity 0 16) (ready 1) State.trace = some (wire [0x0A, 0x10]) ∧
      after (.intensity 0 0x80000000) (ready 1) State.trace = some (wire [0x0A, 0x00]) := by
  decide +kernel

/-- K10, K11, enforced. -/
theorem test_intensity_enforced :
    let s := { ready 1 with cfg := { config with guardMode := .enforced } }
    after (.intensity 0 16) s State.trace = some [] ∧
      after (.intensity 0 15) s State.trace = some (wire [0x0A, 0x0F]) := by
  decide +kernel

/-! ### CLEAR, SETLED, SETROW, SETCOL, SETDIGIT, SETCHAR -/

/-- D1, D2: device 0's row goes, device 1's stays; the words 0100 to 0800. -/
theorem test_clear_one_device :
    after (.clear 0) (withSlot (withSlot (ready 2) 7 0xFF) 8 0x5A) (fun t => (t.shadow.read 7, t.shadow.read 8)) =
      some (some 0x00, some 0x5A) := by decide +kernel

theorem test_clear_words :
    after (.clear 0) (ready 1) State.trace =
      some (([[0x01, 0x00], [0x02, 0x00], [0x03, 0x00], [0x04, 0x00], [0x05, 0x00], [0x06, 0x00], [0x07, 0x00],
        [0x08, 0x00]] : List (List Byte)).flatMap wire) := by decide +kernel

/-- D8. -/
theorem test_setled_merges :
    after (.setled 0 2 3 true) (withSlot (ready 1) 2 0x81) (fun t => (t.shadow.read 2, t.trace)) =
      some (some 0x91, wire [0x03, 0x91]) := by decide +kernel

/-- D5, D4. -/
theorem test_setled_columns :
    after (.setled 0 0 3 false) (withSlot (ready 1) 0 0xFF) (fun t => t.shadow.read 0) = some (some 0xEF) ∧
      after (.setled 0 0 7 true) (ready 1) (fun t => t.shadow.read 0) = some (some 0x01) := by
  decide +kernel

/-- D10. -/
theorem test_setrow_second_device :
    after (.setrow 0 7 0xFF) (ready 2) (fun t => (t.shadow.read 7, t.trace)) =
      some (some 0xFF, wire [0x00, 0x00, 0x08, 0xFF]) := by decide +kernel

/-- D11: no merge. -/
theorem test_setrow_replaces :
    after (.setrow 0 5 0x00) (withSlot (ready 1) 5 0x3C) (fun t => t.shadow.read 5) = some (some 0x00) := by
  decide +kernel

/-- D12. -/
theorem test_setcol_bits :
    after (.setcol 0 3 0xA5) (ready 1) (fun t => (List.range 8).map t.shadow.read) =
      some ([0x10, 0x00, 0x10, 0x00, 0x00, 0x10, 0x00, 0x10].map some) := by decide +kernel

/-- D14. -/
theorem test_setcol_out_of_range : after (.setcol 0 8 0xFF) (ready 1) State.trace = some [] := by decide +kernel

/-- D16, with T[15] = 0x0F. -/
theorem test_setdigit_point :
    after (.setdigit 0 7 15 true) (ready 1) (fun t => (t.shadow.read 7, t.trace)) =
      some (some 0x8F, wire [0x08, 0x8F]) := by decide +kernel

/-- D17. -/
theorem test_setdigit_no_op :
    after (.setdigit 0 0 16 false) (ready 1) State.trace = some [] ∧
      after (.setdigit 0 8 1 false) (ready 1) State.trace = some [] := by
  decide +kernel

/-- D19, D21, remap_first, with T[127] = 0x7F and T[32] = 0x20. -/
theorem test_setchar_remap :
    after (.setchar 0 0 127 false) (ready 1) (fun t => t.shadow.read 0) = some (some 0x7F) ∧
      after (.setchar 0 1 200 true) (ready 1) (fun t => t.shadow.read 1) = some (some 0xA0) := by
  decide +kernel

/-- D20, source_order: a byte is drawn and the row is sent whatever it is. -/
theorem test_setchar_draw :
    after (.setchar 0 0 128 false) { ready 1 with cfg := { config with lookupOrder := .sourceOrder } }
      (fun t => (t.draws, t.fault)) = some (1, none) := by decide +kernel

/-! ### Illegal words -/

/-- F4 and F11, each before INIT. -/
theorem test_illegal_codes :
    stepped (offer (fresh 1) ⟨0, 0, 0, 0⟩) (fun t => (t.fault, t.emitted)) = some (some .illegalCommand, []) ∧
      stepped (offer (fresh 1) ⟨0x2C, 0, 0, 0⟩) (fun t => (t.fault, t.emitted)) = some (some .illegalCommand, []) := by
  decide +kernel

/-- F7 after INIT. -/
theorem test_reserved_field :
    stepped (offer (ready 1) ⟨0x18, 0, 0, 0xFF⟩) (fun t => (t.fault, t.emitted)) = some (some .reservedField, []) := by
  decide +kernel

/-- F12. -/
theorem test_faulted_block :
    step (offer { ready 1 with fault := some .uninitialised } ⟨0x02, 0, 0, 0⟩) = .fault (.halted .uninitialised) :=
  rfl

/-! ### SHIFTOUT, XFER -/

/-- T1. -/
theorem test_shiftout_msb :
    after (.shiftout true 0xA5) (ready 1) (fun t => (dinLevels t.trace, t.emitted.length, t.pin.din, t.pin.clk)) =
      some ([true, false, true, false, false, true, false, true], 24, .high, .low) := by decide +kernel

/-- T3. -/
theorem test_shiftout_lsb :
    after (.shiftout false 0x01) (ready 1) (fun t => dinLevels t.trace) =
      some [true, false, false, false, false, false, false, false] := by decide +kernel

/-- T5, on the wire. -/
theorem test_xfer_far_device :
    after (.xfer 7 0x01 0xFF) (ready 8) State.trace =
      some (wire ([0x01, 0xFF] ++ List.replicate 14 0x00)) := by decide +kernel

/-- T7, in the chips. -/
theorem test_xfer_latches :
    after (.xfer 1 0x0C 0x01) (ready 2) (fun t => (t.chain.map Chip.sr, devReg t 1 0xC, devReg t 0 0xC)) =
      some ([0x0000, 0x0C01], some 0x01, none) := by decide +kernel

/-- T8: a third device latches a stale word. -/
theorem test_xfer_long_chain :
    (after (.xfer 0 0x01 0xAA) { ready 2 with chain := List.replicate 3 blank } id).bind
        (fun s => after (.xfer 1 0x0C 0x01) s (fun t => (t.chain.map Chip.sr, devReg t 2 0x1))) =
      some ([0x0000, 0x0C01, 0x01AA], some 0xAA) := by decide +kernel

/-- T9: fifteen edges, bit 15 stale (here a 1 that stood in bit 0), the word latched all the same. -/
theorem test_xfer_high_clock :
    after (.xfer 0 0x01 0x81) { ready 1 with pin := ⟨.low, .high, .high⟩, chain := [⟨.max7219, 0x0001, []⟩] }
      (fun t => (t.chain.map Chip.sr, devReg t 0 0x1)) = some ([0x8181], some 0x81) := by decide +kernel

/-! ### Wire words -/

/-- R102: each word reaches its own register. -/
theorem test_wire_registers :
    ([.wireDigit0 0 0xA5, .wireDigit1 0 0xA5, .wireDigit2 0 0xA5, .wireDigit3 0 0xA5, .wireDigit4 0 0xA5,
        .wireDigit5 0 0xA5, .wireDigit6 0 0xA5, .wireDigit7 0 0xA5, .wireDecodemode 0 0xA5,
        .wireIntensityReg 0 0xA5, .wireScanlimitReg 0 0xA5, .wireShutdownReg 0 0xA5,
        .wireDisplaytest 0 0xA5] : List Instr).map (fun i => after i (ready 1) (fun t => t.chain.map Chip.reg)) =
      ([0x1, 0x2, 0x3, 0x4, 0x5, 0x6, 0x7, 0x8, 0x9, 0xA, 0xB, 0xC, 0xF] : List Nat).map
        (fun k => some [[(k, 0xA5)]]) := by decide +kernel

theorem test_wire_noop : after (.wireNoop 0) (ready 1) (fun t => t.chain) = some [blank] := by decide +kernel

/-- R74: the words in the shift registers are latched by the CS edge that ends a transfer. -/
theorem test_step_latches :
    stepped ((ready 2).withFetchWord 16 0x0A05) (fun t => (devReg t 0 0xA, devReg t 1 0xA, t.seq, t.emitted)) =
      some (some 0x05, none, .idle, [.pinWrite .cs .high]) := by decide +kernel

/-- The host's word, placed and run. -/
theorem test_step_runs_command :
    stepped ((ready 1).withFetchWord 32 0x00000002) (fun t => (t.emitted, t.host)) = some ([.respond 1], []) := by
  decide +kernel

/-- R28: in the small-step view the command is issued, its first event comes with the next step. -/
theorem test_small_step :
    let s := { offer (ready 1) ⟨0x02, 0, 0, 0⟩ with view := .smallStep }
    stepped s (fun t => (t.seq, t.emitted)) = some (.busy [.respond 1], []) ∧
      (outcome (step s)).bind (fun t => stepped t (fun u => (u.seq, u.emitted))) = some (.idle, [.respond 1]) := by
  decide +kernel

/-! ### Witnesses: states and operands that meet the hypotheses of the obligations, clause by clause -/

/-- A chip whose row registers hold 0x00. -/
def dark : Chip := ⟨.max7219, 0, (List.range 8).map fun r => (r + 1, 0x00)⟩

/-- An initialised block whose chips hold what its shadow holds. -/
def mirrored (n : Fin 9) : State := { ready n with chain := List.replicate n.val dark }

def small (s : State) : State := { s with view := .smallStep }

/-- EncodeThenDecode: one instruction of each check, at the edge of its range. -/
theorem test_witness_encode :
    WellFormed (.wireDigit7 7 0xFF) = true ∧ encode (.wireDigit7 7 0xFF) = some (.wire 7 0x08FF) ∧
      WellFormed (.illegalHigh ⟨0xFFFFFFFF, 0, 0, 0⟩) = true ∧ WellFormed (.illegalZero ⟨0xFFFFFFF0, 0, 0, 0⟩) = true ∧
      WellFormed (.setled 0x80000000 0 0xFFFFFFFF true) = true ∧ WellFormed (.xfer 7 0x0F 0) = true ∧
      encode (.xfer 7 0x0F 0) = none := by decide

/-- DecodeThenEncode, both parts. -/
theorem test_witness_decode :
    decode ⟨0x1B, 0xFFFFFFFF, 0x80000000, 0xFF⟩ = .ok (.setchar 0xFFFFFFFF 0x80000000 0xFF true) ∧
      decodeWire 7 0x0FFF = .ok (.wireDisplaytest 7 0xFF) := by decide

/-- DecoderFollowsTheCodeTable: illegal codes at both ends, and each of the eleven codes with and without a
reserved bit. -/
theorem test_witness_code_table :
    HasIllegalCode ⟨0xFFFFFFF0, 0, 0, 0⟩ ∧ HasIllegalCode ⟨0x0C, 0, 0, 0⟩ ∧ HasIllegalCode ⟨0xFFFFFFFF, 1, 1, 1⟩ ∧
      (∀ k ∈ List.range 11, HasReservedBits ⟨BitVec.ofNat 32 (k + 0x21), 0, 0, 0⟩ ∧
        ¬ HasReservedBits ⟨BitVec.ofNat 32 (k + 1), 0, 0, 0⟩) := by decide

/-- ReservedFields: each of the six checks alone, and a live block to meet it, before and after INIT. -/
theorem test_witness_reserved :
    ∀ w ∈ ([⟨0x80000001, 0, 0, 0⟩, ⟨0x11, 0, 0, 0⟩, ⟨0x02, 1, 0, 0⟩, ⟨0x03, 0, 1, 0⟩, ⟨0x05, 0, 0, 1⟩,
      ⟨0x0B, 0, 0, 0x100⟩] : List CommandWord), HasReservedBits w := by decide

theorem test_witness_reserved_block :
    Live (offer (fresh 1) ⟨0x0B, 0, 0, 0x100⟩) ∧ Live (offer (ready 1) ⟨0x0B, 0, 0, 0x100⟩) := by decide +kernel

/-- StepRuns, IllegalCodes: a live block with a host command, before and after INIT. -/
theorem test_witness_step :
    Live (offer (fresh 1) ⟨0x0F, 0, 0, 0⟩) ∧ (offer (fresh 1) ⟨0x0F, 0, 0, 0⟩).host = [⟨0x0F, 0, 0, 0⟩] ∧
      HasIllegalCode ⟨0x0F, 0, 0, 0⟩ ∧ Live (offer (ready 8) ⟨0x02, 0, 0, 0⟩) ∧
      decode ⟨0x02, 0, 0, 0⟩ = .ok .getcount := by decide +kernel

/-- ChipSelectEdgeRunsTheWireWords: a NOOP device and one with a register write. -/
theorem test_witness_latch :
    let s := (ready 2).withFetchWord 16 0x0CFF
    s.fault = none ∧ s.seq = .busy [.pin .cs .high] ∧ s.pin.cs = .low ∧
      s.chain.map (fun c => decodeWire 0 c.sr) = [.ok (.wireShutdownReg 0 0xFF), .ok (.wireNoop 0)] := by
  decide +kernel

/-- InitialisationFaults, NeedsInit: both parts. -/
theorem test_witness_initialisation :
    isCommand .getcount = true ∧ isInit .getcount = false ∧ Live (fresh 8) ∧ (fresh 8).inited = false ∧
      Live (ready 1) ∧ (ready 1).inited = true := by decide +kernel

/-- FaultsArePreciseAndTerminal: a step that takes a fault, and a faulted block. -/
theorem test_witness_faults :
    stepped (offer (fresh 1) ⟨0x02, 0, 0, 0⟩) (fun t => t.fault) = some (some .uninitialised) ∧
      (offer (fresh 1) ⟨0x02, 0, 0, 0⟩).fault = none ∧
      ({ ready 1 with fault := some .reservedField } : State).fault = some .reservedField ∧
      pinsDistinct (ready 1).cfg.pins = true ∧ wireTarget (.xfer 0 1 1) = none := by decide +kernel

/-- CommandsMeetingABusyBlock, RunningCommandsAlwaysComplete: a running command with one and with two actions
left. -/
theorem test_witness_busy :
    let s := { ready 1 with seq := .busy [.pin .clk .high, .pin .clk .low] }
    let u := { ready 1 with seq := .busy [.respond 1] }
    pinsDistinct s.cfg.pins = true ∧ s.fault = none ∧ s.seq = .busy [.pin .clk .high, .pin .clk .low] ∧
      u.fault = none ∧ u.seq = .busy [.respond 1] ∧ wireTarget .getcount = none := by decide +kernel

/-- CoincidingPins: each pair of lines. -/
theorem test_witness_pins :
    ∀ p ∈ ([⟨⟨0, 1⟩, ⟨0, 1⟩, ⟨0, 2⟩⟩, ⟨⟨0, 2⟩, ⟨0, 1⟩, ⟨0, 2⟩⟩, ⟨⟨0, 0⟩, ⟨0, 2⟩, ⟨0, 2⟩⟩] : List PinMap),
      p.din = p.clk ∨ p.din = p.cs ∨ p.clk = p.cs := by decide

/-- UnwrittenRows: an initialised block without one slot, the last row of device 0. -/
theorem test_witness_unwritten :
    let s := { ready 1 with shadow := (List.range 7).map fun k => (k, 0x00) }
    Live s ∧ s.inited = true ∧ AddrOk s.n 0 ∧ IdxOk 7 ∧ s.shadow.read (8 * (0 : Word).toNat + 7) = none ∧
      s.shadow.read (8 * (0 : Word).toNat + 6) = some 0x00 := by decide +kernel

/-- OutOfRangeOperands and the no-op clauses of every command: each operand just outside its range, on both
sides, the others inside. -/
theorem test_witness_out_of_range :
    Ready (ready 1) ∧ ¬ AddrOk 1 1 ∧ ¬ AddrOk 1 0xFFFFFFFF ∧ ¬ AddrOk 8 8 ∧ AddrOk 1 0 ∧ ¬ IdxOk 8 ∧
      ¬ IdxOk 0xFFFFFFFF ∧ IdxOk 0 ∧ ¬ (0x10#8).toNat ≤ 15 := by decide +kernel

/-- The clauses of every command that completes: each operand at both ends of its range. -/
theorem test_witness_in_range :
    Ready (ready 1) ∧ Ready (ready 8) ∧ AddrOk (ready 1).n 0 ∧ AddrOk (ready 8).n 7 ∧ IdxOk 0 ∧ IdxOk 7 ∧
      DigitsFit (ready 8) ∧ (0x0F#8).toNat ≤ 15 ∧ ChipsListen (ready 8) ∧
      (ready 8).shadow.read (8 * 7 + 7) = some 0x00 ∧
      (ready 8).cfg.opcodes = Opcodes.standard := by decide +kernel

/-- The block with another address for row 0. -/
def withDigit0 (s : State) (d : BitVec 4) : State :=
  { s with cfg := { s.cfg with opcodes := { s.cfg.opcodes with digit0 := d } } }

/-- DigitsFit at its bounds, where registers 0x8 to 0xF and 0x0 to 0x7 are the rows, and just outside; the
statements about rows hold on both sides. -/
theorem test_witness_digits_fit :
    (∀ d ∈ ([0, 8, 9, 15] : List (BitVec 4)), Ready (withDigit0 (ready 1) d) ∧ Fresh (withDigit0 (fresh 1) d) ∧
      ChipsListen (withDigit0 (ready 1) d) ∧ AddrOk (withDigit0 (ready 1) d).n 0 ∧
      (withDigit0 (ready 1) d).shadow.read (8 * 0 + 7) = some 0x00) ∧
      DigitsFit (withDigit0 (ready 1) 0) ∧ DigitsFit (withDigit0 (ready 1) 8) ∧
      ¬ DigitsFit (withDigit0 (ready 1) 9) ∧ ¬ DigitsFit (withDigit0 (ready 1) 15) := by decide +kernel

/-- RowSent at DIGIT0 = 8: row 7 goes to register 0xF (R170); at DIGIT0 = 15 SETROW completes all the same. -/
theorem test_setrow_digit0 :
    after (.setrow 0 7 0xA5) (withDigit0 (ready 1) 8) (fun t => (t.trace, devReg t 0 0xF)) =
      some (wire [0x0F, 0xA5], some 0xA5) ∧
      after (.setrow 0 7 0xA5) (withDigit0 (ready 1) 15) (fun t => (t.shadow.read 7, t.emitted.length)) =
        some (some 0xA5, 50) := by decide +kernel

/-- SetCol, SetColIsEightSetLeds: the eight rows of a device. -/
theorem test_witness_rows :
    let s := withSlot (ready 2) 15 0xFF
    Ready s ∧ AddrOk s.n 1 ∧ IdxOk 7 ∧ DigitsFit s ∧ ChipsListen s ∧ s.cfg.opcodes = Opcodes.standard ∧
      ∀ r, r < 8 → s.shadow.read (8 * (1 : Word).toNat + r) = some (if r = 7 then 0xFF else 0x00) := by
  decide +kernel

/-- ScanLimit, Intensity: the two guards, inside and outside. -/
theorem test_witness_guards :
    (ready 1).cfg.guardMode = .source ∧ Ready (ready 1) ∧ AddrOk (ready 1).n 0 ∧
      Ready { ready 1 with cfg := { config with guardMode := .enforced } } ∧
      (0 ≤ (7 : Word).toInt ∧ (7 : Word).toInt ≤ 7) ∧ ¬ (0 ≤ (8 : Word).toInt ∧ (8 : Word).toInt ≤ 7) ∧
      ¬ (0 ≤ (0xFFFFFFFF : Word).toInt ∧ (0xFFFFFFFF : Word).toInt ≤ 15) ∧
      ¬ (0 ≤ (16 : Word).toInt ∧ (16 : Word).toInt ≤ 15) := by decide +kernel

/-- SetChar's three clauses: the last table entry, and the first code beyond it in either order. -/
theorem test_witness_characters :
    let s := { ready 1 with cfg := { config with lookupOrder := .sourceOrder } }
    (0x7F#8).toNat < 128 ∧ 128 ≤ (0x80#8).toNat ∧ (ready 1).cfg.lookupOrder = .remapFirst ∧ Ready (ready 1) ∧
      Ready s ∧ AddrOk s.n 0 ∧ IdxOk 7 ∧ DigitsFit s ∧ s.cfg.lookupOrder = .sourceOrder := by decide +kernel

/-- ShiftOut, Xfer: a live block, devices at both ends, a device just outside, the source's length 4. -/
theorem test_witness_transport :
    Live (ready 4) ∧ (ready 4).view = .bigStep ∧ (ready 4).n = 4 ∧ AddrOk (ready 4).n 0 ∧ AddrOk (ready 4).n 3 ∧
      ¬ AddrOk (ready 4).n 4 ∧ ¬ AddrOk (fresh 4).n 0 ∧ CleanLink (ready 4) ∧
      (ready 4).chain.length = (ready 4).n.val := by decide +kernel

/-- ClockEdge: an edge with CS low, one with CS high on either kind of chip, one on an undriven CLK, none. -/
theorem test_witness_clock_edge :
    (ready 1).pin.clk = .low ∧ (ready 1).pin.cs = .high ∧ (∀ c ∈ (ready 1).chain, c.kind = .max7219) ∧
      (∀ c ∈ [({ blank with kind := .max7221 } : Chip)], c.kind = .max7221) ∧
      ((ready 1).withFetchWord 16 0).pin.cs = .low ∧ ((ready 1).withFetchWord 16 0).pin.clk = .low ∧
      (fresh 1).pin.clk = .unknown ∧ (fresh 1).line.clk = .low ∧
      (pinWrite .clk .high (ready 1)).pin.clk = .high := by decide +kernel

/-- ChipSelectEdge: driven low, left low by the platform, no edge. -/
theorem test_witness_select_edge :
    ((ready 1).withFetchWord 16 0x0F00).pin.cs = .low ∧ ((ready 1).withFetchWord 16 0x0F00).chain[0]? ≠ none ∧
      ({ fresh 1 with line := ⟨.low, .low⟩ } : State).pin.cs = .unknown ∧ (ready 1).pin.cs = .high := by
  decide +kernel

/-- XferOnAHighClock. -/
theorem test_witness_high_clock :
    let s := { ready 2 with pin := ⟨.low, .high, .high⟩ }
    Live s ∧ s.view = .bigStep ∧ AddrOk s.n 1 ∧ s.pin.clk = .high ∧ s.pin.cs = .high ∧
      s.chain.length = s.n.val := by decide +kernel

/-- WireWords: a NOOP, the first and the last register. -/
theorem test_witness_wire_targets :
    wireTarget (.wireNoop 7) = some (7, 0, 0x00) ∧ wireTarget (.wireDigit0 0 0xFF) = some (0, 1, 0xFF) ∧
      wireTarget (.wireDisplaytest 7 0x01) = some (7, 15, 0x01) := by decide

/-- The four statements about INIT: a fresh block; the boot premise with as many chips as N becomes, for both
ends of the range of N; CS left low, with a stray word for one of the three registers. -/
theorem test_witness_init :
    Fresh (fresh 1) ∧ DigitsFit (fresh 1) ∧ BootReady (fresh 1) ∧ (fresh 1).cfg.opcodes = Opcodes.standard ∧
      after (.init 1) (fresh 1) (fun t => decide ((fresh 1).chain.length = t.n.val)) = some true ∧
      (clampN 8).val = (fresh 8).chain.length ∧
      Fresh (fresh 8) ∧ BootReady (fresh 8) := by decide +kernel

/-- One chip with a stray word, its platform having left CS low. -/
def stray (w : Half) : State := { fresh 1 with line := ⟨.low, .low⟩, chain := [⟨.max7219, w, [(0xD, 0x5A)]⟩] }

/-- CS left low (R256): a stray word for INTENSITY stays, one for DISPLAYTEST is overwritten, and NOOP and every
register no word addresses keep their value. -/
theorem test_witness_init_cs_low :
    Fresh (stray 0x0A0F) ∧ (stray 0x0A0F).pin = ⟨.unknown, .unknown, .unknown⟩ ∧
      (stray 0x0A0F).cfg.opcodes = Opcodes.standard ∧ (stray 0x0A0F).chain.length = (clampN 1).val ∧
      (stray 0x0A0F).chain[0]? = some ⟨.max7219, 0x0A0F, [(0xD, 0x5A)]⟩ ∧
      after (.init 1) (stray 0x0A0F) (fun t => [0xA, 0xB, 0xC, 0xD, 0xF, 0x1, 0x8].map (devReg t 0)) =
        some [some 0x0F, some 0x07, some 0x00, some 0x5A, some 0x00, some 0x00, some 0x00] := by decide +kernel

theorem test_init_cs_low_overwrites :
    after (.init 1) (stray 0x0FFF) (fun t => [0xF, 0xA].map (devReg t 0)) = some [some 0x00, none] ∧
      after (.init 1) (stray 0x00FF) (fun t => [0x0, 0xA, 0xB].map (devReg t 0)) = some [none, none, some 0x07] := by
  decide +kernel

/-- SetLedOnThenOff: a bit that was clear, and one that was set (S2). -/
theorem test_witness_led_twice :
    Ready (withSlot (ready 1) 0 0x80) ∧ (withSlot (ready 1) 0 0x80).shadow.read (8 * (0 : Word).toNat + 0) = some 0x80 ∧
      AddrOk (withSlot (ready 1) 0 0x80).n 0 ∧ IdxOk 0 ∧ IdxOk 7 ∧ (0x80#8).getLsbD (7 - 0) = true ∧ (0x80#8).getLsbD (7 - 7) = false := by decide +kernel

/-- EventCounts: a command after INIT, INIT itself, each with a next state. -/
theorem test_witness_event_counts :
    isCommand .getcount = true ∧ Ready (ready 1) ∧ after .getcount (ready 1) (fun t => t.emitted.length) = some 1 ∧
      Fresh (fresh 0) ∧ isInit (.init 1) = true ∧ isCommand (.init 1) = true ∧
      after (.init 1) (fresh 0) (fun t => t.emitted.length) = some (eventCount (fresh 0) (.init 1)) := by
  decide +kernel

/-- SmallSteps: a command whose big step gives a next state, after 50 events. -/
theorem test_witness_small_steps :
    Live (ready 1) ∧ (ready 1).view = .bigStep ∧ wireTarget (.shutdown 0 false) = none ∧
      after (.shutdown 0 false) (ready 1) (fun t => t.emitted.length) = some 50 ∧
      after (.shutdown 0 false) (small (ready 1)) (fun t => decide (t.seq = .idle)) = some false := by decide +kernel

/-- What an instruction leaves after k small steps, seen through one field. -/
def during {α : Type} (i : Instr) (k : Nat) (s : State) (f : State → α) : Option α :=
  (outcome (smallSteps i k s)).map f

/-- RowsTakeEffectOneByOne: CLEAR of a device with two lit rows, after 0, 49 and 50 of its 400 events (R257). -/
theorem test_clear_row_by_row :
    let s := withSlot (withSlot (ready 1) 0 0xFF) 1 0xFF
    [0, 49, 50].map (fun k => during (.clear 0) k s (fun v => [0, 1].map v.shadow.read)) =
      [some [some 0x00, some 0xFF], some [some 0x00, some 0xFF], some [some 0x00, some 0x00]] := by decide +kernel

theorem test_witness_clear_events :
    Ready (ready 1) ∧ after (.clear 0) (ready 1) (fun t => (t.since (ready 1)).length) = some 400 := by decide +kernel

/-- RowsTakeEffectOneByOne, the other instructions: SETROW's slot holds its byte before the first event. -/
theorem test_setrow_before_transfer :
    during (.setrow 0 0 0xFF) 0 (ready 1) (fun v => (v.shadow.read 0, v.emitted)) = some (some 0xFF, []) := by
  decide +kernel

/-- InitTakesEffectAtItsPlaces: N first, then CS high and the shadow, and inited still to come. -/
theorem test_init_in_the_middle :
    Fresh (fresh 1) ∧
      during (.init 1) 0 (fresh 1) (fun v => (v.n, v.inited, v.shadow.read 63, v.emitted)) =
        some (1, false, none, []) ∧
      during (.init 1) 1 (fresh 1) (fun v => (v.inited, v.shadow.read 63, v.emitted)) =
        some (false, some 0x00, [.pinWrite .cs .high]) := by decide +kernel

/-- ConfigurationAndChainLength, Between, Canonical, Mirrors: states that meet the invariant, before and after
INIT and in the middle of a command, and that take a step. -/
theorem test_witness_between :
    Between (offer (fresh 1) ⟨0x01, 1, 0, 0⟩) ∧ Between (offer (ready 1) ⟨0x02, 0, 0, 0⟩) ∧
      (ready 1).view = .bigStep ∧ (offer (ready 1) ⟨0x02, 0, 0, 0⟩).inited = true ∧
      stepped (offer (ready 1) ⟨0x02, 0, 0, 0⟩) (fun t => t.n) = some 1 := by decide +kernel

theorem test_witness_canonical :
    Canonical (offer (ready 1) ⟨0x08, 0, 0, 0xFF⟩) ∧
      Canonical { ready 1 with seq := .busy [.loadFrame [1, 2], .writeShadow 63 0xFF, .pin .cs .high] } ∧
      stepped (offer (ready 1) ⟨0x08, 0, 0, 0xFF⟩) (fun t => t.shadow.read 0) = some (some 0xFF) := by
  decide +kernel

theorem test_witness_mirror :
    Mirrors (offer (mirrored 1) ⟨0x08, 0, 7, 0xFF⟩) ∧ (mirrored 1).view = .bigStep ∧ (mirrored 1).seq = .idle ∧
      (mirrored 1).inited = true ∧ Mirrors (mirrored 8) ∧
      stepped (offer (mirrored 1) ⟨0x08, 0, 7, 0xFF⟩) (fun t => devReg t 0 8) = some (some 0xFF) := by decide +kernel

end Sys2Proof.Tests
end

section
/-! SUPPORT. What stands before every block instruction, used for the refusal of R32 and the stuck caller of R29;
the stop of D9; the power-up state (R38). -/

namespace Sys2Proof.Machine

/-- Every block instruction begins with the same prologue (R32, R215, R29). -/
theorem exec_eq_whenLive {i : Instr} (hw : wireTarget i = none) (s : State) : ∃ k, exec i s = whenLive s k := by
  cases i <;> first | exact ⟨_, rfl⟩ | cases hw

theorem whenLive_coinciding {s : State} (hp : pinsDistinct s.cfg.pins = false)
    (k : Host.Outcome State Fault Refusal) : whenLive s k = .refused .pinsCoincide := by
  simp [whenLive, hp]

theorem pinsDistinct_eq_false {p : PinMap} (h : p.din = p.clk ∨ p.din = p.cs ∨ p.clk = p.cs) :
    pinsDistinct p = false := by
  rcases h with h | h | h <;> simp [pinsDistinct, h]

/-- Settles O13: the prologue refuses before anything else is looked at. -/
theorem coincidingPinsAreRefused : Obligations.CoincidingPinsAreRefused := by
  intro s i hw hp
  obtain ⟨k, hk⟩ := exec_eq_whenLive hw s
  rw [hk, whenLive_coinciding (pinsDistinct_eq_false hp)]

/-- Settles O11: the prologue stops a second caller. -/
theorem commandsMeetingABusyBlockAreStuck : Obligations.CommandsMeetingABusyBlockAreStuck := by
  intro s rest i hp hf hs hw
  obtain ⟨k, hk⟩ := exec_eq_whenLive hw s
  rw [hk, whenLive_busy hp hf hs]

/-- SETCOL's bodies do not exist where one of the eight rows holds no value (R185, D9). -/
theorem columnActs_unwritten {s : State} {a c : Word} {k : Nat} (v : Byte) (ha : AddrOk s.n a) (hc : IdxOk c)
    (hk : k < 8) (hr : s.shadow.read (8 * a.toNat + k) = none) : columnActs s a c v = none := by
  cases h : columnActs s a c v with
  | none => rfl
  | some acts =>
    obtain ⟨rows, hrows, -⟩ := columnActs_cases ha hc h
    rw [hrows k hk] at hr
    cases hr

/-- Settles O14: the readers have no actions to issue. -/
theorem unwrittenRowsStopTheirReaders : Obligations.UnwrittenRowsStopTheirReaders := by
  intro s a c v on hl hi ha hc
  refine ⟨fun r hr hread => ?_, fun k hk hread => ?_⟩
  · rw [exec, execSetled, whenInited_ready hl hi, ledActs_unwritten on ha hr hc hread, issueRead]
  · rw [exec, execSetcol, whenInited_ready hl hi, validAddr_iff.mpr ha, validIdx_iff.mpr hc, Bool.and_self, if_pos rfl,
      columnActs_unwritten v ha hc hk hread, issueRead]

/-- A byte space holds a value exactly at the addresses it lists (R50). -/
theorem Memory.read_isSome_iff (m : Memory) (a : Nat) : (m.read a).isSome = true ↔ ∃ c ∈ m, c.1 = a := by
  induction m with
  | nil => simp [Memory.read]
  | cons c m ih =>
    obtain ⟨k, v⟩ := c
    by_cases hk : a = k
    · simp [Memory.read, hk]
    · simp [Memory.read, hk, ih, Ne.symm hk]

theorem openFrame_isSome (k : Nat) : (openFrame.read k).isSome = true ↔ k < 16 := by
  simp [Memory.read_isSome_iff, openFrame]

theorem openRegisters_isSome (d k : Nat) :
    ((Chip.openRegisters d).read k).isSome = true ↔ 1 ≤ k ∧ k ≤ 15 := by
  simp only [Memory.read_isSome_iff, Chip.openRegisters, List.mem_map, List.mem_range, exists_exists_and_eq_and]
  constructor
  · rintro ⟨j, hj, rfl⟩
    omega
  · intro hk
    exact ⟨k - 1, by omega, by omega⟩

theorem powerUp_devReg (cfg : Config) (m d k : Nat) :
    devReg (State.powerUp cfg m) d k = if d < m then (Chip.openRegisters d).read k else none := by
  by_cases hd : d < m <;> simp [devReg, State.powerUp, Chip.powerUp, hd]

/-- Settles O47, by what the frame and a chip's registers list at power-up. -/
theorem resetValuesOfTheBlock : Obligations.ResetValuesOfTheBlock := by
  refine ⟨fun cfg m => ?_, rfl⟩
  refine ⟨rfl, rfl, rfl, fun _ => rfl, openFrame_isSome, rfl, rfl, rfl, rfl, powerUp_chain_length cfg m,
    fun d k => ?_⟩
  rw [powerUp_devReg]
  by_cases hd : d < m
  · simp [hd, openRegisters_isSome]
  · simp [hd]

/-- Settles O50: power-up is idle and uninitialised, with nothing written, driven or emitted. -/
theorem betweenAtReset : Obligations.BetweenAtReset := by
  intro cfg m
  refine ⟨rfl, fun _ => ⟨rfl, rfl, rfl, rfl⟩, fun hi => ?_⟩
  rw [powerUp_inited] at hi
  cases hi

end Sys2Proof.Machine
end

section
/-! SUPPORT. What a host command can do to an initialised block in one big step, said once, and the two invariants
of R35 and R38 that follow from it. -/

namespace Sys2Proof.Machine

/-! ### One step of an idle block -/

/-- A step of an idle block leaves everything but the fault and the host's list, or issues the actions of a host
command (R28, R215, R216). -/
theorem step_idle_cases {s t : State} (hs : s.seq = .idle) (h : step s = .next t) :
    t = { s with fault := t.fault, host := t.host } ∨
      ∃ i acts, ((∀ m v, i ≠ .shiftout m v) ∧ ∀ a op d, i ≠ .xfer a op d) ∧
        actsOf (takeCommand s) i = some acts ∧ t = issue acts (takeCommand s) := by
  obtain ⟨-, ⟨rest, hb, -⟩ | ⟨-, -, rfl⟩ | ⟨w, i, -, -, hd, he⟩ | ⟨w, -, -, -, rfl⟩⟩ := step_cases h
  · rw [hs] at hb
    cases hb
  · exact .inl rfl
  · obtain ⟨hw, hx⟩ := decode_spells hd
    obtain ⟨-, ⟨acts, ha, ht⟩ | ⟨r, rfl⟩⟩ := exec_cases hw he
    · exact .inr ⟨i, acts, hx, ha, ht⟩
    · left
      rw [raise, takeCommand, hs]
  · left
    rw [raise, takeCommand, hs]

/-- Before INIT the only host command with actions is INIT (R212). -/
theorem actsOf_fresh {s : State} {i : Instr} {acts : List Action} (hi : s.inited = false)
    (hx : (∀ m v, i ≠ .shiftout m v) ∧ ∀ a op d, i ≠ .xfer a op d) (h : actsOf s i = some acts) :
    ∃ n, i = .init n ∧ acts = initActs s.cfg.opcodes (clampN n) := by
  cases i <;> simp only [actsOf, hi, Bool.false_eq_true, if_false, reduceCtorEq, Option.some.injEq] at h
  case init n => exact ⟨n, rfl, h.symm⟩
  case shiftout m v => exact absurd rfl (hx.1 m v)
  case xfer a op d => exact absurd rfl (hx.2 a op d)

/-! ### The effect of a host command after INIT -/

/-- What a host command can do to an initialised block, as far as R35 and R38 ask: it keeps configuration, inited,
N and sequencer; a clean link stays clean; a slot is kept, or belongs to a device of the chain and gets a value;
and on a listening chain with the default OPCODES a row's slot and register are both kept or get the same value. -/
structure CommandEffect (s t : State) : Prop where
  block : t.cfg = s.cfg ∧ t.inited = s.inited ∧ t.n = s.n ∧ t.seq = s.seq
  link : CleanLink s → CleanLink t
  slots : ∀ k, t.shadow.read k = s.shadow.read k ∨ (k < 8 * s.n.val ∧ (t.shadow.read k).isSome = true)
  chips : ChipsListen s → s.cfg.opcodes = Opcodes.standard → t.chain.length = s.n.val ∧
    ∀ a r, r < 8 →
      (t.shadow.read (8 * a + r) = s.shadow.read (8 * a + r) ∧ devReg t a (r + 1) = devReg s a (r + 1)) ∨
        ((t.shadow.read (8 * a + r)).isSome = true ∧ devReg t a (r + 1) = t.shadow.read (8 * a + r))

/-- Fault, host list, frame, trace and counters do not matter to it. -/
theorem CommandEffect.of_kept {s t : State} (hb : t.cfg = s.cfg ∧ t.inited = s.inited ∧ t.n = s.n ∧ t.seq = s.seq)
    (hp : t.pin = s.pin) (hm : t.shadow = s.shadow) (hc : t.chain = s.chain) : CommandEffect s t where
  block := hb
  link h := by rwa [CleanLink, hp]
  slots k := .inl (by rw [hm])
  chips h _ := ⟨by rw [hc]; exact h.2, fun a r _ => .inl ⟨by rw [hm], by rw [devReg, hc]; rfl⟩⟩

/-- A register write outside the rows. -/
theorem commandEffect_xfer {s : State} {a : Nat} {adr : BitVec 4} (d : Byte) (ha : a < s.n.val)
    (hadr : s.cfg.opcodes = Opcodes.standard → 8 < adr.toNat) :
    CommandEffect s (runActs (xferActs s.n.val a (opcodeByte adr) d) s) := by
  obtain ⟨hlink, -, hclean, -, hreg⟩ := runActs_reg adr d s ha
  refine ⟨?_, fun _ => hclean, fun k => .inl ?_, fun hl ho => ?_⟩
  · rw [hlink]
    exact ⟨rfl, rfl, rfl, rfl⟩
  · rw [hlink]
  · obtain ⟨hlen, hreg⟩ := hreg hl.1.clkLow hl.2
    refine ⟨hlen, fun e r hr => .inl ⟨by rw [hlink], ?_⟩⟩
    have h8 := hadr ho
    rw [devReg_eq, hreg, if_neg (by omega), devReg_eq]

/-- One row written and transmitted (R170). -/
theorem commandEffect_row {s : State} {a r : Nat} (v : Byte) (ha : a < s.n.val) (hr : r < 8) :
    CommandEffect s (runActs (rowActs s.cfg.opcodes s.n.val a r v) s) := by
  obtain ⟨hlink, hm, -, hclean, -, hchain⟩ :=
    runActs_row s.cfg.opcodes v s ha (Nat.le_of_lt_succ s.n.isLt) hr
  have hread : ∀ k, (runActs (rowActs s.cfg.opcodes s.n.val a r v) s).shadow.read k =
      if k = 8 * a + r then some v else s.shadow.read k := fun k => by rw [hm, Memory.read_write]
  refine ⟨?_, fun _ => hclean, fun k => ?_, fun hl ho => ?_⟩
  · rw [hlink]
    exact ⟨rfl, rfl, rfl, rfl⟩
  · rw [hread]
    by_cases hk : k = 8 * a + r
    · rw [if_pos hk]
      exact .inr ⟨by omega, rfl⟩
    · exact .inl (if_neg hk)
  · rw [hchain hl.1.clkLow, chainXfer_length]
    refine ⟨hl.2, fun e j hj => ?_⟩
    have hd : s.cfg.opcodes.digit0.toNat = 1 := by rw [ho]; rfl
    rw [hread, devReg_eq, hchain hl.1.clkLow, chainXfer_reg _ _ ha _ hl.2, digitByte_register (by omega) hr, hd]
    by_cases hej : e = a ∧ j = r
    · obtain ⟨rfl, rfl⟩ := hej
      right
      rw [if_pos rfl, if_pos ⟨rfl, Nat.add_comm j 1, by omega⟩]
      exact ⟨rfl, rfl⟩
    · left
      rw [if_neg (by omega), if_neg (by omega)]
      exact ⟨rfl, rfl⟩

/-- All eight rows of a device written and transmitted (R171, R185). -/
theorem commandEffect_rows {s : State} {a : Nat} (f : Nat → Byte) (ha : a < s.n.val) :
    CommandEffect s (runActs (rowsActs s.cfg.opcodes s.n.val a f 8) s) := by
  obtain ⟨hlink, hread, -, hclean, -, -, hchips⟩ :=
    runActs_rows s.cfg.opcodes f s ha (Nat.le_of_lt_succ s.n.isLt) (Nat.le_refl 8)
  refine ⟨?_, fun _ => hclean (by decide), fun k => ?_, fun hl ho => ?_⟩
  · rw [hlink]
    exact ⟨rfl, rfl, rfl, rfl⟩
  · rw [hread]
    by_cases hk : 8 * a ≤ k ∧ k < 8 * a + 8
    · rw [if_pos hk]
      exact .inr ⟨by omega, rfl⟩
    · exact .inl (if_neg hk)
  · obtain ⟨hlen, -, hregs⟩ := hchips hl.1.clkLow hl.2
    have hd : s.cfg.opcodes.digit0.toNat = 1 := by rw [ho]; rfl
    refine ⟨hlen, fun e j hj => ?_⟩
    rw [hread, devReg_eq, hregs (by omega), hd]
    by_cases he : e = a
    · subst he
      right
      rw [if_pos (by omega), if_pos (by omega), show 8 * e + j - 8 * e = j + 1 - 1 by omega]
      exact ⟨rfl, rfl⟩
    · left
      rw [if_neg (by omega), if_neg (by omega)]
      exact ⟨rfl, rfl⟩

/-- The host commands, by what their actions are (R39). -/
theorem commandEffect_acts {s : State} {i : Instr} {acts : List Action} (hi : s.inited = true)
    (hx : (∀ m v, i ≠ .shiftout m v) ∧ ∀ a op d, i ≠ .xfer a op d) (h : actsOf s i = some acts) :
    CommandEffect s (runActs acts s) := by
  rcases actsOf_shapes hi hx h with rfl | ⟨v, rfl⟩ | ⟨a, adr, d, ha, hadr, rfl⟩ |
    ⟨a, r, v, pre, ha, hr, rfl | rfl, rfl⟩ | ⟨a, f, ha, rfl⟩
  · exact .of_kept ⟨rfl, rfl, rfl, rfl⟩ rfl rfl rfl
  · exact .of_kept ⟨rfl, rfl, rfl, rfl⟩ rfl rfl rfl
  · refine commandEffect_xfer d ha.toNat_lt fun ho => ?_
    rw [ho] at hadr
    rcases hadr with rfl | rfl | rfl <;> decide
  · exact commandEffect_row v ha.toNat_lt hr.toNat_lt
  · have hd := commandEffect_row (s := act .drawn s) v ha.toNat_lt hr.toNat_lt
    exact ⟨hd.block, hd.link, hd.slots, hd.chips⟩
  · exact commandEffect_rows f ha.toNat_lt

/-- The step of an idle initialised block in the big-step view (R28). -/
theorem commandEffect_step {s t : State} (hv : s.view = .bigStep) (hs : s.seq = .idle) (hi : s.inited = true)
    (h : step s = .next t) : CommandEffect s t := by
  rcases step_idle_cases hs h with ht | ⟨i, acts, hx, ha, rfl⟩
  · rw [ht]
    exact .of_kept ⟨rfl, rfl, rfl, rfl⟩ rfl rfl rfl
  · rw [issue_bigStep (s := takeCommand s) hv]
    have he := commandEffect_acts (s := takeCommand s) hi hx ha
    exact ⟨he.block, he.link, he.slots, he.chips⟩

/-! ### The invariants -/

theorem CommandEffect.shadowReady {s t : State} (h : CommandEffect s t) (hr : ShadowReady s) : ShadowReady t := by
  obtain ⟨-, -, hn, -⟩ := h.block
  intro k
  rcases h.slots k.val with hk | ⟨hlt, hsome⟩
  · rw [hk, hn]
    exact hr k
  · exact ⟨hsome, fun hle => by rw [hn] at hle; omega⟩

/-- INIT's big step ends between two commands (R141, R38). -/
theorem between_init (o : Opcodes) {n : Fin 9} {s : State} (hs : s.seq = .idle) (hn : 1 ≤ n.val) :
    Between (runActs (initActs o n) s) := by
  obtain ⟨hrec, hread, -, hpin, -, -⟩ := runActs_init o n s hn
  have hinit : (runActs (initActs o n) s).inited = true := by rw [hrec]
  have hlen : (runActs (initActs o n) s).n = n := by rw [hrec]
  refine ⟨by rw [hrec]; exact hs, fun hf => ?_, fun _ => ⟨by rw [hlen]; exact hn, fun k => ?_, ?_⟩⟩
  · rw [hinit] at hf
    cases hf
  · rw [hread, if_pos k.isLt]
    exact ⟨rfl, fun _ => rfl⟩
  · rw [CleanLink, hpin]
    exact ⟨rfl, rfl⟩

/-- Settles O51: INIT establishes the initialised half, every other command keeps it, and before INIT nothing but
INIT has an effect. -/
theorem everyStepKeepsBetween : Obligations.EveryStepKeepsBetween := by
  intro s t hv hb h
  obtain ⟨hs, hfresh, hready⟩ := hb
  cases hi : s.inited with
  | true =>
    have he := commandEffect_step hv hs hi h
    obtain ⟨-, hinit, hn, hseq⟩ := he.block
    obtain ⟨h1, hshadow, hclean⟩ := hready hi
    refine ⟨hseq.trans hs, fun hf => ?_, fun _ => ⟨by rw [hn]; exact h1, he.shadowReady hshadow, he.link hclean⟩⟩
    rw [hinit, hi] at hf
    cases hf
  | false =>
    rcases step_idle_cases hs h with ht | ⟨i, acts, hx, ha, rfl⟩
    · rw [ht]
      exact ⟨hs, hfresh, hready⟩
    · obtain ⟨n, -, rfl⟩ := actsOf_fresh (s := takeCommand s) hi hx ha
      rw [issue_bigStep (s := takeCommand s) hv]
      exact between_init _ hs (clampN_pos n)

/-- Settles O52: a command changes a row's slot and its register together or not at all. -/
theorem everyStepKeepsTheShadowMirror : Obligations.EveryStepKeepsTheShadowMirror := by
  intro s t hv hs hi hm h
  obtain ⟨ho, hlen, hclean, hrows⟩ := hm
  have he := commandEffect_step hv hs hi h
  obtain ⟨hcfg, -, hn, -⟩ := he.block
  obtain ⟨hlen', hchips⟩ := he.chips ⟨hclean, hlen⟩ ho
  refine ⟨by rw [hcfg]; exact ho, by rw [hlen', hn], he.link hclean, fun a r ha => ?_⟩
  rw [hn] at ha
  rcases hchips a.val r.val r.isLt with ⟨hslot, hreg⟩ | hsame
  · rw [hslot, hreg]
    exact hrows a r ha
  · exact hsame

end Sys2Proof.Machine
end

section
/-! SUPPORT. Which commands set N and inited, and how a command runs in small steps (R28). -/

namespace Sys2Proof.Machine

/-! ### Only INIT sets N and inited -/

/-- An action that sets neither N nor inited. -/
abbrev NoInit (a : Action) : Prop := (∀ n, a ≠ .setN n) ∧ a ≠ .setInited

theorem noInit_of_link {l : List Action} (h : l.all isLink = true) : ∀ a ∈ l, NoInit a := by
  intro a ha
  have hl := List.all_eq_true.mp h a ha
  cases a <;> simp only [isLink, Bool.false_eq_true] at hl <;> simp [NoInit]

theorem rowActs_noInit (o : Opcodes) (n a r : Nat) (v : Byte) : ∀ x ∈ rowActs o n a r v, NoInit x := by
  unfold rowActs
  rw [List.forall_mem_cons]
  exact ⟨by simp [NoInit], noInit_of_link (xferActs_link n a _ v)⟩

theorem rowsActs_noInit (o : Opcodes) (n a : Nat) (f : Nat → Byte) (m : Nat) :
    ∀ x ∈ rowsActs o n a f m, NoInit x := by
  intro x hx
  obtain ⟨r, -, hr⟩ := List.mem_flatMap.mp hx
  exact rowActs_noInit o n a r (f r) x hr

/-- A command of an initialised block leaves N and inited alone (R39, D10). -/
theorem actsOf_noInit_of_inited {s : State} {i : Instr} {acts : List Action} (hi : s.inited = true)
    (hx : (∀ m v, i ≠ .shiftout m v) ∧ ∀ a op d, i ≠ .xfer a op d) (h : actsOf s i = some acts) :
    ∀ x ∈ acts, NoInit x := by
  rcases actsOf_shapes hi hx h with rfl | ⟨v, rfl⟩ | ⟨a, adr, d, -, -, rfl⟩ |
    ⟨a, r, v, pre, -, -, hpre, rfl⟩ | ⟨a, f, -, rfl⟩
  · simp
  · simp [NoInit]
  · exact noInit_of_link (xferActs_link _ _ _ _)
  · rw [List.forall_mem_append]
    refine ⟨?_, rowActs_noInit _ _ _ _ _⟩
    rcases hpre with rfl | rfl <;> simp [NoInit]
  · exact rowsActs_noInit _ _ _ _ _

/-- So does every instruction of the block but INIT. -/
theorem actsOf_noInit {s : State} {i : Instr} {acts : List Action} (hn : isInit i = false)
    (h : actsOf s i = some acts) : ∀ x ∈ acts, NoInit x := by
  by_cases hs : ∃ m v, i = .shiftout m v
  · obtain ⟨m, v, rfl⟩ := hs
    obtain rfl : shiftOutActs m v = acts := Option.some.inj h
    exact noInit_of_link (shiftOutActs_link m v)
  by_cases hx : ∃ a op d, i = .xfer a op d
  · obtain ⟨a, op, d, rfl⟩ := hx
    rw [actsOf] at h
    split at h
    · obtain rfl := Option.some.inj h
      exact noInit_of_link (xferActs_link _ _ _ _)
    · cases h
  have hmicro : (∀ m v, i ≠ .shiftout m v) ∧ ∀ a op d, i ≠ .xfer a op d :=
    ⟨fun m v e => hs ⟨m, v, e⟩, fun a op d e => hx ⟨a, op, d, e⟩⟩
  cases hi : s.inited with
  | true => exact actsOf_noInit_of_inited hi hmicro h
  | false =>
    obtain ⟨n, rfl, -⟩ := actsOf_fresh hi hmicro h
    cases hn

/-- Settling does a first part of the actions, and so sets neither (R28). -/
theorem settle_noInit {l : List Action} (h : ∀ a ∈ l, NoInit a) (s : State) :
    (settle l s).inited = s.inited ∧ (settle l s).n = s.n := by
  obtain ⟨pre, post, rfl, -, -, hset⟩ := settle_eq l s
  rw [hset]
  exact runActs_noInit (fun a ha => h a (List.mem_append_left post ha)) s

theorem issue_noInit {l : List Action} (h : ∀ a ∈ l, NoInit a) (s : State) :
    (issue l s).inited = s.inited ∧ (issue l s).n = s.n := by
  unfold issue
  split
  · exact runActs_noInit h s
  · exact settle_noInit h s

/-! ### What no step changes -/

theorem resume_keeps (l : List Action) (s : State) :
    (resume l s).cfg = s.cfg ∧ (resume l s).line = s.line ∧ (resume l s).view = s.view := by
  cases l with
  | nil => exact ⟨rfl, rfl, rfl⟩
  | cons a rest =>
    obtain ⟨hcfg, -, hline, -, hview, -⟩ := settle_keeps rest (act a s)
    obtain ⟨hcfg', -, -, hline', -, hview'⟩ := act_keeps a s
    exact ⟨hcfg.trans hcfg', hline.trans hline', hview.trans hview'⟩

/-- Settles O46: the busy block settles actions, none of which writes these fields; the idle one issues a command
which, after INIT, is not INIT. -/
theorem configurationAndChainLengthAreFixed : Obligations.ConfigurationAndChainLengthAreFixed := by
  intro s t h
  cases hs : s.seq with
  | busy rest =>
    obtain ⟨-, ⟨rest', -, rfl⟩ | ⟨hidle, -⟩ | ⟨w, i, hidle, -⟩ | ⟨w, hidle, -⟩⟩ := step_cases h
    · obtain ⟨hcfg, hline, hview⟩ := resume_keeps rest' s
      exact ⟨hcfg, hline, hview, fun hidle => by cases hidle⟩
    all_goals
      rw [hs] at hidle
      cases hidle
  | idle =>
    rcases step_idle_cases hs h with ht | ⟨i, acts, hx, ha, rfl⟩
    · rw [ht]
      exact ⟨rfl, rfl, rfl, fun _ hi => ⟨hi, rfl⟩⟩
    · obtain ⟨hcfg, -, hline, -, hview⟩ := issue_keeps acts (takeCommand s)
      refine ⟨hcfg, hline, hview, fun _ hi => ?_⟩
      obtain ⟨hinit, hn⟩ := issue_noInit (actsOf_noInit_of_inited hi hx ha) (takeCommand s)
      exact ⟨hinit.trans hi, hn⟩

/-! ### A running command gets on -/

theorem act_emits_at_most_one (a : Action) (s : State) :
    (act a s).emitted = s.emitted ∨ ∃ e, (act a s).emitted = e :: s.emitted := by
  cases a <;> first | exact .inl rfl | exact .inr ⟨_, rfl⟩

/-- Settling leaves the sequencer idle or with a last part of the actions (R28). -/
theorem settle_seq (l : List Action) (s : State) :
    (settle l s).seq = .idle ∨ ∃ p, p ≠ [] ∧ p <:+ l ∧ (settle l s).seq = .busy p := by
  obtain ⟨pre, post, hl, -, -, hset⟩ := settle_eq l s
  rw [hset]
  cases post with
  | nil => exact .inl rfl
  | cons a post => exact .inr ⟨a :: post, by simp, ⟨pre, hl.symm⟩, rfl⟩

/-- One step of a busy block (R28). -/
theorem step_busy_progress {s : State} {a : Action} {rest : List Action} (hf : s.fault = none)
    (hs : s.seq = .busy (a :: rest)) :
    ∃ t, step s = .next t ∧ t.fault = none ∧
      (t.emitted = s.emitted ∨ ∃ e, t.emitted = e :: s.emitted) ∧
      (t.seq = .idle ∨ ∃ p, p ≠ [] ∧ p <:+ rest ∧ t.seq = .busy p) := by
  obtain ⟨-, hfault, -, -, -, hemitted⟩ := settle_keeps rest (act a s)
  refine ⟨_, step_busy hf hs, ?_, ?_, settle_seq rest _⟩
  · rw [hfault, (act_keeps a s).2.1, hf]
  · rw [hemitted]
    exact act_emits_at_most_one a s

/-- As many steps as there are actions left bring the sequencer back to idle (R28, D26). -/
theorem run_busy_completes (m : Nat) (s : State) (a : Action) (rest : List Action) (hm : rest.length ≤ m)
    (hf : s.fault = none) (hs : s.seq = .busy (a :: rest)) :
    ∃ k u, k ≤ m + 1 ∧ Sys2Proof.core.run k s = .next u ∧ u.seq = .idle := by
  induction m generalizing s a rest with
  | zero =>
    obtain ⟨t, hstep, -, -, hidle | ⟨p, hp, hsuf, -⟩⟩ := step_busy_progress hf hs
    · exact ⟨1, t, Nat.le_refl 1, run_next hstep, hidle⟩
    · rw [List.length_eq_zero_iff.mp (Nat.le_zero.mp hm)] at hsuf
      exact absurd (List.suffix_nil.mp hsuf) hp
  | succ m ih =>
    obtain ⟨t, hstep, hft, -, hidle | ⟨p, hp, hsuf, hseq⟩⟩ := step_busy_progress hf hs
    · exact ⟨1, t, by omega, run_next hstep, hidle⟩
    · obtain ⟨b, p', rfl⟩ := List.exists_cons_of_ne_nil hp
      have hlen := hsuf.length_le
      rw [List.length_cons] at hlen
      obtain ⟨k, u, hk, hrun, hu⟩ := ih t b p' (by omega) hft hseq
      exact ⟨k + 1, u, by omega, (run_next hstep).trans hrun, hu⟩

/-- Settles O45: a step shortens what is left. -/
theorem runningCommandsAlwaysComplete : Obligations.RunningCommandsAlwaysComplete := by
  intro s a rest hf hs
  obtain ⟨t, hstep, -, hemits, hseq⟩ := step_busy_progress hf hs
  exact ⟨⟨t, hstep, hemits, hseq⟩, run_busy_completes rest.length s a rest (Nat.le_refl _) hf hs⟩

end Sys2Proof.Machine
end

section
/-! SUPPORT. The small steps of a command refine its big step (R28, log 13), and INIT's state writes come at the
places R141 gives them. -/

namespace Sys2Proof.Machine

/-! ### The events of a big step -/

theorem runActs_trace (l : List Action) (s : State) : (runActs l s).trace = s.trace ++ eventsOf l := by
  simp [State.trace, runActs_emitted]

theorem runActs_since (l : List Action) (s : State) : (runActs l s).since s = eventsOf l := by
  rw [State.since, runActs_trace, List.drop_left]

/-- What is done after all events is everything. -/
theorem firstActs_all (l : List Action) : firstActs (eventsOf l).length l = l := by
  have h := firstActs_append_rest (eventsOf l).length l
  rwa [(restActs_eq_nil _ l (Nat.le_refl _)).mpr rfl, List.append_nil] at h

theorem mem_of_mem_firstActs {k : Nat} {l : List Action} {a : Action} (h : a ∈ firstActs k l) : a ∈ l := by
  rw [← firstActs_append_rest k l]
  exact List.mem_append_left _ h

theorem seqAt_eq_idle_iff (l : List Action) : seqAt l = .idle ↔ l = [] := by
  cases l <;> simp [seqAt]

/-! ### A fault does not depend on the view -/

/-- Before INIT every other command takes its fault (R212). -/
theorem exec_uninitialised {i : Instr} {s : State} (hc : isCommand i = true) (hn : isInit i = false) (hl : Live s)
    (hi : s.inited = false) : exec i s = .next (raise .uninitialised s) := by
  cases i
  case init n => cases hn
  all_goals first | exact whenInited_fresh hl hi _ | cases hc

/-- The instructions with a next state and no actions: an illegal row, INIT again, or another command before INIT
(R212, R213). -/
theorem exec_no_acts_cases {s t : State} {i : Instr} (hl : Live s) (hw : wireTarget i = none)
    (hn : actsOf s i = none) (h : exec i s = .next t) :
    (∃ w, i = .illegalZero w ∨ i = .illegalHigh w) ∨ (∃ n, i = .init n ∧ s.inited = true) ∨
      (isCommand i = true ∧ isInit i = false ∧ s.inited = false) := by
  cases i
  case illegalZero w => exact .inl ⟨w, .inl rfl⟩
  case illegalHigh w => exact .inl ⟨w, .inr rfl⟩
  case init n => exact .inr (.inl ⟨n, rfl, by simpa [actsOf] using hn⟩)
  case shiftout m v => cases hn
  case xfer a op d =>
    have ha : validAddr s.n a = false := by simpa [actsOf] using hn
    rw [exec, execXfer, whenLive_live hl, ha] at h
    cases h
  case setled a r c on =>
    refine .inr (.inr ⟨rfl, rfl, Bool.eq_false_iff.mpr fun hi => ?_⟩)
    rw [actsOf, if_pos hi] at hn
    rw [exec, execSetled, whenInited_ready hl hi, hn] at h
    cases h
  case setcol a c v =>
    refine .inr (.inr ⟨rfl, rfl, Bool.eq_false_iff.mpr fun hi => ?_⟩)
    rw [actsOf, if_pos hi] at hn
    rw [exec, execSetcol, whenInited_ready hl hi, hn] at h
    cases h
  all_goals first | exact .inr (.inr ⟨rfl, rfl, by simpa [actsOf] using hn⟩) | cases hw

/-- A block instruction that has no actions has the same outcome in either view. -/
theorem exec_view_of_no_acts {s t : State} {i : Instr} (hl : Live s) (hw : wireTarget i = none)
    (hn : actsOf s i = none) (h : exec i s = .next t) (v : View) :
    exec i { s with view := v } = .next { t with view := v } := by
  have hl' : Live { s with view := v } := hl
  rcases exec_no_acts_cases hl hw hn h with ⟨w, rfl | rfl⟩ | ⟨n, rfl, hi⟩ | ⟨hc, hini, hi⟩
  · rw [exec, execIllegalZero, whenLive_live hl] at h
    rw [exec, execIllegalZero, whenLive_live hl', ← Host.Outcome.next.inj h]
    rfl
  · rw [exec, execIllegalHigh, whenLive_live hl] at h
    rw [exec, execIllegalHigh, whenLive_live hl', ← Host.Outcome.next.inj h]
    rfl
  · rw [exec, execInit, whenNotInited_ready hl hi] at h
    rw [exec, execInit, whenNotInited_ready hl' hi, ← Host.Outcome.next.inj h]
    rfl
  · rw [exec_uninitialised hc hini hl hi] at h
    rw [exec_uninitialised hc hini hl' hi, ← Host.Outcome.next.inj h]
    rfl

/-- An instruction that takes a fault issues nothing: issuing keeps the fault field (R215). -/
theorem actsOf_eq_none_of_raise {s : State} {i : Instr} {r : FaultReason} (hl : Live s)
    (h : exec i s = .next (raise r s)) : actsOf s i = none := by
  cases ha : actsOf s i with
  | none => rfl
  | some acts =>
    have hf := congrArg State.fault (Host.Outcome.next.inj ((exec_issues hl ha).symm.trans h))
    rw [(issue_keeps acts s).2.1, hl.2.1] at hf
    cases hf

/-! ### The refinement -/

/-- Settles O44: after k events the actions done are the first ones up to the next event; a fault is taken at
once. -/
theorem smallStepsReachTheBigStep : Obligations.SmallStepsReachTheBigStep := by
  intro s t i hl hv hw h
  obtain ⟨-, ⟨acts, ha, rfl⟩ | ⟨r, rfl⟩⟩ := exec_cases hw h
  · rw [issue_bigStep hv, runActs_since]
    obtain ⟨hcfg, hfault, hseq, -⟩ := runActs_keeps acts s
    have hidle : (runActs acts s).seq = .idle := hseq.trans hl.2.2
    refine ⟨hidle, runActs_trace acts s, ?_, fun k hk => ⟨_, smallSteps_issues hl ha k hk, ?_⟩⟩
    · rw [smallSteps_issues hl ha _ (Nat.le_refl _), firstActs_all,
        (restActs_eq_nil _ acts (Nat.le_refl _)).mpr rfl]
      simp only [seqAt, hidle]
    · obtain ⟨hcfg', hfault', -⟩ := runActs_keeps (firstActs k acts) s
      have hrep := runActs_replay (firstActs k acts) s
      rw [eventsOf_firstActs] at hrep
      refine ⟨(runActs_trace _ s).trans (by rw [eventsOf_firstActs]), hrep.1, hrep.2,
        (seqAt_eq_idle_iff _).trans (restActs_eq_nil k acts hk), hcfg', hfault'.trans hfault.symm, fun hini => ?_⟩
      exact runActs_noInit (fun a hmem => actsOf_noInit hini ha a (mem_of_mem_firstActs hmem)) s
  · have hsince : (raise r s).since s = [] := List.drop_length
    have hsmall : smallSteps i 0 s = .next { raise r s with view := .smallStep } := by
      rw [smallSteps, exec_view_of_no_acts hl hw (actsOf_eq_none_of_raise hl h) h]
      rfl
    rw [hsince]
    refine ⟨rfl, (List.append_nil _).symm, hsmall, fun k hk => ?_⟩
    obtain rfl : k = 0 := Nat.le_zero.mp hk
    exact ⟨_, hsmall, (List.append_nil _).symm, rfl, rfl, ⟨fun _ => rfl, fun _ => rfl⟩, rfl, rfl, fun _ => ⟨rfl, rfl⟩⟩

/-! ### INIT in the middle -/

/-- What INIT's actions after N may be: link actions and shadow writes of 0x00 (R141). -/
def isZeroing : Action → Bool
  | .pin _ _ | .loadFrame _ => true
  | .writeShadow _ v => v == 0x00
  | .respond _ | .setN _ | .setInited | .drawn => false

theorem isZeroing_of_isLink {a : Action} (h : isLink a = true) : isZeroing a = true := by
  cases a <;> first | rfl | cases h

theorem xferActs_zeroing (n a : Nat) (op d : Byte) : ∀ x ∈ xferActs n a op d, isZeroing x = true :=
  fun x hx => isZeroing_of_isLink (List.all_eq_true.mp (xferActs_link n a op d) x hx)

theorem clearActs_zeroing (o : Opcodes) (n a : Nat) : ∀ x ∈ clearActs o n a, isZeroing x = true := by
  intro x hx
  obtain ⟨r, -, hr⟩ := List.mem_flatMap.mp hx
  rcases List.mem_cons.mp hr with rfl | hr
  · rfl
  · exact xferActs_zeroing _ _ _ _ x hr

/-- INIT's part for the devices (R141). -/
theorem initDevices_zeroing (o : Opcodes) (n m : Nat) :
    ∀ x ∈ (List.range m).flatMap (initDeviceActs o n), isZeroing x = true := by
  intro x hx
  obtain ⟨a, -, ha⟩ := List.mem_flatMap.mp hx
  simp only [initDeviceActs, List.mem_append] at ha
  rcases ha with (((h | h) | h) | h) | h
  · exact xferActs_zeroing _ _ _ _ x h
  · exact xferActs_zeroing _ _ _ _ x h
  · exact xferActs_zeroing _ _ _ _ x h
  · exact clearActs_zeroing o n a x h
  · exact xferActs_zeroing _ _ _ _ x h

/-- Zeroing actions leave N and inited alone, and a zero slot zero. -/
theorem runActs_zeroing {l : List Action} (h : ∀ a ∈ l, isZeroing a = true) (s : State) :
    (runActs l s).inited = s.inited ∧ (runActs l s).n = s.n ∧
      ∀ j, s.shadow.read j = some 0x00 → (runActs l s).shadow.read j = some 0x00 := by
  induction l generalizing s with
  | nil => exact ⟨rfl, rfl, fun _ hj => hj⟩
  | cons a l ih =>
    obtain ⟨hi, hn, hz⟩ := ih (fun b hb => h b (List.mem_cons_of_mem _ hb)) (act a s)
    have ha := h a List.mem_cons_self
    rw [runActs_cons, hi, hn]
    cases a with
    | pin p v => exact ⟨rfl, rfl, hz⟩
    | loadFrame bytes => exact ⟨rfl, rfl, hz⟩
    | writeShadow k v =>
      obtain rfl : v = 0x00 := eq_of_beq ha
      refine ⟨rfl, rfl, fun j hj => hz j ?_⟩
      rw [act_writeShadow_shadow, Memory.read_write]
      split
      · rfl
      · exact hj
    | respond v => cases ha
    | setN n => cases ha
    | setInited => cases ha
    | drawn => cases ha

theorem zeroShadowActs_zeroing : ∀ x ∈ zeroShadowActs, isZeroing x = true := by
  intro x hx
  obtain ⟨k, -, rfl⟩ := List.mem_map.mp hx
  rfl

theorem eventsOf_zeroShadowActs : eventsOf zeroShadowActs = [] := by
  refine List.filterMap_eq_nil_iff.mpr fun x hx => ?_
  obtain ⟨k, -, rfl⟩ := List.mem_map.mp hx
  rfl

/-- Zeroing the shadow zeroes all 64 slots (R141). -/
theorem runActs_zeroShadow (s : State) {j : Nat} (hj : j < 64) :
    (runActs zeroShadowActs s).shadow.read j = some 0x00 := by
  rw [zeroShadowActs, (runActs_zeros _ s).2, if_pos ⟨⟨j, hj⟩, List.mem_finRange _, rfl⟩]

/-- What INIT does after N is set and CS has been driven high: zero everything, then `inited`. -/
def initTail (o : Opcodes) (n : Nat) : List Action :=
  zeroShadowActs ++ (List.range n).flatMap (initDeviceActs o n)

theorem initActs_eq (o : Opcodes) (n : Fin 9) :
    initActs o n = .setN n :: .pin .cs .high :: (initTail o n.val ++ [.setInited]) := rfl

theorem initTail_zeroing (o : Opcodes) (n : Nat) : ∀ x ∈ initTail o n, isZeroing x = true := by
  rw [initTail, List.forall_mem_append]
  exact ⟨zeroShadowActs_zeroing, initDevices_zeroing o n n⟩

theorem firstActs_zeroing {l : List Action} (h : ∀ a ∈ l, isZeroing a = true) (k : Nat) :
    ∀ a ∈ firstActs k l, isZeroing a = true := fun a ha => h a (mem_of_mem_firstActs ha)

/-- Whatever INIT has done after its first event, all 64 slots are zero (R141). -/
theorem firstActs_initTail_shadow (o : Opcodes) (n k : Nat) (s : State) {j : Nat} (hj : j < 64) :
    (runActs (firstActs k (initTail o n)) s).shadow.read j = some 0x00 := by
  rw [initTail, firstActs_append, eventsOf_zeroShadowActs, List.length_nil, if_neg (Nat.not_lt_zero k), runActs_append]
  exact (runActs_zeroing (firstActs_zeroing (initDevices_zeroing o n n) _) _).2.2 j (runActs_zeroShadow s hj)

/-- INIT before its first event has set N alone. -/
theorem firstActs_init_zero (o : Opcodes) (n : Fin 9) : firstActs 0 (initActs o n) = [.setN n] := rfl

/-- INIT after k + 1 events: CS is high, the tail is under way, and inited comes after the last event. -/
theorem firstActs_init_succ (o : Opcodes) (n : Fin 9) (k : Nat) :
    firstActs (k + 1) (initActs o n) = .setN n :: .pin .cs .high ::
      if k < (eventsOf (initTail o n.val)).length then firstActs k (initTail o n.val)
      else initTail o n.val ++ [.setInited] := by
  rw [initActs_eq]
  simp only [firstActs, silent, if_true, Bool.false_eq_true, if_false, firstActs_append]
  split
  · rfl
  · cases k - (eventsOf (initTail o n.val)).length <;> rfl

/-- INIT's events are CS high and its tail's. -/
theorem eventsOf_init_length (o : Opcodes) (n : Fin 9) :
    (eventsOf (initActs o n)).length = (eventsOf (initTail o n.val)).length + 1 := by
  simp [initActs_eq, eventsOf, List.filterMap_cons, eventOf]

/-- INIT after k of its events (R28, R141). -/
theorem runActs_firstActs_init (o : Opcodes) (n : Fin 9) (k : Nat) (s : State) (hi : s.inited = false)
    (hk : k ≤ (eventsOf (initActs o n)).length) :
    let v := runActs (firstActs k (initActs o n)) s
    v.n = n ∧ (v.inited = true ↔ k = (eventsOf (initActs o n)).length) ∧ (k = 0 → v.shadow = s.shadow) ∧
      (1 ≤ k → ∀ j, j < 64 → v.shadow.read j = some 0x00) := by
  rw [eventsOf_init_length] at hk ⊢
  cases k with
  | zero =>
    rw [firstActs_init_zero]
    exact ⟨rfl, by simp [hi], fun _ => rfl, fun h => absurd h (by decide)⟩
  | succ k =>
    rw [firstActs_init_succ, runActs_cons, runActs_cons]
    by_cases hlt : k < (eventsOf (initTail o n.val)).length
    · rw [if_pos hlt]
      obtain ⟨hinit, hn, -⟩ := runActs_zeroing (firstActs_zeroing (initTail_zeroing o n.val) k)
        (act (.pin .cs .high) (act (.setN n) s))
      have hstill : ¬ _ = true := Bool.eq_false_iff.mp (hinit.trans hi)
      exact ⟨hn, ⟨fun h => absurd h hstill, fun h => by omega⟩, fun h => absurd h (Nat.succ_ne_zero k),
        fun _ j hj => firstActs_initTail_shadow o _ k _ hj⟩
    · rw [if_neg hlt, runActs_append]
      obtain ⟨-, hn, -⟩ := runActs_zeroing (initTail_zeroing o n.val) (act (.pin .cs .high) (act (.setN n) s))
      refine ⟨hn, ⟨fun _ => by omega, fun _ => rfl⟩, fun h => absurd h (Nat.succ_ne_zero k), fun _ j hj => ?_⟩
      have hz := firstActs_initTail_shadow o n.val (eventsOf (initTail o n.val)).length
        (act (.pin .cs .high) (act (.setN n) s)) hj
      rwa [firstActs_all] at hz

/-- Settles O54, by what INIT has done after each of its events. -/
theorem initTakesEffectAtItsPlaces : Obligations.InitTakesEffectAtItsPlaces := by
  intro s n hfresh
  obtain ⟨hl, hi, hv⟩ := hfresh
  have ha : actsOf s (.init n) = some (initActs s.cfg.opcodes (clampN n)) := by simp [actsOf, hi]
  refine ⟨_, exec_issues hl ha, ?_⟩
  rw [issue_bigStep hv, runActs_since]
  have hend := runActs_init s.cfg.opcodes (clampN n) s (clampN_pos n)
  intro k hk
  obtain ⟨hn, hinit, hzero, hone⟩ := runActs_firstActs_init s.cfg.opcodes (clampN n) k s hi hk
  exact ⟨_, smallSteps_issues hl ha k hk, by rw [hend.1]; exact hn, hinit, hzero, hone⟩

end Sys2Proof.Machine
end

section
/-! SUPPORT. The canonical form of the byte spaces (R50, R51): it stands at power-up and every step keeps it. -/

namespace Sys2Proof.Machine

/-! ### What a pin write does to the chips -/

theorem chainAfter_clkHigh (s : State) : chainAfter .clk .high s =
    if lineLow s.pin.clk s.line.clk then
      shiftChain (shiftsNow (lineLow s.pin.cs s.line.cs)) (s.pin.din == .high) s.chain
    else s.chain := rfl

theorem chainAfter_csHigh (s : State) : chainAfter .cs .high s =
    if lineLow s.pin.cs s.line.cs then s.chain.map Chip.latch else s.chain := rfl

/-- A pin write leaves the chips alone, shifts them, or latches them (R72 to R74). -/
theorem chainAfter_cases (p : Pin) (l : Level) (s : State) : chainAfter p l s = s.chain ∨
    (∃ shifts b, chainAfter p l s = shiftChain shifts b s.chain) ∨
      chainAfter p l s = s.chain.map Chip.latch := by
  unfold chainAfter
  split
  · split
    · exact .inr (.inl ⟨_, _, rfl⟩)
    · exact .inl rfl
  · split
    · exact .inr (.inr rfl)
    · exact .inl rfl
  · exact .inl rfl

/-- A shift moves shift registers only, whichever devices shift (R73). -/
theorem shiftChain_rest (shifts : Chip → Bool) (b : Bool) (ch : List Chip) :
    (shiftChain shifts b ch).map (fun c => (c.kind, c.reg)) = ch.map (fun c => (c.kind, c.reg)) := by
  induction ch generalizing b with
  | nil => rfl
  | cons c ch ih =>
    rw [shiftChain, List.map_cons, List.map_cons, ih]
    split <;> rfl

theorem latch_noop {c : Chip} (h : c.sr.extractLsb' 8 4 = 0x0#4) : c.latch = c := if_pos h

theorem latch_write {c : Chip} (h : c.sr.extractLsb' 8 4 ≠ 0x0#4) : c.latch =
    { c with reg := c.reg.write (c.sr.extractLsb' 8 4).toNat (c.sr.extractLsb' 0 8) } := if_neg h

theorem address_toNat_ne_zero {c : Chip} (h : c.sr.extractLsb' 8 4 ≠ 0x0#4) :
    (c.sr.extractLsb' 8 4).toNat ≠ 0 :=
  fun h' => h (BitVec.eq_of_toNat_eq h')

/-! ### Every action keeps the canonical form -/

/-- One chip's part of the canonical form (R71). -/
abbrev Chip.RegCanonical (c : Chip) : Prop := c.reg.wf = true ∧ c.reg.inside 1 16 = true

theorem shiftChain_regCanonical {ch : List Chip} (shifts : Chip → Bool) (b : Bool)
    (h : ∀ c ∈ ch, c.RegCanonical) : ∀ c ∈ shiftChain shifts b ch, c.RegCanonical := by
  intro c hc
  have hmem : (c.kind, c.reg) ∈ ch.map (fun c => (c.kind, c.reg)) := by
    rw [← shiftChain_rest shifts b ch]
    exact List.mem_map.mpr ⟨c, hc, rfl⟩
  obtain ⟨c', hc', heq⟩ := List.mem_map.mp hmem
  rw [Chip.RegCanonical, ← (Prod.mk.inj heq).2]
  exact h c' hc'

/-- A latched address is one of 0x1 to 0xF (R74). -/
theorem latch_regCanonical {c : Chip} (h : c.RegCanonical) : c.latch.RegCanonical := by
  obtain ⟨hwf, hin⟩ := h
  by_cases h0 : c.sr.extractLsb' 8 4 = 0x0#4
  · rw [latch_noop h0]
    exact ⟨hwf, hin⟩
  · rw [latch_write h0]
    exact ⟨Memory.write_wf _ _ hwf,
      Memory.write_inside _ hin (Nat.one_le_iff_ne_zero.mpr (address_toNat_ne_zero h0)) (BitVec.isLt _)⟩

theorem chainAfter_regCanonical (p : Pin) (l : Level) {s : State} (h : ∀ c ∈ s.chain, c.RegCanonical) :
    ∀ c ∈ chainAfter p l s, c.RegCanonical := by
  rcases chainAfter_cases p l s with heq | ⟨shifts, b, heq⟩ | heq <;> rw [heq]
  · exact h
  · exact shiftChain_regCanonical shifts b h
  · exact List.forall_mem_map.mpr fun c hc => latch_regCanonical (h c hc)

theorem act_canonical (a : Action) {s : State} (h : Canonical s) : Canonical (act a s) := by
  obtain ⟨⟨hswf, hsin⟩, ⟨hfwf, hfin⟩, hchips⟩ := h
  cases a with
  | pin p l => exact ⟨⟨hswf, hsin⟩, ⟨hfwf, hfin⟩, chainAfter_regCanonical p l hchips⟩
  | writeShadow k v =>
    exact ⟨⟨Memory.write_wf _ v hswf, Memory.write_inside v hsin (Nat.zero_le _) k.isLt⟩, ⟨hfwf, hfin⟩, hchips⟩
  | loadFrame bytes =>
    have hlen : 0 + (bytes.take 16).length ≤ 16 := by simp
    exact ⟨⟨hswf, hsin⟩, ⟨Memory.writeAll_wf 0 _ hfwf, Memory.writeAll_inside 0 _ hfin hlen⟩, hchips⟩
  | respond v => exact ⟨⟨hswf, hsin⟩, ⟨hfwf, hfin⟩, hchips⟩
  | setN n => exact ⟨⟨hswf, hsin⟩, ⟨hfwf, hfin⟩, hchips⟩
  | setInited => exact ⟨⟨hswf, hsin⟩, ⟨hfwf, hfin⟩, hchips⟩
  | drawn => exact ⟨⟨hswf, hsin⟩, ⟨hfwf, hfin⟩, hchips⟩

theorem runActs_canonical (l : List Action) {s : State} (h : Canonical s) : Canonical (runActs l s) := by
  induction l generalizing s with
  | nil => exact h
  | cons a l ih => exact ih (act_canonical a h)

/-- Settling does a first part of the actions (R28). -/
theorem settle_canonical (l : List Action) {s : State} (h : Canonical s) : Canonical (settle l s) := by
  obtain ⟨pre, post, -, -, -, hset⟩ := settle_eq l s
  rw [hset]
  exact runActs_canonical pre h

theorem issue_canonical (l : List Action) {s : State} (h : Canonical s) : Canonical (issue l s) := by
  unfold issue
  split
  · exact runActs_canonical l h
  · exact settle_canonical l h

theorem resume_canonical (l : List Action) {s : State} (h : Canonical s) : Canonical (resume l s) := by
  cases l with
  | nil => exact h
  | cons a rest => exact settle_canonical rest (act_canonical a h)

/-- Settles O49: a busy block settles actions, an idle one issues them or leaves every byte space alone. -/
theorem everyStepKeepsTheCanonicalForm : Obligations.EveryStepKeepsTheCanonicalForm := by
  intro s t hcan h
  cases hs : s.seq with
  | busy rest =>
    rw [step, (step_cases h).1, hs] at h
    rw [← Host.Outcome.next.inj h]
    exact resume_canonical rest hcan
  | idle =>
    rcases step_idle_cases hs h with ht | ⟨i, acts, -, -, rfl⟩
    · rw [ht]
      exact hcan
    · exact issue_canonical acts (s := takeCommand s) hcan

/-! ### Power-up -/

theorem Memory.wf_of_pairwise {m : Memory} (h : m.Pairwise (fun c c' => c.1 < c'.1)) : m.wf = true := by
  induction m with
  | nil => rfl
  | cons c m ih =>
    obtain ⟨hlt, hm⟩ := List.pairwise_cons.mp h
    exact Memory.wf_of_lt (ih hm) hlt

/-- Consecutive addresses from `lo` on, whatever the bytes, are in canonical form. -/
theorem Memory.wf_consecutive (lo n : Nat) (f : Nat → Byte) :
    Memory.wf ((List.range n).map fun k => (k + lo, f k)) = true := by
  refine Memory.wf_of_pairwise (List.pairwise_map.mpr ?_)
  exact List.pairwise_lt_range.imp fun h => Nat.add_lt_add_right h lo

theorem Memory.inside_consecutive (lo n : Nat) (f : Nat → Byte) :
    Memory.inside lo (n + lo) ((List.range n).map fun k => (k + lo, f k)) = true := by
  simp [Memory.inside]

theorem openFrame_canonical : openFrame.wf = true ∧ openFrame.inside 0 16 = true :=
  ⟨Memory.wf_consecutive 0 16 Config.openFrame, Memory.inside_consecutive 0 16 Config.openFrame⟩

theorem powerUp_regCanonical (d : Nat) : (Chip.powerUp d).RegCanonical :=
  ⟨Memory.wf_consecutive 1 15 fun k => Config.openRegister d (k + 1),
    Memory.inside_consecutive 1 15 fun k => Config.openRegister d (k + 1)⟩

/-- Settles O48: the shadow is empty, frame and registers list consecutive addresses. -/
theorem canonicalAtReset : Obligations.CanonicalAtReset := by
  intro cfg m
  exact ⟨⟨rfl, rfl⟩, openFrame_canonical, List.forall_mem_map.mpr fun d _ => powerUp_regCanonical d⟩

end Sys2Proof.Machine
end

section
/-! SUPPORT. The two rising edges (R72 to R74): CLK shifts the chain as one long register, CS latches every device;
and the wire words, which are what a latch does to one device (R102, log 2). -/

namespace Sys2Proof.Machine

/-- When a high write is a rising edge (R72, R252). -/
theorem lineLow_iff {driven : PinLevel} {platform : Level} :
    lineLow driven platform = true ↔ driven = .low ∨ (driven = .unknown ∧ platform = .low) := by
  cases driven <;> simp [lineLow]

/-! ### The CLK edge -/

/-- A number whose low 16 bits are `x`, shifted left with a bit coming in: the low word, and what it carries into
the rest. -/
theorem shifted_low_and_rest (x v b p : Nat) :
    (2 * (x + 65536 * v) + b) % (65536 * p) =
      (2 * x + b) % 65536 + 65536 * ((2 * v + (2 * x + b) / 65536) % p) := by
  have hlow : (2 * (x + 65536 * v) + b) % 65536 = (2 * x + b) % 65536 := by omega
  have hrest : (2 * (x + 65536 * v) + b) / 65536 = 2 * v + (2 * x + b) / 65536 := by omega
  rw [Nat.mod_mul, hlow, hrest]

theorem toNat_shiftConcat_half (w : Half) (b : Bool) :
    (BitVec.shiftConcat w b).toNat = (2 * w.toNat + b.toNat) % 65536 := by
  rw [BitVec.toNat_shiftConcat, Nat.shiftLeft_eq, Nat.pow_one, Nat.mul_comm]

/-- The bit a device hands on is the carry out of its word (R73). -/
theorem toNat_msb_half (w : Half) (b : Bool) : w.msb.toNat = (2 * w.toNat + b.toNat) / 65536 := by
  have hw := w.isLt
  have hb := b.toNat_le
  rw [BitVec.msb_eq_decide]
  by_cases hge : 2 ^ (16 - 1) ≤ w.toNat
  · rw [decide_eq_true hge, Bool.toNat_true]
    omega
  · rw [decide_eq_false hge, Bool.toNat_false]
    omega

/-- A chain all of whose devices shift is one long register (R73). -/
theorem chainValue_shiftChain {shifts : Chip → Bool} {ch : List Chip} (b : Bool) (h : ∀ c ∈ ch, shifts c = true) :
    chainValue (shiftChain shifts b ch) = (2 * chainValue ch + b.toNat) % 2 ^ (16 * ch.length) := by
  induction ch generalizing b with
  | nil => rw [List.length_nil, Nat.mul_zero, Nat.pow_zero, Nat.mod_one]; rfl
  | cons c ch ih =>
    obtain ⟨hc, hch⟩ := List.forall_mem_cons.mp h
    have hpow : 2 ^ (16 * (ch.length + 1)) = 65536 * 2 ^ (16 * ch.length) := by
      rw [Nat.mul_succ, Nat.pow_add, Nat.mul_comm]
    rw [shiftChain, if_pos hc, chainValue, chainValue, ih _ hch, List.length_cons, hpow, shifted_low_and_rest,
      toNat_shiftConcat_half, ← toNat_msb_half]

theorem shiftChain_of_none {shifts : Chip → Bool} {ch : List Chip} (b : Bool) (h : ∀ c ∈ ch, shifts c = false) :
    shiftChain shifts b ch = ch := by
  induction ch generalizing b with
  | nil => rfl
  | cons c ch ih =>
    obtain ⟨hc, hch⟩ := List.forall_mem_cons.mp h
    rw [shiftChain, hc, ih _ hch]
    rfl

/-- Settles O19: at an edge every device shifts, or (MAX7221 with CS high) none does. -/
theorem clockEdgeShiftsOneLongRegister : Obligations.ClockEdgeShiftsOneLongRegister := by
  intro s t shifted edge
  have hdin : (s.pin.din == .high).toNat = if s.pin.din = .high then 1 else 0 := by
    cases s.pin.din <;> rfl
  have hedge (h : edge) : t.chain =
      shiftChain (shiftsNow (lineLow s.pin.cs s.line.cs)) (s.pin.din == .high) s.chain := if_pos (lineLow_iff.mpr h)
  have hall (h : edge) (hs : ∀ c ∈ s.chain, shiftsNow (lineLow s.pin.cs s.line.cs) c = true) :
      chainValue t.chain = shifted := by
    rw [hedge h, chainValue_shiftChain _ hs, hdin]
  have hnone (h : ¬ edge) : t.chain = s.chain := if_neg fun h' => h (lineLow_iff.mp h')
  refine ⟨?_, fun h hcs => hall h fun c _ => ?_, fun h hcs hk => hall h fun c hc => ?_, fun h hcs hk => ?_, hnone⟩
  · by_cases h : edge
    · rw [hedge h, shiftChain_rest]
    · rw [hnone h]
  · rw [hcs]; rfl
  · rw [hcs, shiftsNow, hk c hc]; rfl
  · rw [hedge h]
    refine shiftChain_of_none _ fun c hc => ?_
    rw [hcs, shiftsNow, hk c hc]; rfl

/-! ### The CS edge -/

/-- One register of a latched chain (R74). -/
theorem chainReg_map_latch {ch : List Chip} {e : Nat} {c : Chip} (k : Nat) (hc : ch[e]? = some c) :
    chainReg (ch.map Chip.latch) e k =
      if k = (c.sr.extractLsb' 8 4).toNat ∧ k ≠ 0 then some (c.sr.extractLsb' 0 8) else chainReg ch e k := by
  simp only [chainReg, List.getElem?_map, hc, Option.map_some, Option.bind_some, latch_read]

/-- Settles O20, by what one latch writes. -/
theorem chipSelectEdgeLatchesEveryDevice : Obligations.ChipSelectEdgeLatchesEveryDevice := by
  intro s t edge
  have hedge (h : edge) : t.chain = s.chain.map Chip.latch := if_pos (lineLow_iff.mpr h)
  have hnone (h : ¬ edge) : t.chain = s.chain := if_neg fun h' => h (lineLow_iff.mp h')
  refine ⟨?_, hnone, fun h e k c hc => ?_⟩
  · by_cases h : edge
    · rw [hedge h, List.map_map]
      exact List.map_congr_left fun c _ => by rw [Function.comp_apply, latch_kind, latch_sr]
    · rw [hnone h]
  · rw [devReg_eq, hedge h, chainReg_map_latch k hc, devReg_eq]

/-! ### Wire words -/

/-- A wire word runs in every state: it writes its register, and NOOP nothing (R74, R102). -/
theorem exec_wire {i : Instr} {e adr : Nat} {d : Byte} (h : wireTarget i = some (e, adr, d)) (s : State) :
    exec i s = .next (if adr = 0 then s else wireWrite e (BitVec.ofNat 4 adr) d s) ∧ adr < 16 := by
  cases i <;> cases h <;> exact ⟨rfl, by decide⟩

/-- A write through a device of the chain, seen through one register. -/
theorem devReg_wireWrite (e : Nat) (adr : BitVec 4) (d : Byte) (s : State) (e' k : Nat) :
    devReg (wireWrite e adr d s) e' k =
      if e' = e ∧ k = adr.toNat ∧ e < s.chain.length then some d else devReg s e' k := by
  rw [devReg, wireWrite_chain, List.getElem?_modify, devReg]
  by_cases he : e' = e
  · subst he
    by_cases hlt : e' < s.chain.length
    · simp [hlt, Memory.read_write]
    · simp [hlt]
  · simp [he, Ne.symm he]

/-- A write leaves kinds and shift registers alone. -/
theorem wireWrite_rest (e : Nat) (adr : BitVec 4) (d : Byte) (s : State) :
    (wireWrite e adr d s).chain.map (fun c => (c.kind, c.sr)) = s.chain.map (fun c => (c.kind, c.sr)) := by
  refine List.ext_getElem? fun j => ?_
  rw [wireWrite_chain, List.getElem?_map, List.getElem?_map, List.getElem?_modify]
  by_cases hj : e = j <;> cases s.chain[j]? <;> simp [hj]

/-- Settles O23: a write to one register of one device. -/
theorem wireWordsWriteOneRegister : Obligations.WireWordsWriteOneRegister := by
  intro i e adr d s h
  obtain ⟨hexec, hadr⟩ := exec_wire h s
  by_cases h0 : adr = 0
  · rw [if_pos h0] at hexec
    refine ⟨s, hexec, rfl, rfl, fun e' k => ?_⟩
    rw [if_neg fun h' => h'.2.2.1 h0]
  · rw [if_neg h0] at hexec
    refine ⟨_, hexec, rfl, ?_, fun e' k => ?_⟩
    · exact wireWrite_rest e (BitVec.ofNat 4 adr) d s
    · rw [devReg_wireWrite, BitVec.toNat_ofNat, Nat.mod_eq_of_lt hadr]
      simp [h0]

/-- A wire word's target is what a latch makes of it (R74, R102). -/
theorem decodeWire_target {e : Nat} {w : Half} {i : Instr} (h : decodeWire e w = .ok i) :
    wireTarget i = some (e, (w.extractLsb' 8 4).toNat, w.extractLsb' 0 8) := by
  have hadr : (w.extractLsb' 8 4).toNat = (w.extractLsb' 8 8).toNat % 16 := by
    simp only [BitVec.extractLsb'_toNat]
    omega
  rw [hadr]
  unfold decodeWire at h
  split at h
  case h_1 heq =>
    dsimp only at h
    by_cases hd : w.extractLsb' 0 8 = 0#8
    · rw [if_pos hd] at h
      cases h
      rw [heq, hd]
      rfl
    · rw [if_neg hd] at h
      cases h
  case h_15 => cases h
  all_goals
    rename_i heq
    cases h
    rw [heq]
    rfl

/-- The wire word a device holds, run alone, does to the device what a latch does (R74, log 2). -/
theorem exec_decodeWire {e : Nat} {c : Chip} {i : Instr} {s : State} (hc : s.chain[e]? = some c)
    (h : decodeWire e c.sr = .ok i) :
    ∃ u, exec i s = .next u ∧ u.chain[e]? = some c.latch ∧ ∀ e', e' ≠ e → u.chain[e']? = s.chain[e']? := by
  obtain ⟨hexec, -⟩ := exec_wire (decodeWire_target h) s
  by_cases h0 : c.sr.extractLsb' 8 4 = 0x0#4
  · rw [if_pos (by rw [h0]; rfl)] at hexec
    exact ⟨s, hexec, by rw [latch_noop h0, hc], fun _ _ => rfl⟩
  · rw [if_neg (address_toNat_ne_zero h0), BitVec.ofNat_toNat, BitVec.setWidth_eq] at hexec
    refine ⟨_, hexec, ?_, fun e' he' => ?_⟩
    · rw [wireWrite_chain, List.getElem?_modify_eq, hc, latch_write h0]
      rfl
    · rw [wireWrite_chain, List.getElem?_modify_ne _ _ he'.symm]

/-- Settles O6: the edge latches every device, and a decoded word run alone latches its own. -/
theorem chipSelectEdgeRunsTheWireWords : Obligations.ChipSelectEdgeRunsTheWireWords := by
  intro s hf hs hcs
  have hchain : chainAfter .cs .high s = s.chain.map Chip.latch := by rw [chainAfter_csHigh, hcs]; rfl
  refine ⟨{ pinWrite .cs .high s with seq := .idle }, step_busy hf hs, rfl, ?_, fun e c i hc hi => ?_⟩
  · rw [pinWrite_chain, hchain, List.length_map]
  · rw [pinWrite_chain, hchain, List.getElem?_map, hc]
    exact exec_decodeWire hc hi

end Sys2Proof.Machine
end

section
/-! SUPPORT. What XFER leaves in the chips: on a clean link every device holds and latches its word (R77, R78); on
a CLK left high the first edge is missing, and with it bit 15 of the far device's word (R79). -/

namespace Sys2Proof.Machine

/-- XFER's big step to a device of the chain (R123 to R125). -/
theorem exec_xfer {s : State} {a : Word} (op d : Byte) (hl : Live s) (hv : s.view = .bigStep) (ha : AddrOk s.n a) :
    exec (.xfer a op d) s = .next (runActs (xferActs s.n.val a.toNat op d) s) := by
  rw [← issue_bigStep hv]
  exact exec_issues hl (if_pos (validAddr_iff.mpr ha))

/-- Settles O21, by what a frame fed to the chain and latched leaves there. -/
theorem xferLeavesEachDeviceItsWord : Obligations.XferLeavesEachDeviceItsWord := by
  intro s a op d hl hv ha hclean
  have hchain := xfer_chain op d ha.toNat_lt s hclean.clkLow
  refine ⟨_, exec_xfer op d hl hv ha, ?_, fun e k c hc => ?_, fun hlen e k => ?_⟩
  · rw [hchain, chainXfer_sr]
  · rw [hchain] at hc
    rw [devReg_eq, hchain, chainXfer_reg_self _ _ _ _ _ _ _ _ hc, devReg_eq]
  · rw [devReg_eq, hchain, chainXfer_reg op d ha.toNat_lt _ hlen, devReg_eq]

/-! ### XFER on a high CLK -/

theorem wordBits_eq (w : Half) : wordBits w = w.getLsbD 15 :: (wordBits w).tail := rfl

/-- The bits of a frame after its first one: the rest of the far device's word, then the other devices' words. -/
def lateBits (m a : Nat) (op d : Byte) : List Bool :=
  (wordBits (frameWord a op d m)).tail ++ ((List.range m).reverse.map (frameWord a op d)).flatMap wordBits

/-- All bits of a frame are bit 15 of the far device's word and those. -/
theorem frame_bits_eq_lateBits {m a : Nat} (op d : Byte) (h : a < m + 1) :
    (frameBytes (m + 1) a op d).reverse.flatMap (bitOrder true) =
      (frameWord a op d m).getLsbD 15 :: lateBits m a op d := by
  rw [frame_bits op d h, List.range_succ, List.reverse_concat, List.map_cons, List.flatMap_cons, wordBits_eq]
  rfl

/-- A bit sent while CLK is already high moves no chip, and leaves CLK low (R72). -/
theorem runActs_bitActs_clkHigh (b : Bool) {s : State} (hclk : s.pin.clk = .high) :
    (runActs (bitActs b) s).chain = s.chain ∧ (runActs (bitActs b) s).pin.cs = s.pin.cs ∧
      ClkLow (runActs (bitActs b) s) := by
  refine ⟨?_, rfl, rfl⟩
  show chainAfter .clk .high (pinWrite .din (Level.ofBit b) s) = s.chain
  rw [chainAfter_clkHigh]
  exact if_neg (by rw [pinWrite_pin, Pins.set, hclk, lineLow_high]; decide)

/-- R79: XFER with CLK driven high feeds the chain all of the frame but its first bit, and latches. -/
theorem xfer_chain_clkHigh {m a : Nat} (op d : Byte) (h : a < m + 1) (s : State) (hclk : s.pin.clk = .high) :
    (runActs (xferActs (m + 1) a op d) s).chain = (feed (lateBits m a op d) s.chain).map Chip.latch := by
  have hbits : (frameBytes (m + 1) a op d).reverse.flatMap (shiftOutActs true) =
      bitActs ((frameWord a op d m).getLsbD 15) ++ (lateBits m a op d).flatMap bitActs := by
    rw [← List.flatMap_cons, ← frame_bits_eq_lateBits op d h, List.flatMap_assoc]
    rfl
  unfold xferActs
  rw [hbits, List.append_assoc, runActs_cons, runActs_cons, runActs_append, runActs_append]
  obtain ⟨hchain, hcs, hlow⟩ := runActs_bitActs_clkHigh ((frameWord a op d m).getLsbD 15)
    (s := act (.pin .cs .low) (act (.loadFrame (frameBytes (m + 1) a op d)) s)) hclk
  obtain ⟨hfed, hcs', -⟩ := runActs_bits_chain (lateBits m a op d) _ hcs hlow
  rw [runActs_cons, runActs_nil, act_pin, pinWrite_chain, chainAfter_csHigh, hcs', if_pos (lineLow_low _), hfed, hchain]
  rfl

/-- Fifteen bits of a word fill the low fifteen bits of a shift register (R73). -/
theorem feedReg_wordBits_tail (w x : Half) :
    (feedReg (wordBits w).tail x).extractLsb' 0 15 = w.extractLsb' 0 15 := by
  simp only [wordBits, List.map_cons, List.map_nil, List.tail_cons, feedReg]
  ext i hi
  interval_cases i <;> simp [BitVec.getElem_shiftConcat, BitVec.getLsbD_eq_getElem]

/-- After a frame without its first bit every device but the far one holds its word, and the far one fifteen bits
of its own behind what it held (R79). -/
theorem feed_lateBits_words {m : Nat} (a : Nat) (op d : Byte) (c : Chip) {ch : List Chip} (hlen : ch.length = m) :
    (feed (lateBits m a op d) (c :: ch)).map Chip.sr =
      (List.range m).map (frameWord a op d) ++ [feedReg (wordBits (frameWord a op d m)).tail c.sr] := by
  rw [lateBits, feed_append, feed_words, ← List.map_reverse, List.reverse_reverse, feed_length, feed_cons,
    List.map_cons, List.length_cons, hlen]
  simp [List.take_append]

theorem feed_lateBits_sr {m a : Nat} (op d : Byte) {ch : List Chip} (hlen : ch.length = m + 1) {e : Nat} {c : Chip}
    (hc : (feed (lateBits m a op d) ch)[e]? = some c) :
    (e + 1 < m + 1 → c.sr = frameWord a op d e) ∧
      c.sr.extractLsb' 0 15 = (frameWord a op d e).extractLsb' 0 15 := by
  obtain ⟨c0, ch', rfl⟩ := List.exists_cons_of_length_eq_add_one hlen
  have hsr := congrArg (fun l => l[e]?) (feed_lateBits_words a op d c0 (Nat.succ.inj hlen))
  simp only [List.getElem?_map, hc, Option.map_some] at hsr
  by_cases he : e < m
  · rw [List.getElem?_append_left (by simpa using he)] at hsr
    have hw : c.sr = frameWord a op d e := by simpa [he] using hsr
    exact ⟨fun _ => hw, by rw [hw]⟩
  · have hlt := (List.getElem?_eq_some_iff.mp hc).1
    rw [feed_length, hlen] at hlt
    obtain rfl : e = m := by omega
    have hw : c.sr = feedReg (wordBits (frameWord a op d e)).tail c0.sr := by simpa using hsr
    exact ⟨fun h => absurd h (Nat.lt_irrefl _), by rw [hw, feedReg_wordBits_tail]⟩

/-- Address and data lie in the low fifteen bits of a word (R74). -/
theorem latched_fields_eq {w w' : Half} (h : w.extractLsb' 0 15 = w'.extractLsb' 0 15) :
    w.extractLsb' 8 4 = w'.extractLsb' 8 4 ∧ w.extractLsb' 0 8 = w'.extractLsb' 0 8 := by
  have hn := congrArg BitVec.toNat h
  simp only [BitVec.extractLsb'_toNat, Nat.shiftRight_zero] at hn
  constructor <;> apply BitVec.eq_of_toNat_eq <;>
    simp only [BitVec.extractLsb'_toNat, Nat.shiftRight_eq_div_pow] <;> omega

/-- A chain whose devices hold the frame's words, bit 15 apart, latches the frame's one register (R74, R77). -/
theorem chainReg_latch_frame {a : Nat} {op d : Byte} {ch : List Chip} (ha : a < ch.length)
    (h : ∀ e c, ch[e]? = some c → c.sr.extractLsb' 0 15 = (frameWord a op d e).extractLsb' 0 15) (e k : Nat) :
    chainReg (ch.map Chip.latch) e k =
      if e = a ∧ k = (op.extractLsb' 0 4).toNat ∧ (op.extractLsb' 0 4).toNat ≠ 0 then some d
      else chainReg ch e k := by
  cases hc : ch[e]? with
  | none =>
    have hne : e ≠ a := fun h' => absurd ha (by rw [← h']; exact Nat.not_lt.mpr (List.getElem?_eq_none_iff.mp hc))
    rw [if_neg fun h' => hne h'.1]
    simp [chainReg, hc]
  | some c =>
    obtain ⟨hadr, hdata⟩ := latched_fields_eq (h e c hc)
    rw [chainReg_map_latch k hc, hadr, hdata]
    by_cases he : e = a
    · subst he
      rw [frameWord_address, frameWord_data]
      by_cases hk : k = (op.extractLsb' 0 4).toNat
      · subst hk
        simp
      · rw [if_neg fun h' => hk h'.1, if_neg fun h' => hk h'.2.1]
    · have hnoop : frameWord a op d e = 0#16 := if_neg he
      rw [hnoop, if_neg fun h' => h'.2 h'.1, if_neg fun h' => he h'.1]

/-- Shifting keeps every register. -/
theorem chainReg_feed (bs : List Bool) (ch : List Chip) (e k : Nat) :
    chainReg (feed bs ch) e k = chainReg ch e k := by
  have h := congrArg (fun x => x.bind fun p => p.2.read k) (feed_getElem? bs ch e)
  rw [Option.bind_map, Option.bind_map] at h
  exact h

/-- Settles O22: the missing edge costs bit 15, which no latch reads. -/
theorem xferOnAHighClockLatchesTheIntendedWords : Obligations.XferOnAHighClockLatchesTheIntendedWords := by
  intro s a op d hl hv ha hclk _ hlen
  obtain ⟨m, hm⟩ : ∃ m, s.n.val = m + 1 := ⟨s.n.val - 1, by have := ha.toNat_lt; omega⟩
  have haddr := ha.toNat_lt
  rw [hm] at haddr hlen
  have hchain := xfer_chain_clkHigh op d haddr s hclk
  have hwords e c := feed_lateBits_sr op d (a := a.toNat) hlen (e := e) (c := c)
  refine ⟨_, exec_xfer op d hl hv ha, fun e c hc => ?_, fun e k => ?_⟩
  · rw [hm, hchain, List.getElem?_map] at hc
    obtain ⟨c', hc', rfl⟩ := Option.map_eq_some_iff.mp hc
    rw [latch_sr, hm]
    exact hwords e c' hc'
  · rw [devReg_eq, hm, hchain, chainReg_latch_frame (by rw [feed_length, hlen]; exact haddr)
      fun e c hc => (hwords e c hc).2, chainReg_feed, devReg_eq]

end Sys2Proof.Machine
end

section
/-! SUPPORT. The table of R93 as a relation that the decoder and the encoder of command words both follow, and what
the six checks of R95 leave of a word; the same for the wire words of R102, whose table is `wireTarget`. -/

namespace Sys2Proof.Machine

/-! ### The operand fields of a command word (R91, R94) -/

/-- B, X, Y and Z of R91: what a command word holds besides its CODE and its reserved field. -/
structure Fields where
  b : Bool
  x : Word
  y : Word
  z : Word

/-- The fields of four words (R91). -/
def fieldsOf (w : CommandWord) : Fields := ⟨boolField w.w0, w.w1, w.w2, w.w3⟩

/-- W3 as a format writes it (R94): nothing, the word Z, or the byte Z. -/
def formatZ (f : Format) (z : Word) : Word :=
  match f with
  | .f0 | .fx | .fxb | .fxy => 0#32
  | .fxyzb => z
  | .fxyz8 | .fxyz8b => byteWord (byteField z)

/-- The four words of a CODE with the fields its format uses, zero in all others (R93, R94). -/
def formatWord (f : Format) (code : Nat) (o : Fields) : CommandWord where
  w0 := commandW0 (BitVec.ofNat 4 code) (f.usesB && o.b)
  w1 := if f.usesX then o.x else 0#32
  w2 := if f.usesY then o.y else 0#32
  w3 := formatZ f o.z

/-- The six checks of R95, each as an equation. -/
theorem reservedClear_iff {f : Format} {w : CommandWord} :
    reservedClear f w = true ↔
      reservedField0 w.w0 = 0#27 ∧ (f.usesB = true ∨ boolField w.w0 = false) ∧ (f.usesX = true ∨ w.w1 = 0#32) ∧
        (f.usesY = true ∨ w.w2 = 0#32) ∧ f.zClear w.w3 = true := by
  simp [reservedClear, and_assoc]

theorem formatZ_of_zClear {f : Format} {z : Word} (h : f.zClear z = true) : formatZ f z = z := by
  cases f with
  | f0 | fx | fxb | fxy => exact (eq_of_beq h).symm
  | fxyzb => rfl
  | fxyz8 | fxyz8b => exact (eq_byteWord (eq_of_beq h)).symm

theorem zClear_formatZ (f : Format) (z : Word) : f.zClear (formatZ f z) = true := by
  cases f with
  | f0 | fx | fxb | fxy | fxyzb => rfl
  | fxyz8 | fxyz8b => exact beq_of_eq (byteWord_fields _).2

/-- A format's own word passes its checks. -/
theorem reservedClear_formatWord (f : Format) (code : Nat) (o : Fields) :
    reservedClear f (formatWord f code o) = true := by
  obtain ⟨-, hb, hr⟩ := commandW0_fields (BitVec.ofNat 4 code) (f.usesB && o.b)
  refine reservedClear_iff.mpr ⟨hr, ?_, ?_, ?_, zClear_formatZ f o.z⟩
  · rw [formatWord, hb]
    cases f.usesB <;> simp
  · cases h : f.usesX <;> simp [formatWord, h]
  · cases h : f.usesY <;> simp [formatWord, h]

/-- A word that passes a format's checks is its CODE and the fields of the format: no bit of it is ignored. -/
theorem formatWord_of_reservedClear {f : Format} {w : CommandWord} (h : reservedClear f w = true) :
    formatWord f (codeField w.w0).toNat (fieldsOf w) = w := by
  obtain ⟨hr, hb, hx, hy, hz⟩ := reservedClear_iff.mp h
  have hw0 : commandW0 (codeField w.w0) (f.usesB && boolField w.w0) = w.w0 := by
    conv_rhs => rw [eq_commandW0 hr]
    rcases hb with hb | hb <;> simp [hb]
  have hw1 : (if f.usesX then w.w1 else 0#32) = w.w1 := by rcases hx with hx | hx <;> simp [hx]
  have hw2 : (if f.usesY then w.w2 else 0#32) = w.w2 := by rcases hy with hy | hy <;> simp [hy]
  simp [formatWord, fieldsOf, hw0, hw1, hw2, formatZ_of_zClear hz]

theorem checked_of_reservedClear {f : Format} {w : CommandWord} (i : Instr) (h : reservedClear f w = true) :
    checked f w i = .ok i := if_pos h

theorem checked_of_reserved {f : Format} {w : CommandWord} (i : Instr) (h : ¬ reservedClear f w = true) :
    checked f w i = .error .reservedField := if_neg h

theorem reservedClear_of_checked {f : Format} {w : CommandWord} {i j : Instr} (h : checked f w i = .ok j) :
    reservedClear f w = true := by
  by_contra hr
  rw [checked_of_reserved i hr] at h
  cases h

/-! ### The table of R93 -/

/-- A row of R93: the CODE, the format, and the command that the fields make. -/
inductive CommandRow : Nat → Format → Fields → Instr → Prop
  | init {o} : CommandRow 0x1 .fx o (.init o.x)
  | getcount {o} : CommandRow 0x2 .f0 o .getcount
  | shutdown {o} : CommandRow 0x3 .fxb o (.shutdown o.x o.b)
  | scanlimit {o} : CommandRow 0x4 .fxy o (.scanlimit o.x o.y)
  | intensity {o} : CommandRow 0x5 .fxy o (.intensity o.x o.y)
  | clear {o} : CommandRow 0x6 .fx o (.clear o.x)
  | setled {o} : CommandRow 0x7 .fxyzb o (.setled o.x o.y o.z o.b)
  | setrow {o} : CommandRow 0x8 .fxyz8 o (.setrow o.x o.y (byteField o.z))
  | setcol {o} : CommandRow 0x9 .fxyz8 o (.setcol o.x o.y (byteField o.z))
  | setdigit {o} : CommandRow 0xA .fxyz8b o (.setdigit o.x o.y (byteField o.z) o.b)
  | setchar {o} : CommandRow 0xB .fxyz8b o (.setchar o.x o.y (byteField o.z) o.b)

/-- Every CODE from 0x1 to 0xB has a row. -/
theorem exists_commandRow {code : Nat} (h1 : 1 ≤ code) (h11 : code ≤ 11) (o : Fields) :
    ∃ f i, CommandRow code f o i := by
  interval_cases code
  exacts [⟨_, _, .init⟩, ⟨_, _, .getcount⟩, ⟨_, _, .shutdown⟩, ⟨_, _, .scanlimit⟩, ⟨_, _, .intensity⟩, ⟨_, _, .clear⟩,
    ⟨_, _, .setled⟩, ⟨_, _, .setrow⟩, ⟨_, _, .setcol⟩, ⟨_, _, .setdigit⟩, ⟨_, _, .setchar⟩]

theorem CommandRow.code_lt {code : Nat} {f : Format} {o : Fields} {i : Instr} (h : CommandRow code f o i) :
    code < 16 := by
  cases h <;> decide

/-- The decoder's answer on a CODE of the table. -/
theorem decode_of_commandRow {f : Format} {w : CommandWord} {i : Instr}
    (h : CommandRow (codeField w.w0).toNat f (fieldsOf w) i) : decode w = checked f w i := by
  unfold decode
  generalize (codeField w.w0).toNat = code at h
  cases h <;> rfl

/-- The encoder writes a command as its row's format does, and every command is well formed (R93, R96). -/
theorem encode_of_commandRow {code : Nat} {f : Format} {o : Fields} {i : Instr} (h : CommandRow code f o i) :
    encode i = some (.command (formatWord f code o)) ∧ WellFormed i = true := by
  cases h <;> exact ⟨rfl, rfl⟩

/-- A row reads only the fields its format writes. -/
theorem CommandRow.of_formatWord {code : Nat} {f : Format} {o : Fields} {i : Instr} (h : CommandRow code f o i) :
    CommandRow code f (fieldsOf (formatWord f code o)) i := by
  have hfields : fieldsOf (formatWord f code o) =
      ⟨f.usesB && o.b, if f.usesX then o.x else 0#32, if f.usesY then o.y else 0#32, formatZ f o.z⟩ := by
    simp [fieldsOf, formatWord, (commandW0_fields _ _).2.1]
  have hbyte : byteField o.z = byteField (byteWord (byteField o.z)) := (byteWord_fields _).1.symm
  rw [hfields]
  cases h with
  | init => exact .init
  | getcount => exact .getcount
  | shutdown => exact .shutdown
  | scanlimit => exact .scanlimit
  | intensity => exact .intensity
  | clear => exact .clear
  | setled => exact .setled
  | setrow => rw [hbyte]; exact .setrow
  | setcol => rw [hbyte]; exact .setcol
  | setdigit => rw [hbyte]; exact .setdigit
  | setchar => rw [hbyte]; exact .setchar

/-- Decoding the word of a row gives the row's command. -/
theorem decode_formatWord {code : Nat} {f : Format} {o : Fields} {i : Instr} (h : CommandRow code f o i) :
    decode (formatWord f code o) = .ok i := by
  have hcode : (codeField (formatWord f code o).w0).toNat = code := by
    rw [formatWord, (commandW0_fields _ _).1, BitVec.toNat_ofNat, Nat.mod_eq_of_lt h.code_lt]
  rw [decode_of_commandRow (by rw [hcode]; exact h.of_formatWord)]
  exact checked_of_reservedClear i (reservedClear_formatWord f code o)

/-- The format's checks as R93 to R95 spell them out code by code. -/
theorem not_hasReservedBits_iff {f : Format} {w : CommandWord} {i : Instr}
    (h : CommandRow (codeField w.w0).toNat f (fieldsOf w) i) :
    ¬ HasReservedBits w ↔ reservedClear f w = true := by
  rw [reservedClear_iff]
  simp only [HasReservedBits, reservedField0, boolField, reservedField3, Format.zClear]
  change CommandRow (w.w0.extractLsb' 0 4).toNat f _ i at h
  generalize (w.w0.extractLsb' 0 4).toNat = code at h ⊢
  cases h <;> simp [Format.usesB, Format.usesX, Format.usesY]

/-! ### The illegal rows (R96) -/

theorem decode_illegalZero {w : CommandWord} (h : (codeField w.w0).toNat = 0) :
    decode w = .ok (.illegalZero w) := by
  rw [decode, h]
  rfl

theorem decode_illegalHigh {w : CommandWord} (h : 12 ≤ (codeField w.w0).toNat) :
    decode w = .ok (.illegalHigh w) := by
  unfold decode
  split
  case h_13 => rfl
  all_goals omega

theorem codeIsZero_iff {w : CommandWord} : codeIsZero w = true ↔ (codeField w.w0).toNat = 0 := by
  rw [codeIsZero, beq_iff_eq, ← BitVec.toNat_inj]
  rfl

theorem codeIsHigh_iff {w : CommandWord} : codeIsHigh w = true ↔ 12 ≤ (codeField w.w0).toNat := by
  rw [codeIsHigh, beq_iff_eq, ← BitVec.toNat_inj, codeField]
  simp only [BitVec.extractLsb'_toNat, Nat.shiftRight_eq_div_pow, BitVec.toNat_ofNat]
  omega

/-! ### Wire words (R101, R102) -/

/-- A wire row is written as its register address and its byte, at its place of the frame. -/
theorem encode_of_wireTarget {i : Instr} {e adr : Nat} {d : Byte} (h : wireTarget i = some (e, adr, d)) :
    encode i = some (.wire e (wireWord (BitVec.ofNat 8 adr) d)) := by
  cases i <;> cases h <;> rfl

/-- The word of a wire row decodes to the row. -/
theorem decodeWire_of_wireTarget {i : Instr} {e adr : Nat} {d : Byte} (h : wireTarget i = some (e, adr, d)) :
    decodeWire e (wireWord (BitVec.ofNat 8 adr) d) = .ok i := by
  unfold decodeWire
  rw [(wireWord_fields _ _).1, (wireWord_fields _ _).2]
  cases i <;> cases h <;> rfl

/-- An accepted wire word has no bit above its 4-bit address (R63, R102). -/
theorem decodeWire_address_lt {e : Nat} {w : Half} {i : Instr} (h : decodeWire e w = .ok i) :
    (w.extractLsb' 8 8).toNat < 16 := by
  unfold decodeWire at h
  split at h
  case h_15 => cases h
  all_goals omega

/-- An accepted wire word is its target's address and byte. -/
theorem eq_wireWord_of_decodeWire {e : Nat} {w : Half} {i : Instr} (h : decodeWire e w = .ok i) :
    wireWord (BitVec.ofNat 8 (w.extractLsb' 8 4).toNat) (w.extractLsb' 0 8) = w := by
  have hlt := decodeWire_address_lt h
  have hadr : BitVec.ofNat 8 (w.extractLsb' 8 4).toNat = w.extractLsb' 8 8 := by
    apply BitVec.eq_of_toNat_eq
    simp only [BitVec.extractLsb'_toNat, BitVec.toNat_ofNat] at hlt ⊢
    omega
  rw [hadr, ← eq_wireWord]

/-! ### The round trips -/

/-- Every host command is a row of R93. -/
theorem exists_commandRow_of_isCommand {i : Instr} (h : isCommand i = true) : ∃ code f o, CommandRow code f o i := by
  have hbyte (v : Byte) : v = byteField (byteWord v) := (byteWord_fields v).1.symm
  cases i with
  | init n => exact ⟨_, _, ⟨false, n, 0, 0⟩, .init⟩
  | getcount => exact ⟨_, _, ⟨false, 0, 0, 0⟩, .getcount⟩
  | shutdown a enable => exact ⟨_, _, ⟨enable, a, 0, 0⟩, .shutdown⟩
  | scanlimit a limit => exact ⟨_, _, ⟨false, a, limit, 0⟩, .scanlimit⟩
  | intensity a level => exact ⟨_, _, ⟨false, a, level, 0⟩, .intensity⟩
  | clear a => exact ⟨_, _, ⟨false, a, 0, 0⟩, .clear⟩
  | setled a r c on => exact ⟨_, _, ⟨on, a, r, c⟩, .setled⟩
  | setrow a r v => rw [hbyte v]; exact ⟨_, _, ⟨false, a, r, byteWord v⟩, .setrow⟩
  | setcol a c v => rw [hbyte v]; exact ⟨_, _, ⟨false, a, c, byteWord v⟩, .setcol⟩
  | setdigit a dg v dp => rw [hbyte v]; exact ⟨_, _, ⟨dp, a, dg, byteWord v⟩, .setdigit⟩
  | setchar a dg ch dp => rw [hbyte ch]; exact ⟨_, _, ⟨dp, a, dg, byteWord ch⟩, .setchar⟩
  | _ => cases h

/-- Settles O2: a command by its row of R93, a wire row by its target, an illegal row by its CODE. -/
theorem encodeThenDecodeGivesTheInstruction : Obligations.EncodeThenDecodeGivesTheInstruction := by
  intro i hwf
  by_cases hcmd : isCommand i = true
  · obtain ⟨code, f, o, hrow⟩ := exists_commandRow_of_isCommand hcmd
    rw [(encode_of_commandRow hrow).1]
    exact decode_formatWord hrow
  cases ht : wireTarget i with
  | some t =>
    rw [encode_of_wireTarget ht]
    exact decodeWire_of_wireTarget ht
  | none =>
    cases i with
    | illegalZero w => exact decode_illegalZero (codeIsZero_iff.mp hwf)
    | illegalHigh w => exact decode_illegalHigh (codeIsHigh_iff.mp hwf)
    | shiftout m v => exact .inl ⟨m, v, rfl⟩
    | xfer a op d => exact .inr ⟨a, op, d, rfl⟩
    | _ => simp [isCommand, wireTarget] at hcmd ht

/-- An accepted command word is the encoding of the well-formed instruction it decodes to. -/
theorem encode_of_decode {w : CommandWord} {i : Instr} (h : decode w = .ok i) :
    encode i = some (.command w) ∧ WellFormed i = true := by
  rcases Nat.eq_zero_or_pos (codeField w.w0).toNat with hzero | hpos
  · rw [decode_illegalZero hzero] at h
    cases h
    exact ⟨rfl, codeIsZero_iff.mpr hzero⟩
  by_cases hhigh : 12 ≤ (codeField w.w0).toNat
  · rw [decode_illegalHigh hhigh] at h
    cases h
    exact ⟨rfl, codeIsHigh_iff.mpr hhigh⟩
  obtain ⟨f, j, hrow⟩ := exists_commandRow hpos (by omega) (fieldsOf w)
  rw [decode_of_commandRow hrow] at h
  obtain rfl := checked_ok h
  rw [(encode_of_commandRow hrow).1, formatWord_of_reservedClear (reservedClear_of_checked h)]
  exact ⟨rfl, (encode_of_commandRow hrow).2⟩

/-- Settles O3: the checks of R95 leave a word nothing but its CODE and its operands. -/
theorem decodeThenEncodeGivesTheWords : Obligations.DecodeThenEncodeGivesTheWords := by
  refine ⟨fun w i h => encode_of_decode h, fun e w i h => ?_⟩
  rw [encode_of_wireTarget (decodeWire_target h), eq_wireWord_of_decodeWire h]

/-- Settles O4: one row of R93 per CODE, and the format's checks before it answers. -/
theorem decoderFollowsTheCodeTable : Obligations.DecoderFollowsTheCodeTable := by
  intro w code b z
  have hz : z = byteField w.w3 := BitVec.setWidth_eq_extractLsb' (by decide)
  have hrow {c f i} (hr : ¬ HasReservedBits w) (hc : code = c) (h : CommandRow c f (fieldsOf w) i) :
      decode w = .ok i := by
    subst hc
    rw [decode_of_commandRow h]
    exact checked_of_reservedClear i ((not_hasReservedBits_iff h).mp hr)
  refine ⟨decode_illegalZero, decode_illegalHigh, fun hr => ?_, fun hr => ?_⟩
  · obtain ⟨h1, h11, -⟩ := id hr
    obtain ⟨f, i, h⟩ := exists_commandRow h1 h11 (fieldsOf w)
    rw [decode_of_commandRow h]
    exact checked_of_reserved i fun hc => (not_hasReservedBits_iff h).mpr hc hr
  · rw [hz]
    exact ⟨(hrow hr · .init), (hrow hr · .getcount), (hrow hr · .shutdown), (hrow hr · .scanlimit),
      (hrow hr · .intensity), (hrow hr · .clear), (hrow hr · .setled), (hrow hr · .setrow), (hrow hr · .setcol),
      (hrow hr · .setdigit), (hrow hr · .setchar)⟩

/-- Settles O1, by running the assembler and the decoder on the thirteen lines. -/
theorem exampleWordsDecodeToTheirCommands : Obligations.ExampleWordsDecodeToTheirCommands := by
  unfold Obligations.ExampleWordsDecodeToTheirCommands
  decide

end Sys2Proof.Machine
end

section
/-! SUPPORT. The transport run alone: the bits of SHIFTOUT in either order (R121), and XFER's frame, byte for byte,
its events and their counts (R124, R126, R127). -/

namespace Sys2Proof.Machine

/-! ### SHIFTOUT -/

/-- SHIFTOUT's big step (R121). -/
theorem exec_shiftout {s : State} (m : Bool) (v : Byte) (hl : Live s) (hv : s.view = .bigStep) :
    exec (.shiftout m v) s = .next (runActs (shiftOutActs m v) s) := by
  rw [← issue_bigStep hv]
  exact exec_issues hl rfl

/-- SHIFTOUT's events in the order asked for (R121). -/
theorem events_shiftOutActs (m : Bool) (v : Byte) :
    (shiftOutActs m v).filterMap eventOf =
      (List.range 8).flatMap (fun j => bitEvents (v.getLsbD (if m then 7 - j else j))) := by
  rw [shiftOutActs, filterMap_flatMap_acts bitActs bitEvents events_bitActs, bitOrder, List.flatMap_map]

/-- The last bit sent is bit 0 MSB-first and bit 7 LSB-first (R121). -/
theorem bitOrder_last (m : Bool) (v : Byte) : ∃ bs, bitOrder m v = bs ++ [v.getLsbD (if m then 0 else 7)] := by
  refine ⟨(List.range 7).map (fun j => v.getLsbD (if m then 7 - j else j)), ?_⟩
  rw [bitOrder, List.range_succ, List.map_append]
  rfl

theorem shiftOutActs_pin (m : Bool) (v : Byte) (s : State) :
    (runActs (shiftOutActs m v) s).pin =
      ⟨(Level.ofBit (v.getLsbD (if m then 0 else 7))).toPin, .low, s.pin.cs⟩ := by
  obtain ⟨bs, hbs⟩ := bitOrder_last m v
  rw [shiftOutActs, hbs, runActs_bits_pin]

theorem shiftOutActs_frame (m : Bool) (v : Byte) (s : State) : (runActs (shiftOutActs m v) s).frame = s.frame := by
  refine runActs_link_frame_pinOnly (fun x hx => ?_) s
  obtain ⟨b, -, hb⟩ := List.mem_flatMap.mp hx
  simp only [bitActs, List.mem_cons, List.not_mem_nil, or_false] at hb
  rcases hb with rfl | rfl | rfl <;> exact ⟨_, _, rfl⟩

theorem Level.toPin_ofBit (b : Bool) : (Level.ofBit b).toPin = if b then .high else .low := by
  cases b <;> rfl

/-- Settles O15, by the frame of link actions, the events of the bits and the lines after the last bit. -/
theorem shiftOutSendsEightBits : Obligations.ShiftOutSendsEightBits := by
  intro s m v hl hv
  have hemitted := runActs_emitted (shiftOutActs m v) s
  rw [events_shiftOutActs] at hemitted
  refine ⟨_, exec_shiftout m v hl hv, runActs_link (shiftOutActs_link m v) s, shiftOutActs_frame m v s,
    emits_of_emitted hemitted, ?_, ?_⟩
  · rw [hemitted, List.length_append, List.length_reverse, flatMap_length_const _ 3 fun _ => rfl, List.length_range,
      Nat.add_comm]
  · rw [shiftOutActs_pin, Level.toPin_ofBit]

/-! ### XFER -/

/-- R124, slot by slot: zero but for the data slot 2a and the opcode slot 2a + 1. -/
theorem frameBytes_getElem? {n a k : Nat} (op d : Byte) (hk : k < 2 * n) :
    (frameBytes n a op d)[k]? = some (if k = 2 * a then d else if k = 2 * a + 1 then op else 0x00) := by
  rw [frameBytes]
  rcases eq_or_ne k (2 * a + 1) with rfl | hop
  · rw [if_neg (by omega), if_pos rfl, List.getElem?_set_self (by simpa using hk)]
  rw [List.getElem?_set_ne hop.symm, if_neg hop]
  rcases eq_or_ne k (2 * a) with rfl | hdata
  · rw [if_pos rfl, List.getElem?_set_self (by simpa using hk)]
  · rw [List.getElem?_set_ne hdata.symm, List.getElem?_replicate_of_lt hk, if_neg hdata]
    rfl

/-- The frame buffer's first 2N bytes after XFER (R124). -/
theorem xfer_frame_read {n a k : Nat} (op d : Byte) (s : State) (hn : n ≤ 8) (hk : k < 2 * n) :
    (runActs (xferActs n a op d) s).frame.read k =
      some (if k = 2 * a then d else if k = 2 * a + 1 then op else 0x00) := by
  have hlen := frameBytes_length n a op d
  rw [xfer_frame, List.take_of_length_le (by omega), Memory.read_writeAll, if_pos (by omega), Nat.sub_zero,
    frameBytes_getElem? op d hk]

/-- A device's events are those of two bytes, each 0x00 unless the device is addressed (R126). -/
theorem deviceEvents_eq (a : Nat) (op d : Byte) (e : Nat) :
    deviceEvents a op d e = byteEvents (if e = a then op else 0x00) ++ byteEvents (if e = a then d else 0x00) := by
  unfold deviceEvents
  split <;> rfl

theorem byteEvents_count_clkHigh (v : Byte) : (byteEvents v).count (.pinWrite .clk .high) = 8 := by
  simp [byteEvents, bitEvents]

theorem deviceEvents_count_clkHigh (a : Nat) (op d : Byte) (e : Nat) :
    (deviceEvents a op d e).count (.pinWrite .clk .high) = 16 := by
  rw [deviceEvents_eq, List.count_append, byteEvents_count_clkHigh, byteEvents_count_clkHigh]

/-- R127: 16N rising clock writes. -/
theorem xferEvents_count_clkHigh (n a : Nat) (op d : Byte) :
    (xferEvents n a op d).count (.pinWrite .clk .high) = 16 * n := by
  have hdevices : List.count (.pinWrite .clk .high) ∘ deviceEvents a op d = fun _ => 16 :=
    funext (deviceEvents_count_clkHigh a op d)
  simp [xferEvents, List.count_flatMap, hdevices, Nat.mul_comm]

/-- Settles O16, by the frame's slots, the events of the devices and their counts. -/
theorem xferBuildsTheFrameAndSendsItFarDeviceFirst : Obligations.XferBuildsTheFrameAndSendsItFarDeviceFirst := by
  intro s a op d hl hv ha
  have hlt := ha.toNat_lt
  have hemitted := xfer_emitted op d hlt s
  refine ⟨_, exec_xfer op d hl hv ha, xfer_onlyLink op d s, fun k hk => xfer_frame_read op d s (by omega) hk,
    xfer_frame_kept _ _ op d s, ?_, ?_, ?_, xfer_cleanLink op d hlt s⟩
  · simp only [← deviceEvents_eq]
    exact emits_of_emitted hemitted
  · rw [hemitted, List.length_append, List.length_reverse, xferEvents_length, xferLength, Nat.add_comm]
  · rw [hemitted, List.count_append, List.count_reverse, xferEvents_count_clkHigh, Nat.add_comm]

/-- Settles O17: the prologue passes and the test of R140 fails. -/
theorem xferOutsideTheChainIsRefused : Obligations.XferOutsideTheChainIsRefused := by
  intro s a op d hl ha
  rw [exec, execXfer, whenLive_live hl, validAddr_eq_false ha, if_neg Bool.false_ne_true]

/-- Settles O18, as O16 read at N = 4 and device 2. -/
theorem transferExampleOfTheSource : Obligations.TransferExampleOfTheSource := by
  intro s hl hv hn
  obtain ⟨t, ht, -, hframe, -, hemits, hlength, -⟩ :=
    xferBuildsTheFrameAndSendsItFarDeviceFirst s 2 0x0A 0x05 hl hv (by rw [hn]; decide)
  rw [hn] at hframe hemits hlength
  refine ⟨t, ht, ?_, hemits, hlength⟩
  rw [List.map_congr_left (l := List.range 8) fun k hk => hframe k (List.mem_range.mp hk)]
  rfl

end Sys2Proof.Machine
end

section
/-! SUPPORT. The configuration commands (R140 to R160): INIT's sequence and what it leaves in the block and in the
chips, GETCOUNT, and the three commands that write one register of one device. -/

namespace Sys2Proof.Machine

/-! ### What every command of the table shares -/

/-- Four words decode to a row's command when W0 is the row's CODE and B, and the others are the fields its format
uses (R91, R93, R94). -/
theorem decode_words {code : Nat} {f : Format} {o : Fields} {i : Instr} {w0 : Word} (b : Bool)
    (h : CommandRow code f o i) (hb : (f.usesB && o.b) = b) (hw0 : w0 = commandW0 (BitVec.ofNat 4 code) b) :
    decode ⟨w0, if f.usesX then o.x else 0#32, if f.usesY then o.y else 0#32, formatZ f o.z⟩ = .ok i := by
  rw [hw0, ← hb]
  exact decode_formatWord h

/-- Every command but INIT needs INIT (R212). -/
theorem needsInit_of_isCommand {i : Instr} (hc : isCommand i = true) (hn : isInit i = false) : NeedsInit i :=
  fun _ hl hi => exec_uninitialised hc hn hl hi

/-! ### INIT -/

/-- INIT's big step (R141). -/
theorem exec_init {s : State} (n : Word) (h : Fresh s) :
    exec (.init n) s = .next (runActs (initActs s.cfg.opcodes (clampN n)) s) := by
  obtain ⟨hl, hi, hv⟩ := h
  rw [← issue_bigStep hv]
  exact exec_issues hl (if_neg (by rw [hi]; exact Bool.false_ne_true))

/-- N after INIT's sequence (R141). -/
theorem runActs_init_n (o : Opcodes) {n : Fin 9} (s : State) (h : 1 ≤ n.val) :
    (runActs (initActs o n) s).n = n := by
  rw [(runActs_init o n s h).1]

/-- Settles O25, by everything INIT's sequence can do. -/
theorem initRunsItsSequence : Obligations.InitRunsItsSequence := by
  refine ⟨fun n => decode_words false (.init (o := ⟨false, n, 0, 0⟩)) rfl rfl,
    fun s n hfresh => ⟨_, exec_init n hfresh, ?_⟩⟩
  have hn := runActs_init_n s.cfg.opcodes s (clampN_pos n)
  obtain ⟨hrec, hread, hemitted, -, hframe, -⟩ := runActs_init s.cfg.opcodes (clampN n) s (clampN_pos n)
  rw [hn]
  refine ⟨hrec, clampN_toInt n, fun k hk => by rw [hread, if_pos hk], hframe,
    digitByte s.cfg.opcodes, fun hfit r hr => digitByte_eq hfit hr, emits_of_emitted hemitted⟩

/-- Settles O24, as one clause of O25. -/
theorem clampKeepsOneToEight : Obligations.ClampKeepsOneToEight := by
  intro s n hfresh
  obtain ⟨t, ht, -, hn, -⟩ := initRunsItsSequence.2 s n hfresh
  exact ⟨t, ht, hn⟩

/-- `1 + 12N E(N)` events for the whole of INIT (R143). -/
theorem initEvents_total_length (o : Opcodes) (n : Nat) :
    (Event.pinWrite .cs .high :: (List.range n).flatMap (initDeviceEvents o n)).length =
      1 + 12 * n * (2 + 48 * n) := by
  rw [List.length_cons, flatMap_length_const _ _ (initDeviceEvents_length o n), List.length_range, xferLength,
    Nat.mul_right_comm, Nat.add_comm]

/-- Under the boot premise CLK counts as low and INIT's first write, CS high, is no edge (R252). -/
theorem BootReady.quiet {s : State} (h : BootReady s) : ClkLow s ∧ chainAfter .cs .high s = s.chain := by
  obtain ⟨hclk, hcs, hpin⟩ := h
  constructor
  · rw [ClkLow, hpin, hclk]
    rfl
  · rw [chainAfter_csHigh, hpin, hcs]
    rfl

/-- After INIT on a booted chain of N chips a device holds what INIT writes, and what it held where INIT writes
nothing (R243, R252, R253). -/
theorem devReg_init {n : Fin 9} {s : State} (hn : 1 ≤ n.val) (hboot : BootReady s) (hlen : s.chain.length = n.val)
    {d : Nat} (hd : d < n.val) (k : Nat) :
    devReg (runActs (initActs Opcodes.standard n) s) d k = (initRegister k).or (devReg s d k) := by
  obtain ⟨hclk, hchain⟩ := hboot.quiet
  obtain ⟨-, -, -, -, -, hchips⟩ := runActs_init Opcodes.standard n s hn
  rw [devReg_eq, (hchips hclk hlen).2 rfl, if_pos hd, hchain, devReg_eq]

theorem initRegister_row {k : Nat} (h1 : 1 ≤ k) (h8 : k ≤ 8) : initRegister k = some 0x00 := by
  interval_cases k <;> rfl

/-- The mirror of R35 begins with INIT: every slot and every row register is 0x00. -/
theorem mirrors_init {n : Fin 9} {s : State} (hn : 1 ≤ n.val) (hboot : BootReady s)
    (ho : s.cfg.opcodes = Opcodes.standard) (hlen : s.chain.length = n.val) :
    Mirrors (runActs (initActs Opcodes.standard n) s) := by
  obtain ⟨hrec, hread, -, hpin, -, hchips⟩ := runActs_init Opcodes.standard n s hn
  have hcount := runActs_init_n Opcodes.standard s hn
  refine ⟨by rw [hrec]; exact ho, by rw [hcount]; exact (hchips hboot.quiet.1 hlen).1, ?_, fun a r ha => ?_⟩
  · rw [CleanLink, hpin]
    exact ⟨rfl, rfl⟩
  · rw [hcount] at ha
    rw [hread, if_pos (by omega), devReg_init hn hboot hlen ha, initRegister_row (by omega) (by omega)]
    exact ⟨rfl, rfl⟩

/-- Settles O26, by INIT's sequence and what it writes to each device. -/
theorem initLeavesTheBlockAndTheChipsConfigured : Obligations.InitLeavesTheBlockAndTheChipsConfigured := by
  intro s n hfresh
  have hpos := clampN_pos n
  obtain ⟨-, -, hemitted, hpin, -⟩ := runActs_init s.cfg.opcodes (clampN n) s hpos
  refine ⟨_, exec_init n hfresh, ?_⟩
  rw [runActs_init_n _ s hpos]
  refine ⟨?_, hpin, fun hboot ho hlen => ?_⟩
  · rw [hemitted, List.length_append, List.length_reverse, initEvents_total_length, Nat.add_comm]
  · rw [ho]
    refine ⟨mirrors_init hpos hboot ho hlen, fun d hd => ?_⟩
    have hreg := devReg_init hpos hboot hlen hd
    refine ⟨hreg 0xF, hreg 0xB, hreg 0x9, fun r hr => ?_, hreg 0xC, hreg 0xA, hreg 0xD, hreg 0xE⟩
    rw [hreg, initRegister_row (by omega) (by omega)]
    rfl

/-! ### GETCOUNT -/

/-- Settles O28: one response and no other action; N's bounds are the invariant's. -/
theorem getCountRespondsWithTheChainLength : Obligations.GetCountRespondsWithTheChainLength := by
  refine ⟨decode_words false (.getcount (o := ⟨false, 0, 0, 0⟩)) rfl rfl,
    needsInit_of_isCommand rfl rfl, fun s hready => ?_⟩
  obtain ⟨hl, hi, hv⟩ := hready
  refine ⟨?_, fun ⟨_, _, hinited⟩ => ⟨(hinited hi).1, Nat.le_of_lt_succ s.n.isLt⟩⟩
  rw [exec_issues (i := .getcount) hl (if_pos hi), issue_bigStep hv]
  rfl

/-! ### Commands that write one register -/

/-- The range guard of R156: `source` admits every value. -/
theorem guardOk_iff {mode : GuardMode} {v : Word} {lo hi : Int} (h : lo ≤ hi) :
    guardOk mode v lo hi = true ↔ mode = .source ∨ (lo ≤ v.toInt ∧ v.toInt ≤ hi) := by
  cases mode with
  | source =>
    simp only [guardOk, Bool.or_eq_true, decide_eq_true_eq, true_or, iff_true]
    omega
  | enforced => simp [guardOk]

/-- The low 8 bits of a signed value (R11, D12). -/
theorem trunc8_eq_ofInt (v : Word) : trunc8 v = BitVec.ofInt 8 v.toInt := by
  rw [trunc8, ← BitVec.signExtend_eq_setWidth_of_le v (by decide)]
  rfl

theorem registerActs_rejected {n : Fin 9} {a : Word} {ok : Bool} (adr : BitVec 4) (d : Byte)
    (h : ¬ (AddrOk n a ∧ ok = true)) : registerActs n a ok adr d = [] := by
  rw [registerActs, if_neg (by rwa [Bool.and_eq_true, validAddr_iff])]

/-- A command whose actions are one register write does nothing where its device or its guard is rejected
(R210). -/
theorem exec_registerActs_rejected {s : State} {i : Instr} {a : Word} {ok : Bool} {adr : BitVec 4} {d : Byte}
    (hready : Ready s) (hacts : actsOf s i = some (registerActs s.n a ok adr d))
    (h : ¬ (AddrOk s.n a ∧ ok = true)) :
    exec i s = .next s := by
  obtain ⟨hl, -, hv⟩ := hready
  rw [exec_issues hl hacts, issue_bigStep hv, registerActs_rejected adr d h, runActs_nil]

/-- And sends that one register write otherwise (R39, R77, R125). -/
theorem exec_registerActs_sent {s : State} {i : Instr} {a : Word} {ok : Bool} {adr : BitVec 4} {d : Byte}
    (hready : Ready s) (hacts : actsOf s i = some (registerActs s.n a ok adr d))
    (ha : AddrOk s.n a) (hok : ok = true) :
    ∃ t, exec i s = .next t ∧ RegisterSent s t a.toNat adr d := by
  obtain ⟨hl, -, hv⟩ := hready
  have hsend : registerActs s.n a ok adr d = xferActs s.n.val a.toNat (opcodeByte adr) d :=
    if_pos (by rw [validAddr_iff.mpr ha, hok]; rfl)
  rw [hsend] at hacts
  refine ⟨_, exec_issues hl hacts, ?_⟩
  rw [issue_bigStep hv]
  exact registerSent_xfer adr d ha.toNat_lt

/-- Settles O29: a register write with no guard but R140's. -/
theorem shutdownSendsTheInvertedByte : Obligations.ShutdownSendsTheInvertedByte := by
  intro a enable
  refine ⟨?_, needsInit_of_isCommand rfl rfl, fun s hready => ?_⟩
  · cases enable with
    | false => exact decode_words false (.shutdown (o := ⟨false, a, 0, 0⟩)) rfl rfl
    | true => exact decode_words true (.shutdown (o := ⟨true, a, 0, 0⟩)) rfl rfl
  · have hacts : actsOf s (.shutdown a enable) = _ := if_pos hready.2.1
    exact ⟨fun ha => exec_registerActs_rejected hready hacts fun h => ha h.1,
      fun ha => exec_registerActs_sent hready hacts ha rfl⟩

/-- A guarded register write of a truncated operand, in the terms of the statements (R155, R156, R160). -/
theorem exec_guardedRegister {s : State} {i : Instr} {a v : Word} {hi : Int} {adr : BitVec 4} (hready : Ready s)
    (hhi : 0 ≤ hi)
    (hacts : actsOf s i = some (registerActs s.n a (guardOk s.cfg.guardMode v 0 hi) adr (trunc8 v))) :
    (¬ AddrOk s.n a → exec i s = .next s) ∧
      (s.cfg.guardMode = .enforced → ¬ (0 ≤ v.toInt ∧ v.toInt ≤ hi) → exec i s = .next s) ∧
      (AddrOk s.n a → (s.cfg.guardMode = .source ∨ (0 ≤ v.toInt ∧ v.toInt ≤ hi)) →
        ∃ t, exec i s = .next t ∧ RegisterSent s t a.toNat adr (BitVec.ofInt 8 v.toInt)) := by
  refine ⟨fun ha => ?_, fun hmode hv => ?_, fun ha hv => ?_⟩
  · exact exec_registerActs_rejected hready hacts fun h => ha h.1
  · refine exec_registerActs_rejected hready hacts fun h => ?_
    rcases (guardOk_iff hhi).mp h.2 with hsource | hin
    · rw [hmode] at hsource
      cases hsource
    · exact hv hin
  · rw [← trunc8_eq_ofInt]
    exact exec_registerActs_sent hready hacts ha ((guardOk_iff hhi).mpr hv)

/-- Settles O30: a guarded register write with bounds 0 and 7. -/
theorem scanLimitFollowsTheGuard : Obligations.ScanLimitFollowsTheGuard := by
  intro a limit
  exact ⟨decode_words false (.scanlimit (o := ⟨false, a, limit, 0⟩)) rfl rfl, needsInit_of_isCommand rfl rfl,
    fun s hready => exec_guardedRegister hready (by decide) (if_pos hready.2.1)⟩

/-- Settles O31: a guarded register write with bounds 0 and 15. -/
theorem intensityFollowsTheGuard : Obligations.IntensityFollowsTheGuard := by
  intro a level
  exact ⟨decode_words false (.intensity (o := ⟨false, a, level, 0⟩)) rfl rfl, needsInit_of_isCommand rfl rfl,
    fun s hready => exec_guardedRegister hready (by decide) (if_pos hready.2.1)⟩

end Sys2Proof.Machine
end

section
/-! SUPPORT. The display commands (R170 to R202): one row or eight rows of one device written and transmitted, the
bit a SETLED writes, SETCOL as eight SETLEDs, and the pattern of a character. -/

namespace Sys2Proof.Machine

/-! ### A command of an initialised block, by its actions -/

/-- The big step of a command runs its actions (R28). -/
theorem exec_runActs {s : State} {i : Instr} {acts : List Action} (hready : Ready s)
    (hacts : actsOf s i = some acts) : exec i s = .next (runActs acts s) := by
  obtain ⟨hl, -, hv⟩ := hready
  rw [exec_issues hl hacts, issue_bigStep hv]

/-- A command whose check fails is a no-op (R210). -/
theorem exec_rejected {s : State} {i : Instr} {ok : Bool} {acts : List Action} (hready : Ready s)
    (hacts : actsOf s i = some (if ok then acts else [])) (h : ¬ ok = true) : exec i s = .next s := by
  rw [if_neg h] at hacts
  exact exec_runActs hready hacts

theorem validAddr_and_validIdx {n : Fin 9} {a i : Word} :
    (validAddr n a && validIdx i) = true ↔ AddrOk n a ∧ IdxOk i := by
  rw [Bool.and_eq_true, validAddr_iff, validIdx_iff]

/-- A display command leaves the block ready for the next one (R39). -/
theorem OnlyLinkAndShadow.ready {s t : State} (h : OnlyLinkAndShadow s t) (hready : Ready s) : Ready t := by
  rw [h]
  exact hready

theorem OnlyLinkAndShadow.addrOk {s t : State} {a : Word} (h : OnlyLinkAndShadow s t) (ha : AddrOk s.n a) :
    AddrOk t.n a := by
  rw [h]
  exact ha

/-- The words of a command with a byte operand decode to it (R92, R94). -/
theorem decode_byteOperand {code : Nat} {f : Format} {b : Bool} {x y w0 : Word} (v : Byte) {i : Byte → Instr}
    (h : ∀ z, CommandRow code f ⟨b, x, y, z⟩ (i (byteField z))) (hf : f = .fxyz8 ∨ f = .fxyz8b)
    (hw0 : w0 = commandW0 (BitVec.ofNat 4 code) (f.usesB && b)) : decode ⟨w0, x, y, v.setWidth 32⟩ = .ok (i v) := by
  have hdecode := decode_words _ (h (byteWord v)) rfl hw0
  have hv : byteField (byteWord v) = v := (byteWord_fields v).1
  rw [setWidth_eq_byteWord]
  rcases hf with rfl | rfl <;> rwa [formatZ, hv] at hdecode

/-- Two instructions that complete, one after the other (R64). -/
theorem execAll_pair {i j : Instr} {s t u : State} (hi : exec i s = .next t) (hj : exec j t = .next u) :
    execAll [i, j] s = .next u := by
  simp [execAll, hi, hj]

/-! ### One row, eight rows -/

/-- The actions of one row write and send it, `E(N)` events (R170, R262). -/
theorem rowSent_runActs {s : State} {a r : Nat} (v : Byte) (ha : a < s.n.val) (hr : r < 8) :
    let t := runActs (rowActs s.cfg.opcodes s.n.val a r v) s
    RowSent s t a r v ∧ t.emitted.length = s.emitted.length + (2 + 48 * s.n.val) := by
  obtain ⟨hlink, hshadow, hemitted, hclean, hframe, hchain⟩ :=
    runActs_row s.cfg.opcodes v s ha (Nat.le_of_lt_succ s.n.isLt) hr
  refine ⟨⟨hlink, ?_, fun k hk => ?_, ⟨digitByte s.cfg.opcodes, fun hfit _ => digitByte_eq hfit,
    emits_of_emitted hemitted⟩, hclean, hframe, fun ⟨hlisten, hlen⟩ => ?_⟩, ?_⟩
  · rw [hshadow, Memory.read_write_same]
  · rw [hshadow, Memory.read_write_other _ _ hk]
  · have hreg (e k : Nat) := chainXfer_reg (digitByte s.cfg.opcodes r) v ha s.chain hlen e k
    rw [← hchain hlisten.clkLow] at hreg
    refine ⟨fun e k he => ?_, fun hfit e k => ?_⟩
    · rw [devReg_eq, hreg, if_neg fun h => he h.1, devReg_eq]
    · rw [devReg_eq, hreg, digitByte_register hfit hr, devReg_eq]
  · rw [hemitted, List.length_append, List.length_reverse, xferEvents_length, xferLength, Nat.add_comm]

/-- The actions of eight rows write and send them in order, `8E(N)` events (R171, R185, R262). -/
theorem rowsSent_runActs {s : State} {a : Nat} (rows : Nat → Byte) (ha : a < s.n.val) :
    let t := runActs (rowsActs s.cfg.opcodes s.n.val a rows 8) s
    RowsSent s t a rows ∧ t.emitted.length = s.emitted.length + 8 * (2 + 48 * s.n.val) := by
  obtain ⟨hlink, hread, hemitted, hclean, -, hframe, hchips⟩ :=
    runActs_rows s.cfg.opcodes rows s ha (Nat.le_of_lt_succ s.n.isLt) (Nat.le_refl 8)
  refine ⟨⟨hlink, fun r hr => ?_, fun k hk => ?_, ⟨digitByte s.cfg.opcodes, fun hfit _ => digitByte_eq hfit,
    emits_of_emitted hemitted⟩, hclean (by decide), hframe, fun ⟨hlisten, hlen⟩ => ?_⟩, ?_⟩
  · rw [hread, if_pos (by omega), Nat.add_sub_cancel_left]
  · rw [hread, if_neg (by omega)]
  · obtain ⟨-, hothers, hregs⟩ := hchips hlisten.clkLow hlen
    exact ⟨hothers, hregs⟩
  · rw [hemitted, List.length_append, List.length_reverse,
      flatMap_length_const _ _ fun r => xferEvents_length s.n.val a (digitByte s.cfg.opcodes r) (rows r),
      List.length_range, xferLength, Nat.mul_comm, Nat.add_comm]

/-- A command whose actions are one row. -/
theorem exec_row {s : State} {i : Instr} {a r : Word} {v : Byte} (hready : Ready s) (ha : AddrOk s.n a)
    (hr : IdxOk r) (hacts : actsOf s i = some (rowActs s.cfg.opcodes s.n.val a.toNat r.toNat v)) :
    ∃ t, exec i s = .next t ∧ RowSent s t a.toNat r.toNat v ∧
      t.emitted.length = s.emitted.length + (2 + 48 * s.n.val) :=
  ⟨_, exec_runActs hready hacts, rowSent_runActs v ha.toNat_lt hr.toNat_lt⟩

/-- A command whose actions are all rows of a device. -/
theorem exec_rows {s : State} {i : Instr} {a : Word} {rows : Nat → Byte} (hready : Ready s) (ha : AddrOk s.n a)
    (hacts : actsOf s i = some (rowsActs s.cfg.opcodes s.n.val a.toNat rows 8)) :
    ∃ t, exec i s = .next t ∧ RowsSent s t a.toNat rows ∧
      t.emitted.length = s.emitted.length + 8 * (2 + 48 * s.n.val) :=
  ⟨_, exec_runActs hready hacts, rowsSent_runActs rows ha.toNat_lt⟩

/-! ### CLEAR -/

/-- Settles O32: eight rows of 0x00. -/
theorem clearBlanksOneDevice : Obligations.ClearBlanksOneDevice := by
  intro a
  refine ⟨decode_words false (.clear (o := ⟨false, a, 0, 0⟩)) rfl rfl, needsInit_of_isCommand rfl rfl,
    fun s hready => ?_⟩
  have hacts : actsOf s (.clear a) = _ := if_pos hready.2.1
  refine ⟨fun ha => exec_rejected hready hacts fun h => ha (validAddr_iff.mp h), fun ha => ?_⟩
  rw [if_pos (validAddr_iff.mpr ha), clearActs_eq] at hacts
  exact exec_rows hready ha hacts

/-! ### SETLED -/

/-- `colmask(c)` bit by bit: bit 7 - c alone (R175). -/
theorem colmask_getLsbD : ∀ c < 8, ∀ b < 8, (0x80#8 >>> c).getLsbD b = decide (b = 7 - c) := by decide

/-- SETLED's row value bit by bit (R176). -/
theorem ledRow_getLsbD (v : Byte) {c : Word} (on : Bool) (hc : c.toNat < 8) {b : Nat} (hb : b < 8) :
    (ledRow v c on).getLsbD b = if b = 7 - c.toNat then on else v.getLsbD b := by
  have hmask := colmask_getLsbD c.toNat hc b hb
  cases on with
  | true =>
    rw [ledRow, if_pos rfl, BitVec.getLsbD_or, hmask]
    by_cases h : b = 7 - c.toNat <;> simp [h]
  | false =>
    rw [ledRow, if_neg Bool.false_ne_true, BitVec.getLsbD_and, BitVec.getLsbD_not, hmask]
    by_cases h : b = 7 - c.toNat <;> simp [h, hb]

/-- The column written last decides. -/
theorem ledRow_ledRow (v : Byte) {c : Word} (on on' : Bool) (hc : c.toNat < 8) :
    ledRow (ledRow v c on) c on' = ledRow v c on' := by
  refine BitVec.eq_of_getLsbD_eq fun b hb => ?_
  simp only [ledRow_getLsbD _ _ hc hb]
  split <;> rfl

/-- The row stays exactly when its bit had the value already (R177). -/
theorem ledRow_eq_self_iff {v : Byte} {c : Word} {on : Bool} (hc : c.toNat < 8) :
    ledRow v c on = v ↔ v.getLsbD (7 - c.toNat) = on := by
  constructor
  · intro h
    rw [← h, ledRow_getLsbD v on hc (by omega), if_pos rfl]
  · intro h
    refine BitVec.eq_of_getLsbD_eq fun b hb => ?_
    rw [ledRow_getLsbD v on hc hb]
    split
    · next hbit => rw [hbit, h]
    · rfl

theorem actsOf_setled {s : State} (hi : s.inited = true) (a r c : Word) (on : Bool) :
    actsOf s (.setled a r c on) = ledActs s a r c on := if_pos hi

/-- SETLED with an operand out of range is a no-op (R176, R210). -/
theorem exec_setled_rejected {s : State} {a r c : Word} (on : Bool) (hready : Ready s)
    (h : ¬ (AddrOk s.n a ∧ IdxOk r ∧ IdxOk c)) : exec (.setled a r c on) s = .next s :=
  exec_runActs hready ((actsOf_setled hready.2.1 a r c on).trans (ledActs_invalid on h))

/-- SETLED on a slot that holds a value (R176). -/
theorem exec_setled {s : State} {a r c : Word} {v : Byte} (on : Bool) (hready : Ready s) (ha : AddrOk s.n a)
    (hr : IdxOk r) (hc : IdxOk c) (hv : s.shadow.read (8 * a.toNat + r.toNat) = some v) :
    ∃ t, exec (.setled a r c on) s = .next t ∧ RowSent s t a.toNat r.toNat (ledRow v c on) ∧
      t.emitted.length = s.emitted.length + (2 + 48 * s.n.val) :=
  exec_row hready ha hr ((actsOf_setled hready.2.1 a r c on).trans (ledActs_valid on ha hr hc hv))

/-- Settles O33: one row, the old one with the column's bit written. -/
theorem setLedModifiesOneBitAndSendsTheRow : Obligations.SetLedModifiesOneBitAndSendsTheRow := by
  intro a r c on
  refine ⟨?_, needsInit_of_isCommand rfl rfl, fun s hready => ⟨exec_setled_rejected on hready, ?_⟩⟩
  · cases on with
    | false => exact decode_words false (.setled (o := ⟨false, a, r, c⟩)) rfl rfl
    | true => exact decode_words true (.setled (o := ⟨true, a, r, c⟩)) rfl rfl
  · intro ha hr hc v hv
    obtain ⟨t, ht, hsent, hlength⟩ := exec_setled on hready ha hr hc hv
    exact ⟨t, ht, hsent, fun b hb => ledRow_getLsbD v on hc.toNat_lt hb, hlength⟩

/-- A command that leaves a row, then SETLED on that row. -/
theorem execAll_setled_after {s t : State} {i : Instr} {a r c : Word} {v : Byte} (on : Bool) (hready : Ready s)
    (ha : AddrOk s.n a) (hr : IdxOk r) (hc : IdxOk c) (hi : exec i s = .next t)
    (hsent : RowSent s t a.toNat r.toNat v) :
    ∃ u, execAll [i, .setled a r c on] s = .next u ∧
      u.shadow.read (8 * a.toNat + r.toNat) = some (ledRow v c on) := by
  obtain ⟨hlink, hread, -⟩ := hsent
  obtain ⟨u, hu, ⟨-, huread, -⟩, -⟩ :=
    exec_setled on (OnlyLinkAndShadow.ready hlink hready) (OnlyLinkAndShadow.addrOk hlink ha) hr hc hread
  exact ⟨u, execAll_pair hi hu, huread⟩

/-- Two SETLEDs of one column leave what the second alone leaves; that is the old row exactly when the bit had the
second's value, and the other seven bits are kept in any case (R177). -/
theorem execAll_setled_setled {s : State} {a r c : Word} {v : Byte} (on on' : Bool) (hready : Ready s)
    (ha : AddrOk s.n a) (hr : IdxOk r) (hc : IdxOk c) (hv : s.shadow.read (8 * a.toNat + r.toNat) = some v) :
    ∃ t, execAll [.setled a r c on, .setled a r c on'] s = .next t ∧
      t.shadow.read (8 * a.toNat + r.toNat) = some (ledRow v c on') ∧
      (t.shadow.read (8 * a.toNat + r.toNat) = some v ↔ v.getLsbD (7 - c.toNat) = on') ∧
      ∃ u, t.shadow.read (8 * a.toNat + r.toNat) = some u ∧
        ∀ b, b < 8 → b ≠ 7 - c.toNat → u.getLsbD b = v.getLsbD b := by
  have hc8 := hc.toNat_lt
  obtain ⟨t, ht, hsent, -⟩ := exec_setled on hready ha hr hc hv
  obtain ⟨u, hu, hread⟩ := execAll_setled_after on' hready ha hr hc ht hsent
  rw [ledRow_ledRow v on on' hc8] at hread
  refine ⟨u, hu, hread, ?_, _, hread, fun b hb hne => ?_⟩
  · rw [hread, Option.some_inj, ledRow_eq_self_iff hc8]
  · rw [ledRow_getLsbD v on' hc8 hb, if_neg hne]

/-- Settles O34: the second SETLED decides the bit. -/
theorem setLedOnThenOffClearsTheBit : Obligations.SetLedOnThenOffClearsTheBit := by
  intro s a r c v hready ha hr hc hv
  obtain ⟨t, ht, -, hrestored, hothers⟩ := execAll_setled_setled false true hready ha hr hc hv
  exact ⟨execAll_setled_setled true false hready ha hr hc hv, t, ht, hrestored, hothers⟩

/-! ### SETROW -/

/-- SETROW in range (R181). -/
theorem exec_setrow {s : State} {a r : Word} (v : Byte) (hready : Ready s) (ha : AddrOk s.n a) (hr : IdxOk r) :
    ∃ t, exec (.setrow a r v) s = .next t ∧ RowSent s t a.toNat r.toNat v ∧
      t.emitted.length = s.emitted.length + (2 + 48 * s.n.val) := by
  have hacts : actsOf s (.setrow a r v) = _ := if_pos hready.2.1
  rw [if_pos (validAddr_and_validIdx.mpr ⟨ha, hr⟩)] at hacts
  exact exec_row hready ha hr hacts

/-- Settles O35: one row, the value itself. -/
theorem setRowWritesAndSendsTheRow : Obligations.SetRowWritesAndSendsTheRow := by
  intro a r v
  refine ⟨decode_byteOperand v (b := false) (i := .setrow a r) (fun _ => .setrow) (.inl rfl) rfl,
    needsInit_of_isCommand rfl rfl,
    fun s hready => ⟨fun h => ?_, exec_setrow v hready⟩⟩
  exact exec_rejected hready (if_pos hready.2.1) fun hok => h (validAddr_and_validIdx.mp hok)

/-- Settles O36: the bit SETLED turns on is on already. -/
theorem fullRowStaysFullUnderSetLed : Obligations.FullRowStaysFullUnderSetLed := by
  intro s a r c hready ha hr hc
  have hfull : ledRow 0xFF c true = 0xFF := BitVec.allOnes_or
  obtain ⟨t, ht, hsent, -⟩ := exec_setrow 0xFF hready ha hr
  obtain ⟨u, hu, hread⟩ := execAll_setled_after true hready ha hr hc ht hsent
  rw [hfull] at hread
  exact ⟨⟨t, ht, hsent.2.1⟩, u, hu, hread⟩

/-! ### SETCOL -/

/-- Out of range the eight bodies are empty, so SETCOL's own check adds nothing to them (R185, R186). -/
theorem columnActs_rejected {s : State} {a c : Word} (v : Byte) (h : ¬ (AddrOk s.n a ∧ IdxOk c)) :
    columnActs s a c v = some [] := by
  have hrow (r : Nat) : ledActs s a (BitVec.ofNat 32 r) c (v.getLsbD (7 - r)) = some [] :=
    ledActs_invalid _ fun h' => h ⟨h'.1, h'.2.2⟩
  simp only [columnActs, hrow]
  rfl

theorem columnActs_checked (s : State) (a c : Word) (v : Byte) :
    (if validAddr s.n a && validIdx c then columnActs s a c v else some []) = columnActs s a c v := by
  split
  · rfl
  · next h => rw [columnActs_rejected v fun h' => h (validAddr_and_validIdx.mpr h')]

theorem actsOf_setcol {s : State} (hi : s.inited = true) (a c : Word) (v : Byte) :
    actsOf s (.setcol a c v) = columnActs s a c v := (if_pos hi).trans (columnActs_checked s a c v)

theorem exec_setcol_rejected {s : State} {a c : Word} (v : Byte) (hready : Ready s)
    (h : ¬ (AddrOk s.n a ∧ IdxOk c)) : exec (.setcol a c v) s = .next s :=
  exec_runActs hready ((actsOf_setcol hready.2.1 a c v).trans (columnActs_rejected v h))

/-- Settles O37: eight rows, each the old one with the column's bit written. -/
theorem setColWritesOneBitOfEveryRow : Obligations.SetColWritesOneBitOfEveryRow := by
  intro a c v
  refine ⟨decode_byteOperand v (b := false) (i := .setcol a c) (fun _ => .setcol) (.inl rfl) rfl,
    needsInit_of_isCommand rfl rfl,
    fun s hready => ⟨exec_setcol_rejected v hready, fun ha hc rows hrows => ?_⟩⟩
  exact exec_rows hready ha ((actsOf_setcol hready.2.1 a c v).trans (columnActs_valid v ha hc hrows))

/-- SETLED's body reads N, the opcodes and its own slot, and nothing else. -/
theorem ledActs_congr {s t : State} {a r c : Word} {on : Bool} (hn : t.n = s.n) (hcfg : t.cfg = s.cfg)
    (hread : t.shadow.read (slot a.toNat r.toNat).val = s.shadow.read (slot a.toNat r.toNat).val) :
    ledActs t a r c on = ledActs s a r c on := by
  rw [ledActs, ledActs, hn, hcfg, hread]

/-- So a SETLED of one row does not change the body of a SETLED of another (log 22). -/
theorem ledActs_of_other_row {s : State} {a c : Word} {r r' : Nat} {on on' : Bool} {acts : List Action} (hr : r < 8)
    (hr' : r' < 8) (hne : r' ≠ r) (h : ledActs s a (BitVec.ofNat 32 r) c on = some acts) :
    ledActs (runActs acts s) a (BitVec.ofNat 32 r') c on' = ledActs s a (BitVec.ofNat 32 r') c on' := by
  obtain rfl | ⟨ha, -, -, v, -, rfl⟩ := ledActs_cases h
  · rfl
  obtain ⟨⟨hlink, -, hothers, -⟩, -⟩ := rowSent_runActs (ledValue v c on) ha.toNat_lt hr
  rw [← toNat_ofNat_small hr] at hlink hothers
  have ha8 : a.toNat < 8 := Nat.lt_of_lt_of_le ha.toNat_lt (Nat.le_of_lt_succ s.n.isLt)
  refine ledActs_congr (by rw [hlink]) (by rw [hlink]) (hothers _ ?_)
  rw [toNat_ofNat_small hr, toNat_ofNat_small hr', slot_val ha8 hr']
  omega

/-- And it leaves the block ready, whether its operands are in range or not. -/
theorem ready_runActs_ledActs {s : State} {a r c : Word} {on : Bool} {acts : List Action} (hready : Ready s)
    (h : ledActs s a r c on = some acts) : Ready (runActs acts s) := by
  obtain rfl | ⟨ha, hr, -, v, -, rfl⟩ := ledActs_cases h
  · exact hready
  · obtain ⟨⟨hlink, -⟩, -⟩ := rowSent_runActs (ledValue v c on) ha.toNat_lt hr.toNat_lt
    exact OnlyLinkAndShadow.ready hlink hready

theorem exec_setled_eq {s : State} (hready : Ready s) (a r c : Word) (on : Bool) :
    exec (.setled a r c on) s = issueRead (ledActs s a r c on) s :=
  whenInited_ready hready.1 hready.2.1 _

theorem exec_setcol_eq {s : State} (hready : Ready s) (a c : Word) (v : Byte) :
    exec (.setcol a c v) s = issueRead (columnActs s a c v) s := by
  rw [exec, execSetcol, whenInited_ready hready.1 hready.2.1, columnActs_checked]

theorem issueRead_some {s : State} (hready : Ready s) (acts : List Action) :
    issueRead (some acts) s = .next (runActs acts s) := by
  rw [issueRead, issue_bigStep hready.2.2]

/-- SETLEDs of different rows one after the other have the outcome of their bodies joined, all read before the
first write: the stop at an unwritten row included (R186, log 22). -/
theorem execAll_setleds {a c : Word} (f : Nat → Bool) {l : List Nat} (hl : ∀ r ∈ l, r < 8) (hnodup : l.Nodup)
    {s : State} (hready : Ready s) :
    execAll (l.map fun r => .setled a (BitVec.ofNat 32 r) c (f r)) s =
      issueRead (joinActs (l.map fun r => ledActs s a (BitVec.ofNat 32 r) c (f r))) s := by
  induction l generalizing s with
  | nil => exact (issueRead_some hready []).symm
  | cons r l ih =>
    obtain ⟨hr, hl⟩ := List.forall_mem_cons.mp hl
    obtain ⟨hnotin, hnodup⟩ := List.nodup_cons.mp hnodup
    rw [List.map_cons, List.map_cons, execAll, exec_setled_eq hready]
    cases hacts : ledActs s a (BitVec.ofNat 32 r) c (f r) with
    | none => rfl
    | some acts =>
      have hready' := ready_runActs_ledActs hready hacts
      have hsame : (l.map fun r' => ledActs (runActs acts s) a (BitVec.ofNat 32 r') c (f r')) =
          l.map fun r' => ledActs s a (BitVec.ofNat 32 r') c (f r') :=
        List.map_congr_left fun r' hmem =>
          ledActs_of_other_row hr (hl r' hmem) (fun he => hnotin (he ▸ hmem)) hacts
      simp only [issueRead_some hready, ih hl hnodup hready', hsame, joinActs]
      cases joinActs (l.map fun r' => ledActs s a (BitVec.ofNat 32 r') c (f r')) with
      | none => rfl
      | some rest => rw [issueRead_some hready', issueRead_some hready, runActs_append]

/-- Settles O38: SETCOL issues the eight bodies joined, and so do the eight SETLEDs. -/
theorem setColIsEightSetLeds : Obligations.SetColIsEightSetLeds := by
  intro s a c v hready
  refine ⟨?_, fun h => ⟨exec_setcol_rejected v hready h,
    fun r b => exec_setled_rejected b hready fun h' => h ⟨h'.1, h'.2.2⟩⟩⟩
  rw [exec_setcol_eq hready, columnActs,
    ← execAll_setleds (fun r => v.getLsbD (7 - r)) (by decide) (by decide) hready]
  rfl

/-! ### SETDIGIT, SETCHAR -/

/-- The table's entry at an index inside it (R33). -/
theorem tableAt_eq {cfg : Config} {i : Byte} (h : i.toNat < 128) :
    tableAt cfg i = cfg.charTable.get ⟨i.toNat, h⟩ :=
  congrArg cfg.charTable.get (Fin.ext (Nat.mod_eq_of_lt h))

theorem validHexDigit_iff {v : Byte} : validHexDigit v = true ↔ v.toNat ≤ 15 := by
  rw [validHexDigit, decide_eq_true_eq]

/-- Settles O39: one row, the table's entry with its point. -/
theorem setDigitShowsTheTableEntry : Obligations.SetDigitShowsTheTableEntry := by
  intro a dg v dp
  have hcheck {n : Fin 9} : (validAddr n a && validIdx dg && validHexDigit v) = true ↔
      AddrOk n a ∧ IdxOk dg ∧ v.toNat ≤ 15 := by
    rw [Bool.and_eq_true, validAddr_and_validIdx, validHexDigit_iff, and_assoc]
  refine ⟨?_, needsInit_of_isCommand rfl rfl, fun s hready => ?_⟩
  · exact decode_byteOperand v (i := (.setdigit a dg · dp)) (fun _ => .setdigit) (.inr rfl) (by cases dp <;> rfl)
  have hacts : actsOf s (.setdigit a dg v dp) = _ := if_pos hready.2.1
  refine ⟨fun h => exec_rejected hready hacts fun hok => h (hcheck.mp hok), fun ha hdg hv h => ?_⟩
  rw [if_pos (hcheck.mpr ⟨ha, hdg, hv⟩), tableAt_eq h] at hacts
  exact exec_row hready ha hdg hacts

/-- `charpat` of a character inside the table, which draws nothing (R200). -/
theorem charPattern_low {cfg : Config} {ch : Byte} (h : ch.toNat < 128) :
    charDraws cfg ch = false ∧ ∀ draws, charPattern cfg draws ch = tableAt cfg ch := by
  have h127 : ch.toNat ≤ 127 := by omega
  exact ⟨by simp [charDraws, h127], fun _ => if_pos h127⟩

/-- A higher one under remap_first is the table's space (R200). -/
theorem charPattern_remapFirst {cfg : Config} {ch : Byte} (h : 128 ≤ ch.toNat) (ho : cfg.lookupOrder = .remapFirst) :
    charDraws cfg ch = false ∧ ∀ draws, charPattern cfg draws ch = tableAt cfg 32 := by
  have h127 : ¬ ch.toNat ≤ 127 := by omega
  exact ⟨by simp [charDraws, ho], fun _ => by rw [charPattern, if_neg h127, ho]⟩

theorem charDraws_sourceOrder {cfg : Config} {ch : Byte} (h : 128 ≤ ch.toNat) (ho : cfg.lookupOrder = .sourceOrder) :
    charDraws cfg ch = true := by
  have h127 : 127 < ch.toNat := by omega
  simp [charDraws, h127, ho]

/-- A draw advances the counter and does nothing else (R200, log 14). -/
theorem runActs_drawActs (ch : Byte) (s : State) : runActs (drawActs s.cfg ch) s =
    { s with draws := if charDraws s.cfg ch then s.draws + 1 else s.draws } := by
  unfold drawActs
  split <;> rfl

/-- SETCHAR in range: the draw, if there is one, and then one row (R201). -/
theorem exec_setchar {s : State} {a dg : Word} (ch : Byte) (dp : Bool) (hready : Ready s) (ha : AddrOk s.n a)
    (hdg : IdxOk dg) :
    ∃ t, exec (.setchar a dg ch dp) s = .next t ∧
      RowSent { s with draws := if charDraws s.cfg ch then s.draws + 1 else s.draws } t a.toNat dg.toNat
        (pointed (charPattern s.cfg s.draws ch) dp) ∧
      t.emitted.length = s.emitted.length + (2 + 48 * s.n.val) := by
  have hacts : actsOf s (.setchar a dg ch dp) = _ := if_pos hready.2.1
  rw [if_pos (validAddr_and_validIdx.mpr ⟨ha, hdg⟩)] at hacts
  refine ⟨_, exec_runActs hready hacts, ?_⟩
  rw [runActs_append, runActs_drawActs]
  exact rowSent_runActs (s := { s with draws := _ }) _ ha.toNat_lt hdg.toNat_lt

/-- Settles O40, by the cases of `charpat`. -/
theorem setCharShowsTheCharacter : Obligations.SetCharShowsTheCharacter := by
  intro a dg ch dp
  refine ⟨?_, needsInit_of_isCommand rfl rfl, fun s hready => ⟨fun h => ?_, fun ha hdg => ?_⟩⟩
  · exact decode_byteOperand ch (i := (.setchar a dg · dp)) (fun _ => .setchar) (.inr rfl) (by cases dp <;> rfl)
  · exact exec_rejected hready (if_pos hready.2.1) fun hok => h (validAddr_and_validIdx.mp hok)
  obtain ⟨t, ht, hsent, hlength⟩ := exec_setchar ch dp hready ha hdg
  refine ⟨t, ht, hlength, fun h => ?_, fun h ho => ?_, fun h ho => ?_⟩
  · obtain ⟨hdraws, hpattern⟩ := charPattern_low (cfg := s.cfg) h
    rw [hdraws, hpattern, tableAt_eq h] at hsent
    exact hsent
  · obtain ⟨hdraws, hpattern⟩ := charPattern_remapFirst h ho
    rw [hdraws, hpattern] at hsent
    exact hsent
  · rw [charDraws_sourceOrder h ho] at hsent
    exact ⟨_, hsent⟩

/-- Settles O41: up to 15 SETDIGIT's own check passes and SETCHAR draws nothing. -/
theorem setDigitAgreesWithSetChar : Obligations.SetDigitAgreesWithSetChar := by
  intro s a dg v dp hv
  obtain ⟨hdraws, hpattern⟩ := charPattern_low (cfg := s.cfg) (ch := v) (by omega)
  have hnothing : drawActs s.cfg v = [] := if_neg (by rw [hdraws]; exact Bool.false_ne_true)
  rw [exec, exec, execSetdigit, execSetchar, validHexDigit_iff.mpr hv, Bool.and_true, hpattern, hnothing,
    List.nil_append]

end Sys2Proof.Machine
end

section
/-! SUPPORT. The exceptions (R210 to R216): the step of a block that takes a command, the four faults with what they
leave alone, and the operands that are ignored. -/

namespace Sys2Proof.Machine

/-! ### Taking a command (R90, R216) -/

/-- An idle block takes the host's next word: it runs the instruction the word decodes to, or takes the decoder's
fault (R95, R216). -/
theorem step_command {s : State} {w : CommandWord} {ws : List CommandWord} (hf : s.fault = none) (hs : s.seq = .idle)
    (hw : s.host = w :: ws) :
    (∀ i, decode w = .ok i → step s = exec i { s with host := ws }) ∧
      ∀ e, decode w = .error e → step s = takeReserved { s with host := ws } := by
  have htake : takeCommand s = { s with host := ws } := by rw [takeCommand, hw, List.tail_cons]
  have hnext : pendingCommand s = some w := by rw [pendingCommand, hw, List.head?_cons]
  constructor <;> intro _ hd <;> simp only [step, hf, hs, hnext, hd, htake]

/-- Settles O5, by the step of a block that takes a command. -/
theorem stepRunsTheDecodedInstruction : Obligations.StepRunsTheDecodedInstruction := by
  intro s w ws i hf hs hw hd
  exact (step_command hf hs hw).1 i hd

/-! ### The decoder's faults (R213, R214) -/

/-- On a live block the two illegal rows take their fault, before the initialisation check (R213, R216). -/
theorem exec_illegal {s : State} (w : CommandWord) (hl : Live s) :
    exec (.illegalZero w) s = .next (raise .illegalCommand s) ∧
      exec (.illegalHigh w) s = .next (raise .illegalCommand s) :=
  ⟨whenLive_live hl _, whenLive_live hl _⟩

/-- On a live block a rejected word takes its fault, before the initialisation check (R214, R216). -/
theorem takeReserved_live {s : State} (hl : Live s) : takeReserved s = .next (raise .reservedField s) :=
  whenLive_live hl _

/-- Settles O7: an illegal CODE decodes to its illegal row whatever the other bits are. -/
theorem illegalCodesTakeIllegalCommand : Obligations.IllegalCodesTakeIllegalCommand := by
  refine ⟨fun s w ws hl hw hcode => ?_, fun s w hl => exec_illegal w hl⟩
  obtain ⟨hrun, -⟩ := step_command hl.2.1 hl.2.2 hw
  obtain ⟨hzero, hhigh⟩ := exec_illegal (s := { s with host := ws }) w hl
  rcases hcode with h | h
  · rw [hrun _ (decode_illegalZero h), hzero, raise]
  · rw [hrun _ (decode_illegalHigh h), hhigh, raise]

/-- Settles O8: a word with a reserved field that is not clear decodes to no instruction. -/
theorem reservedFieldsTakeReservedField : Obligations.ReservedFieldsTakeReservedField := by
  intro s w ws hl hw hr
  obtain ⟨-, -, hreject, -⟩ := decoderFollowsTheCodeTable w
  obtain ⟨-, htake⟩ := step_command hl.2.1 hl.2.2 hw
  rw [htake _ (hreject hr), takeReserved_live (s := { s with host := ws }) hl, raise]

/-! ### The initialisation faults (R212) -/

/-- Settles O9: the two prologues, each on the side where it faults. -/
theorem initialisationFaults : Obligations.InitialisationFaults :=
  ⟨fun _ hc hn => needsInit_of_isCommand hc hn, fun _ _ hl hi => whenNotInited_ready hl hi _⟩

/-! ### Faults are precise and terminal (R27, R215) -/

/-- A running command raises no fault (R28). -/
theorem resume_fault (l : List Action) (s : State) : (resume l s).fault = s.fault := by
  cases l with
  | nil => rfl
  | cons a rest => rw [resume_cons, (settle_keeps rest (act a s)).2.1, (act_keeps a s).2.1]

/-- A step into a fault takes a command word and raises that fault, and does nothing else (R215). -/
theorem step_raises {s t : State} {r : FaultReason} (h : step s = .next t) (ht : t.fault = some r) :
    s.seq = .idle ∧ t = raise r (takeCommand s) := by
  obtain ⟨hf, ⟨rest, -, rfl⟩ | ⟨-, -, rfl⟩ | ⟨w, i, hs, -, hd, he⟩ | ⟨w, hs, -, -, rfl⟩⟩ := step_cases h
  · rw [resume_fault, hf] at ht
    cases ht
  · rw [hf] at ht
    cases ht
  · obtain ⟨-, ⟨acts, -, rfl⟩ | ⟨r', rfl⟩⟩ := exec_cases (decode_spells hd).1 he
    · rw [(issue_keeps acts _).2.1, takeCommand_fault, hf] at ht
      cases ht
    · cases ht
      exact ⟨hs, rfl⟩
  · cases ht
    exact ⟨hs, rfl⟩

theorem step_faulted {s : State} {r : FaultReason} (hf : s.fault = some r) : step s = .fault (.halted r) := by
  rw [step, hf]

/-- Settles O10: every step into a fault is a raise, and a faulted block gets no further. -/
theorem faultsArePreciseAndTerminal : Obligations.FaultsArePreciseAndTerminal :=
  ⟨fun _ _ _ _ h ht => step_raises h ht, fun _ _ hf => ⟨step_faulted hf, fun _ hp hw => exec_faulted hp hf hw⟩⟩

/-! ### Operands out of range (R210) -/

/-- A command with nothing to do leaves the whole state as it was, in either view (R28, R210). -/
theorem exec_noActs {s : State} {i : Instr} (hl : Live s) (hacts : actsOf s i = some []) : exec i s = .next s := by
  rw [exec_issues hl hacts, issue_nil hl.2.2]

/-- So does a command whose check fails. -/
theorem exec_ignored {s : State} {i : Instr} {ok : Bool} {acts : List Action} (hl : Live s)
    (hacts : actsOf s i = some (if ok then acts else [])) (h : ¬ ok = true) : exec i s = .next s :=
  exec_noActs hl (by rw [hacts, if_neg h])

/-- A register write to a device outside the chain is ignored, whatever the range guard says (R140, R210). -/
theorem exec_register_ignored {s : State} {i : Instr} {a : Word} {ok : Bool} {adr : BitVec 4} {d : Byte}
    (hl : Live s) (hacts : actsOf s i = some (registerActs s.n a ok adr d)) (ha : ¬ AddrOk s.n a) :
    exec i s = .next s :=
  exec_noActs hl (by rw [hacts, registerActs_rejected adr d fun h => ha h.1])

/-- Settles O12: each command's check leaves it nothing to do. -/
theorem outOfRangeOperandsAreIgnored : Obligations.OutOfRangeOperandsAreIgnored := by
  intro s a x y v b hl hi
  refine ⟨fun ha => ⟨?_, ?_, ?_, ?_⟩, fun h => ?_, fun h => ⟨?_, ?_, ?_⟩, fun h => ?_⟩
  · exact exec_register_ignored hl (if_pos hi) ha
  · exact exec_register_ignored hl (if_pos hi) ha
  · exact exec_register_ignored hl (if_pos hi) ha
  · exact exec_ignored hl (if_pos hi) (ha ∘ validAddr_iff.mp)
  · exact exec_noActs hl ((actsOf_setled hi a x y b).trans (ledActs_invalid b h))
  · exact exec_ignored hl (if_pos hi) (h ∘ validAddr_and_validIdx.mp)
  · exact exec_noActs hl ((actsOf_setcol hi a x v).trans (columnActs_rejected v h))
  · exact exec_ignored hl (if_pos hi) (h ∘ validAddr_and_validIdx.mp)
  · refine exec_ignored hl (if_pos hi) fun hok => h ?_
    rw [Bool.and_eq_true, validAddr_and_validIdx, validHexDigit_iff, and_assoc] at hok
    exact hok

end Sys2Proof.Machine
end

section
/-! SUPPORT. The chips and the platform's levels never reach the block (R34, R253). -/

namespace Sys2Proof.Machine

/-- The second state is the first but for its chips and for the platform's levels, which are `ln`. -/
abbrev SameBlock (ln : Lines) (s u : State) : Prop := ∃ ch, u = { s with chain := ch, line := ln }

/-- Two outcomes of the same kind, with the same reason or with states that hold the same block. -/
inductive SameOutcome (ln : Lines) :
    Host.Outcome State Fault Refusal → Host.Outcome State Fault Refusal → Prop
  | next {t u : State} (h : SameBlock ln t u) : SameOutcome ln (.next t) (.next u)
  | fault (r : Fault) : SameOutcome ln (.fault r) (.fault r)
  | refused (r : Refusal) : SameOutcome ln (.refused r) (.refused r)

section
variable {ln : Lines} {s u : State}

/-! ### Running actions -/

/-- An action reads chips and platform levels into the chips alone: a pin write hands its edges to them and takes
nothing back. -/
theorem SameBlock.act (a : Action) (h : SameBlock ln s u) : SameBlock ln (act a s) (act a u) := by
  obtain ⟨ch, rfl⟩ := h
  cases a <;> exact ⟨_, rfl⟩

theorem SameBlock.runActs (l : List Action) (h : SameBlock ln s u) : SameBlock ln (runActs l s) (runActs l u) := by
  induction l generalizing s u with
  | nil => exact h
  | cons a l ih => exact ih (h.act a)

theorem SameBlock.setSeq (q : Seq) (h : SameBlock ln s u) : SameBlock ln { s with seq := q } { u with seq := q } := by
  obtain ⟨ch, rfl⟩ := h
  exact ⟨ch, rfl⟩

theorem SameBlock.settle (l : List Action) (h : SameBlock ln s u) : SameBlock ln (settle l s) (settle l u) := by
  induction l generalizing s u with
  | nil => exact h.setSeq .idle
  | cons a l ih =>
    rw [Machine.settle, Machine.settle]
    split
    · exact ih (h.act a)
    · exact h.setSeq _

theorem SameBlock.resume (l : List Action) (h : SameBlock ln s u) : SameBlock ln (resume l s) (resume l u) := by
  cases l with
  | nil => exact h.setSeq .idle
  | cons a l => exact (h.act a).settle l

theorem SameBlock.view (h : SameBlock ln s u) : u.view = s.view := by
  obtain ⟨ch, rfl⟩ := h
  rfl

theorem SameBlock.issue (l : List Action) (h : SameBlock ln s u) : SameBlock ln (issue l s) (issue l u) := by
  rw [Machine.issue, Machine.issue, h.view]
  split
  · exact h.runActs l
  · exact h.settle l

theorem SameBlock.raise (r : FaultReason) (h : SameBlock ln s u) : SameBlock ln (raise r s) (raise r u) := by
  obtain ⟨ch, rfl⟩ := h
  exact ⟨ch, rfl⟩

theorem SameOutcome.issueRead (acts : Option (List Action)) (h : SameBlock ln s u) :
    SameOutcome ln (issueRead acts s) (issueRead acts u) := by
  cases acts with
  | some l => exact .next (h.issue l)
  | none => exact .fault _

/-! ### The prologue -/

variable {k k' : Host.Outcome State Fault Refusal}

/-- The prologue looks at PINS, fault and sequencer alone (R29, R32, R215). -/
theorem SameOutcome.whenLive (h : SameBlock ln s u) (hk : SameOutcome ln k k') :
    SameOutcome ln (whenLive s k) (whenLive u k') := by
  obtain ⟨ch, rfl⟩ := h
  unfold Machine.whenLive
  dsimp only
  split
  · split
    · exact .fault _
    · split
      · exact .fault _
      · exact hk
  · exact .refused _

theorem SameBlock.inited (h : SameBlock ln s u) : u.inited = s.inited := by
  obtain ⟨ch, rfl⟩ := h
  rfl

theorem SameOutcome.whenInited (h : SameBlock ln s u) (hk : SameOutcome ln k k') :
    SameOutcome ln (whenInited s k) (whenInited u k') := by
  refine .whenLive h ?_
  rw [h.inited]
  split
  · exact hk
  · exact .next (h.raise _)

theorem SameOutcome.whenNotInited (h : SameBlock ln s u) (hk : SameOutcome ln k k') :
    SameOutcome ln (whenNotInited s k) (whenNotInited u k') := by
  refine .whenLive h ?_
  rw [h.inited]
  split
  · exact .next (h.raise _)
  · exact hk

end

/-! ### One instruction, one step -/

/-- An instruction's checks and actions are computed from the block's record; a chip's own row writes a chip. -/
theorem exec_sameOutcome (i : Instr) {ln : Lines} {s u : State} (h : SameBlock ln s u) :
    SameOutcome ln (exec i s) (exec i u) := by
  have h' := h
  obtain ⟨ch, rfl⟩ := h
  cases i
  case init => exact .whenNotInited h' (.next (h'.issue _))
  case setled | setcol => exact .whenInited h' (.issueRead _ h')
  case getcount | shutdown | scanlimit | intensity | clear | setrow | setdigit | setchar =>
    exact .whenInited h' (.next (h'.issue _))
  case illegalZero | illegalHigh => exact .whenLive h' (.next (h'.raise _))
  case shiftout => exact .whenLive h' (.next (h'.issue _))
  case xfer =>
    refine .whenLive h' ?_
    dsimp only
    split
    · exact .next (h'.issue _)
    · exact .refused _
  all_goals exact .next ⟨_, rfl⟩

theorem takeCommand_sameBlock {ln : Lines} {s u : State} (h : SameBlock ln s u) :
    SameBlock ln (takeCommand s) (takeCommand u) := by
  obtain ⟨ch, rfl⟩ := h
  exact ⟨ch, rfl⟩

/-- Which of its cases a step takes is the block's and the host's matter. -/
theorem step_sameOutcome {ln : Lines} {s u : State} (h : SameBlock ln s u) : SameOutcome ln (step s) (step u) := by
  have htake := takeCommand_sameBlock h
  have hresume (l : List Action) := h.resume l
  have hself := h
  obtain ⟨ch, rfl⟩ := h
  rw [step, step, show pendingCommand { s with chain := ch, line := ln } = pendingCommand s from rfl]
  dsimp only
  split
  · exact .fault _
  · split
    · exact .next (hresume _)
    · split
      · exact .next hself
      · split
        · exact exec_sameOutcome _ htake
        · exact .whenLive htake (.next (htake.raise _))

/-- Settles O43: a step from states with the same block gives the same outcome. -/
theorem traceDoesNotDependOnTheChips : Obligations.TraceDoesNotDependOnTheChips := by
  intro s ch ln
  have h := step_sameOutcome (ln := ln) (s := s) ⟨ch, rfl⟩
  generalize step s = x, step { s with chain := ch, line := ln } = y at h ⊢
  cases h with
  | next h => exact h
  | fault r => rfl
  | refused r => rfl

end Sys2Proof.Machine
end

section
/-! SUPPORT. INIT with CS left low: its first write latches whatever the shift registers hold (R252, R256). -/

namespace Sys2Proof.Machine

theorem initRegister_zero {k : Nat} (h : k = 0xF ∨ k = 0x9 ∨ k = 0xC ∨ (1 ≤ k ∧ k ≤ 8)) :
    initRegister k = some 0x00 := by
  rcases h with rfl | rfl | rfl | ⟨h1, h8⟩
  · rfl
  · rfl
  · rfl
  · exact initRegister_row h1 h8

theorem initRegister_unwritten {k : Nat} (h : ¬ (k = 0xF ∨ k = 0x9 ∨ k = 0xC ∨ (1 ≤ k ∧ k ≤ 8))) (hlimit : k ≠ 0xB) :
    initRegister k = none := by
  rw [initRegister, if_neg (by omega), if_neg hlimit, if_neg (by omega), if_neg (by omega), if_neg (by omega)]

/-- Settles O27: INIT's first write, CS high, is an edge and every device latches its stray word; the transfers then
write INIT's registers over it. -/
theorem initWithChipSelectLowLatchesStrayWords : Obligations.InitWithChipSelectLowLatchesStrayWords := by
  intro s n hfresh hpin hline ho
  refine ⟨_, exec_init n hfresh, fun hlen d k c hc => ?_⟩
  have hpos := clampN_pos n
  rw [runActs_init_n _ s hpos] at hlen
  have hclk : ClkLow s := by
    rw [ClkLow, hpin, hline]
    rfl
  have hedge : chainAfter .cs .high s = s.chain.map Chip.latch := by
    rw [chainAfter_csHigh, hpin, hline]
    rfl
  have hd : d < (clampN n).val := hlen ▸ (List.getElem?_eq_some_iff.mp hc).1
  obtain ⟨-, -, -, -, -, hchips⟩ := runActs_init s.cfg.opcodes (clampN n) s hpos
  rw [devReg_eq, (hchips hclk hlen).2 ho, if_pos hd, hedge, chainReg_map_latch k hc, ← devReg_eq]
  by_cases hzero : k = 0xF ∨ k = 0x9 ∨ k = 0xC ∨ (1 ≤ k ∧ k ≤ 8)
  · rw [if_pos hzero, initRegister_zero hzero, Option.some_or]
  rw [if_neg hzero]
  by_cases hlimit : k = 0xB
  · rw [if_pos hlimit, hlimit]
    rfl
  · rw [if_neg hlimit, initRegister_unwritten hzero hlimit, Option.none_or]
    simp only [and_comm, eq_comm]

end Sys2Proof.Machine
end

section
/-! SUPPORT. How many events a command's actions emit (R262), and what they have done to the shadow after k of them
(R257). -/

namespace Sys2Proof.Machine

/-! ### The events of action lists -/

theorem eventsOf_append (l m : List Action) : eventsOf (l ++ m) = eventsOf l ++ eventsOf m := List.filterMap_append

/-- XFER emits `E(N)` events (R127). -/
theorem xferActs_events {n a : Nat} (op d : Byte) (h : a < n) :
    (eventsOf (xferActs n a op d)).length = xferLength n := by
  rw [eventsOf, events_xfer op d h, xferEvents_length]

/-- So does a row: its shadow write emits nothing. -/
theorem rowActs_events (o : Opcodes) {n a : Nat} (r : Nat) (v : Byte) (h : a < n) :
    (eventsOf (rowActs o n a r v)).length = xferLength n := by
  rw [rowActs, eventsOf_silent rfl, xferActs_events _ v h]

theorem rowsActs_events (o : Opcodes) {n a : Nat} (f : Nat → Byte) (m : Nat) (h : a < n) :
    (eventsOf (rowsActs o n a f m)).length = m * xferLength n := by
  induction m with
  | zero => rw [Nat.zero_mul]; rfl
  | succ m ih => rw [rowsActs_succ, eventsOf_append, List.length_append, ih, rowActs_events o m _ h, Nat.succ_mul]

theorem drawActs_events (cfg : Config) (ch : Byte) : eventsOf (drawActs cfg ch) = [] := by
  rw [drawActs]
  split <;> rfl

/-- INIT's events, the same from every state, so read off from one (R141). -/
theorem initActs_events (o : Opcodes) {n : Fin 9} (h : 1 ≤ n.val) : eventsOf (initActs o n) =
    .pinWrite .cs .high :: (List.range n.val).flatMap (initDeviceEvents o n.val) := by
  obtain ⟨-, -, hemitted, -⟩ := runActs_init o n State.reset h
  rw [runActs_emitted, List.append_cancel_right_eq, List.reverse_inj] at hemitted
  exact hemitted

/-- A list under a check emits its events where the check passes and none where it fails. -/
theorem guarded_events {ok : Bool} {P : Prop} [Decidable P] {acts : List Action} {m : Nat} (hok : ok = true ↔ P)
    (h : P → (eventsOf acts).length = m) :
    (eventsOf (if ok then acts else [])).length = if P then m else 0 := by
  by_cases hP : P
  · rw [if_pos (hok.mpr hP), if_pos hP, h hP]
  · rw [if_neg (mt hok.mp hP), if_neg hP]
    rfl

theorem registerActs_events {n : Fin 9} {a : Word} {ok : Bool} {P : Prop} [Decidable P] (adr : BitVec 4) (d : Byte)
    (hok : ok = true ↔ P) :
    (eventsOf (registerActs n a ok adr d)).length = if AddrOk n a ∧ P then xferLength n.val else 0 :=
  guarded_events (by rw [Bool.and_eq_true, validAddr_iff, hok]) fun h => xferActs_events _ d h.1.toNat_lt

theorem ledActs_events {s : State} {a r c : Word} {on : Bool} {acts : List Action}
    (h : ledActs s a r c on = some acts) :
    (eventsOf acts).length = if AddrOk s.n a ∧ IdxOk r ∧ IdxOk c then xferLength s.n.val else 0 := by
  split
  · next hv =>
    obtain ⟨ha, hr, hc⟩ := hv
    cases hread : s.shadow.read (8 * a.toNat + r.toNat) with
    | none =>
      rw [ledActs_unwritten on ha hr hc hread] at h
      cases h
    | some v =>
      rw [ledActs_valid on ha hr hc hread] at h
      rw [← Option.some.inj h, rowActs_events _ _ _ ha.toNat_lt]
  · next hv =>
    rw [ledActs_invalid on hv] at h
    rw [← Option.some.inj h]
    rfl

theorem columnActs_events {s : State} {a c : Word} {v : Byte} {acts : List Action}
    (h : columnActs s a c v = some acts) :
    (eventsOf acts).length = if AddrOk s.n a ∧ IdxOk c then 8 * xferLength s.n.val else 0 := by
  split
  · next hv =>
    obtain ⟨rows, -, rfl⟩ := columnActs_cases hv.1 hv.2 h
    exact rowsActs_events _ _ 8 hv.1.toNat_lt
  · next hv =>
    rw [columnActs_rejected v hv] at h
    rw [← Option.some.inj h]
    rfl

/-! ### R262's table -/

/-- The clamped chain length as the table writes it (R142). -/
theorem clampN_val (n : Word) : (clampN n).val = if n.toInt ≤ 0 ∨ 8 < n.toInt then 8 else n.toNat := by
  have h := clampN_toInt n
  split at h
  · next hout => rw [if_pos hout]; omega
  · next hin =>
    rw [if_neg hin]
    rw [BitVec.toInt_eq_toNat_cond] at h hin
    split at h <;> omega

/-- Every command's actions emit the events of its row of the table. -/
theorem actsOf_events {s : State} {i : Instr} {acts : List Action} (hc : isCommand i = true)
    (h : actsOf s i = some acts) : (eventsOf acts).length = eventCount s i := by
  cases i
  case init n =>
    obtain ⟨hi, h⟩ := Option.ite_none_left_eq_some.mp h
    rw [eventCount, if_neg hi, ← Option.some.inj h, initActs_events _ (clampN_pos n), initEvents_total_length,
      clampN_val]
    split <;> rfl
  case getcount =>
    obtain ⟨-, h⟩ := Option.ite_none_right_eq_some.mp h
    rw [← Option.some.inj h]
    rfl
  all_goals first | exact absurd hc Bool.false_ne_true | replace h := (Option.ite_none_right_eq_some.mp h).2
  case setled a r c on => exact ledActs_events h
  case setcol a c v => exact columnActs_events ((columnActs_checked s a c v).symm.trans h)
  all_goals rw [← Option.some.inj h]
  case shutdown a enable =>
    exact guarded_events (by rw [Bool.and_true, validAddr_iff]) fun ha => xferActs_events _ _ ha.toNat_lt
  case scanlimit a l => exact registerActs_events _ _ (guardOk_iff (by decide))
  case intensity a l => exact registerActs_events _ _ (guardOk_iff (by decide))
  case clear a => exact guarded_events validAddr_iff fun ha => rowsActs_events _ _ 8 ha.toNat_lt
  case setrow a r v => exact guarded_events validAddr_and_validIdx fun h => rowActs_events _ _ _ h.1.toNat_lt
  case setdigit a dg v dp =>
    refine guarded_events ?_ fun h => rowActs_events _ _ _ h.1.toNat_lt
    rw [Bool.and_eq_true, validAddr_and_validIdx, validHexDigit_iff, and_assoc]
  case setchar a dg ch dp =>
    refine guarded_events validAddr_and_validIdx fun h => ?_
    rw [eventsOf_append, drawActs_events, List.nil_append, rowActs_events _ _ _ h.1.toNat_lt]

theorem wireTarget_of_isCommand {i : Instr} (h : isCommand i = true) : wireTarget i = none := by
  cases i <;> first | rfl | exact absurd h Bool.false_ne_true

/-- A command that takes a fault after INIT, or an INIT that takes one, is an INIT again, and the table counts no
event for it (R212, R262). -/
theorem eventCount_of_raise {s : State} {i : Instr} {r : FaultReason} (hl : Live s) (hc : isCommand i = true)
    (hstate : s.inited = true ∨ isInit i = true) (h : exec i s = .next (raise r s)) : eventCount s i = 0 := by
  rcases exec_no_acts_cases hl (wireTarget_of_isCommand hc) (actsOf_eq_none_of_raise hl h) h with
    ⟨w, rfl | rfl⟩ | ⟨n, rfl, hi⟩ | ⟨-, hn, hi⟩
  · cases hc
  · cases hc
  · exact if_pos hi
  · rw [hn, hi] at hstate
    simp at hstate

/-- Settles O42: the actions emit the table's events, and a fault emits none. -/
theorem eventCountsOfTheTable : Obligations.EventCountsOfTheTable := by
  intro s t i hc hstate h
  obtain ⟨hl, ⟨acts, hacts, rfl⟩ | ⟨r, rfl⟩⟩ := exec_cases (wireTarget_of_isCommand hc) h
  · have hview : s.view = .bigStep := by
      rcases hstate with hready | ⟨hfresh, -⟩
      · exact hready.2.2
      · exact hfresh.2.2
    rw [issue_bigStep hview, runActs_emitted, List.length_append, List.length_reverse, Nat.add_comm,
      ← actsOf_events hc hacts]
  · rw [eventCount_of_raise hl hc (hstate.imp (fun hready => hready.2.1) fun hinit => hinit.2) h]
    rfl

/-! ### The shadow in the middle of a command (R257) -/

/-- An action other than a shadow write. -/
abbrev NoShadowWrite (a : Action) : Prop := ∀ j v, a ≠ .writeShadow j v

theorem runActs_noShadowWrite {l : List Action} (h : ∀ x ∈ l, NoShadowWrite x) (s : State) :
    (runActs l s).shadow = s.shadow := by
  induction l generalizing s with
  | nil => rfl
  | cons a l ih =>
    rw [runActs_cons, ih fun x hx => h x (List.mem_cons_of_mem _ hx)]
    cases a with
    | writeShadow j v => exact absurd rfl (h _ List.mem_cons_self j v)
    | _ => rfl

theorem runActs_firstActs_noShadowWrite {l : List Action} (h : ∀ x ∈ l, NoShadowWrite x) (k : Nat) (s : State) :
    (runActs (firstActs k l) s).shadow = s.shadow :=
  runActs_noShadowWrite (fun x hx => h x (mem_of_mem_firstActs hx)) s

theorem noShadowWrite_of_link {l : List Action} (h : l.all isLink = true) : ∀ x ∈ l, NoShadowWrite x := by
  rintro _ hx j v rfl
  cases List.all_eq_true.mp h _ hx

/-- All of a command's shadow writes come before its first event. -/
def WritesFirst (l : List Action) : Prop :=
  ∃ pre post, l = pre ++ post ∧ eventsOf pre = [] ∧ ∀ x ∈ post, NoShadowWrite x

/-- Such a command's shadow is the last one after any number of its events (log 13). -/
theorem WritesFirst.shadow {l : List Action} (h : WritesFirst l) (k : Nat) (s : State) :
    (runActs (firstActs k l) s).shadow = (runActs l s).shadow := by
  obtain ⟨pre, post, rfl, hpre, hpost⟩ := h
  rw [firstActs_append, hpre, List.length_nil, if_neg (Nat.not_lt_zero k), runActs_append, runActs_append,
    runActs_firstActs_noShadowWrite hpost, runActs_noShadowWrite hpost]

theorem writesFirst_of_noShadowWrite {l : List Action} (h : ∀ x ∈ l, NoShadowWrite x) : WritesFirst l :=
  ⟨[], l, rfl, rfl, h⟩

theorem writesFirst_nil : WritesFirst [] := writesFirst_of_noShadowWrite (by simp)

theorem WritesFirst.guarded {l : List Action} (ok : Bool) (h : WritesFirst l) : WritesFirst (if ok then l else []) := by
  split
  · exact h
  · exact writesFirst_nil

theorem writesFirst_xfer (n a : Nat) (op d : Byte) : WritesFirst (xferActs n a op d) :=
  writesFirst_of_noShadowWrite (noShadowWrite_of_link (xferActs_link n a op d))

/-- One row is written before it is transmitted (R170). -/
theorem writesFirst_row {pre : List Action} (hpre : eventsOf pre = []) (o : Opcodes) (n a r : Nat) (v : Byte) :
    WritesFirst (pre ++ rowActs o n a r v) :=
  ⟨pre ++ [.writeShadow (slot a r) v], xferActs n a (digitByte o r) v, by rw [List.append_assoc]; rfl,
    by rw [eventsOf_append, hpre]; rfl, noShadowWrite_of_link (xferActs_link n a _ v)⟩

/-- On an initialised block every instruction but CLEAR and SETCOL writes at most one row, and that one first. -/
theorem actsOf_writesFirst {s : State} {i : Instr} {acts : List Action} (hi : s.inited = true)
    (hone : ∀ a : Word, i ≠ .clear a ∧ ∀ c w, i ≠ .setcol a c w) (h : actsOf s i = some acts) :
    WritesFirst acts := by
  cases i <;> simp only [actsOf, hi, if_true, reduceCtorEq, Option.some.injEq] at h
  case clear a => exact absurd rfl (hone a).1
  case setcol a c v => exact absurd rfl ((hone a).2 c v)
  case setled a r c on =>
    rcases ledActs_cases h with rfl | ⟨-, -, -, v, -, rfl⟩
    · exact writesFirst_nil
    · exact writesFirst_row (pre := []) rfl _ _ _ _ _
  case xfer a op d =>
    obtain rfl := Option.some.inj (Option.ite_none_right_eq_some.mp h).2
    exact writesFirst_xfer _ _ _ _
  all_goals subst h
  case getcount => exact writesFirst_of_noShadowWrite (by simp [NoShadowWrite])
  case shutdown | scanlimit | intensity => exact (writesFirst_xfer _ _ _ _).guarded _
  case setrow | setdigit => exact (writesFirst_row (pre := []) rfl _ _ _ _ _).guarded _
  case setchar => exact (writesFirst_row (drawActs_events _ _) _ _ _ _ _).guarded _
  case shiftout m v => exact writesFirst_of_noShadowWrite (noShadowWrite_of_link (shiftOutActs_link m v))

/-! ### CLEAR and SETCOL row by row (R257) -/

/-- A row's shadow write comes before its first event (R170, log 13). -/
theorem runActs_firstActs_row_shadow (o : Opcodes) (n : Nat) {a r : Nat} (v : Byte) (k : Nat) (s : State) (ha : a < 8)
    (hr : r < 8) : (runActs (firstActs k (rowActs o n a r v)) s).shadow = s.shadow.write (8 * a + r) v := by
  have hrow : WritesFirst (rowActs o n a r v) := writesFirst_row (pre := []) rfl o n a r v
  rw [hrow.shadow, rowActs, runActs_cons, runActs_noShadowWrite (noShadowWrite_of_link (xferActs_link _ _ _ _)),
    act_writeShadow_shadow, slot_val ha hr]

/-- After k events of several rows, row r holds its new value when the r rows before it are all out, `r E(N)`
events, and its old one until then. -/
theorem runActs_firstActs_rows_shadow (o : Opcodes) {n a m : Nat} (f : Nat → Byte) (k : Nat) (s : State) (h : a < n)
    (hn : n ≤ 8) (hm : m ≤ 8) (j : Nat) :
    (runActs (firstActs k (rowsActs o n a f m)) s).shadow.read j =
      if 8 * a ≤ j ∧ j < 8 * a + m ∧ (j - 8 * a) * xferLength n ≤ k then some (f (j - 8 * a))
      else s.shadow.read j := by
  induction m with
  | zero =>
    rw [if_neg (by omega)]
    cases k <;> rfl
  | succ m ih =>
    rw [rowsActs_succ, firstActs_append, rowsActs_events o f m h]
    by_cases hk : k < m * xferLength n
    · rw [if_pos hk, ih (by omega)]
      by_cases hj : j = 8 * a + m
      · subst hj
        rw [if_neg (by omega), if_neg (by rw [Nat.add_sub_cancel_left]; omega)]
      · congr 1
        exact propext (by omega)
    · have hout (hj : j < 8 * a + (m + 1)) : (j - 8 * a) * xferLength n ≤ k :=
        Nat.le_trans (Nat.mul_le_mul_right _ (by omega)) (Nat.le_of_not_lt hk)
      obtain ⟨-, hread, -⟩ := runActs_rows o f s h hn (m := m) (by omega)
      rw [if_neg hk, runActs_append, runActs_firstActs_row_shadow o n _ _ _ (by omega) (by omega), Memory.read_write,
        hread]
      by_cases hj : j = 8 * a + m
      · subst hj
        rw [if_pos rfl, if_pos ⟨by omega, by omega, hout (by omega)⟩, Nat.add_sub_cancel_left]
      · rw [if_neg hj]
        by_cases hin : 8 * a ≤ j ∧ j < 8 * a + m
        · rw [if_pos hin, if_pos ⟨hin.1, by omega, hout (by omega)⟩]
        · rw [if_neg hin, if_neg (by omega)]

/-- The same against the rows' end: a row holds its old value while earlier rows are still being sent. -/
theorem rows_shadow_between (o : Opcodes) {n a : Nat} (f : Nat → Byte) (k : Nat) (s : State) (h : a < n)
    (hn : n ≤ 8) (j : Nat) :
    (runActs (firstActs k (rowsActs o n a f 8)) s).shadow.read j =
      if 8 * a ≤ j ∧ j < 8 * a + 8 ∧ k < (j - 8 * a) * xferLength n then s.shadow.read j
      else (runActs (rowsActs o n a f 8) s).shadow.read j := by
  obtain ⟨-, hread, -⟩ := runActs_rows o f s h hn (Nat.le_refl 8)
  rw [runActs_firstActs_rows_shadow o f k s h hn (Nat.le_refl 8), hread]
  by_cases hin : 8 * a ≤ j ∧ j < 8 * a + 8
  · by_cases hk : k < (j - 8 * a) * xferLength n
    · rw [if_neg (by omega), if_pos ⟨hin.1, hin.2, hk⟩]
    · rw [if_pos (by omega), if_neg (by omega), if_pos hin]
  · rw [if_neg (by omega), if_neg (by omega), if_neg hin]

/-- CLEAR and SETCOL do nothing, or all rows of a device of the chain. -/
theorem actsOf_rows_cases {s : State} {i : Instr} {a : Word} {acts : List Action} (hi : s.inited = true)
    (hrows : i = .clear a ∨ ∃ c w, i = .setcol a c w) (h : actsOf s i = some acts) :
    acts = [] ∨ ∃ f, a.toNat < s.n.val ∧ acts = rowsActs s.cfg.opcodes s.n.val a.toNat f 8 := by
  rcases hrows with rfl | ⟨c, w, rfl⟩
  · have hacts := Option.some.inj ((if_pos hi).symm.trans h)
    split at hacts
    · next ha => exact .inr ⟨_, (validAddr_iff.mp ha).toNat_lt, hacts.symm⟩
    · exact .inl hacts.symm
  · rw [actsOf_setcol hi] at h
    by_cases hv : AddrOk s.n a ∧ IdxOk c
    · obtain ⟨rows, -, rfl⟩ := columnActs_cases hv.1 hv.2 h
      exact .inr ⟨_, hv.1.toNat_lt, rfl⟩
    · rw [columnActs_rejected w hv] at h
      exact .inl (Option.some.inj h).symm

/-- An instruction that takes a fault has done so at once in the small-step view too (R215). -/
theorem smallSteps_raise {s : State} {i : Instr} {r : FaultReason} (hl : Live s) (hw : wireTarget i = none)
    (h : exec i s = .next (raise r s)) : smallSteps i 0 s = .next { raise r s with view := .smallStep } := by
  rw [smallSteps, exec_view_of_no_acts hl hw (actsOf_eq_none_of_raise hl h) h]
  rfl

/-- Settles O53: row by row for CLEAR and SETCOL, and before the first event for every other instruction. -/
theorem rowsTakeEffectOneByOne : Obligations.RowsTakeEffectOneByOne := by
  intro s t i k hready hw h hk
  obtain ⟨hl, hi, hv⟩ := hready
  obtain ⟨-, ⟨acts, ha, rfl⟩ | ⟨r, rfl⟩⟩ := exec_cases hw h
  · rw [issue_bigStep hv] at hk ⊢
    rw [runActs_since] at hk
    refine ⟨_, smallSteps_issues hl ha k hk, fun a hrows j => ?_,
      fun hone => (actsOf_writesFirst hi hone ha).shadow k s⟩
    rcases actsOf_rows_cases hi hrows ha with rfl | ⟨f, han, rfl⟩
    · rw [writesFirst_nil.shadow, runActs_nil, ite_self]
    · exact rows_shadow_between _ f k s han (Nat.le_of_lt_succ s.n.isLt) j
  · obtain rfl : k = 0 := Nat.le_zero.mp (hk.trans_eq (congrArg List.length List.drop_length))
    exact ⟨_, smallSteps_raise hl hw h, fun _ _ _ => (ite_self _).symm, fun _ => rfl⟩

end Sys2Proof.Machine
end
